-- ==== Sys2Proof/Word.lean ====
section
/-! DEFINITION. The widths of the machine (00_scope.md R4, R5, R7): what the spec treats as bits is a bit vector of
the width it states; a sum on bit vectors is reduced to their width. -/

namespace Sys2Proof

/-- A data-memory location, W and every byte operand: `BYTE_BITS` = 8 (R4). -/
abbrev Byte := BitVec 8

/-- A byte address of program memory: `PC_BITS` = `TBLPTR_BITS` = 21 (R4, R24, R37). -/
abbrev PAddr := BitVec 21

/-- A data-memory address: `DATA_ADDR_BITS` = 12 (R4, R22). -/
abbrev DAddr := BitVec 12

/-- A bank number: 16 banks of `BANK_SIZE` = 256 bytes (R4, R22, R23). -/
abbrev Bank := BitVec 4

end Sys2Proof
end

