-- ==== Sys2Proof/Config.lean ====
section
/-! DEFINITION. What an implementation fixes (00_scope.md R4) and the values the spec leaves open. -/

/-- The five STATUS flags (10_state.md R28). -/
structure Sys2Proof.Machine.Flags where
  c : Bool
  dc : Bool
  z : Bool
  ov : Bool
  n : Bool
deriving DecidableEq, Repr

namespace Sys2Proof

/-- The registers `SFR_MAP` names (10_state.md R45), one constructor per byte register it routes; `stkptr` and
`indirect` are its two "refuse" rows. -/
inductive Sfr where
  | tosu | tosh | tosl
  | stkptr
  | pclatu | pclath | pcl
  | tblptru | tblptrh | tblptrl | tablat
  | prodh | prodl
  | intcon
  | wreg
  | fsr0h | fsr0l | fsr1h | fsr1l | fsr2h | fsr2l
  | bsr | status | rcon
  | indirect
deriving DecidableEq, Repr

/-- `RETFIE_POLICY` (R4, 43_control.md R202): which of GIEH, GIEL `retfie` sets. DESIGN CHOICE (safe), log 25: the
spec leaves the parameter's range open; these three are the readings of "GIE/GIEH o PEIE/GIEL". -/
inductive RetfiePolicy where
  | restoreCleared   -- the default: if GIEH = 0 then GIEH <- 1 else GIEL <- 1 (decision D21)
  | setGieh
  | setGiel
deriving DecidableEq, Repr

/-- What a `RESET_STATE` column gives one state element (70_reset_and_hazards.md R291, R292). -/
inductive ResetTo (α : Type) where
  | value (v : α)    -- the element takes this value
  | unspecified      -- marked unspecified: the element holds no value after the reset
  | absent           -- not in the map: unspecified at power-on, unchanged by the other resets
deriving DecidableEq, Repr

/-- One column of `RESET_STATE` (R291): every state element but PC and Mode, which each reset sets to `RESET_VECTOR` and
Running (R292). -/
structure ResetColumn where
  stack : ResetTo (List PAddr)
  pclath : ResetTo Byte
  pclatu : ResetTo (BitVec 5)
  bsr : ResetTo Bank
  tblptr : ResetTo PAddr
  tablat : ResetTo Byte
  gieh : ResetTo Bool
  giel : ResetTo Bool
  toBit : ResetTo Bool
  pdBit : ResetTo Bool
  wdt : ResetTo Nat
  wdtPost : ResetTo Nat
  w : ResetTo Byte
  c : ResetTo Bool
  dc : ResetTo Bool
  z : ResetTo Bool
  ov : ResetTo Bool
  n : ResetTo Bool
  fsr0 : ResetTo (BitVec 12)
  fsr1 : ResetTo (BitVec 12)
  fsr2 : ResetTo (BitVec 12)
  prodh : ResetTo Byte
  prodl : ResetTo Byte
  /-- Data memory: the bytes that do not read as unlisted ones. -/
  ram : ResetTo (List Host.Cell)
  ws : ResetTo Byte
  statuss : ResetTo Machine.Flags
  bsrs : ResetTo Bank
  hold : ResetTo (Vector Byte 8)
deriving DecidableEq, Repr

/-- `RESET_STATE` (R4, R291): a column per cause. `mclr` is the column of the `reset` instruction too (R292). -/
structure ResetState where
  powerOn : ResetColumn
  mclr : ResetColumn
  wdt : ResetColumn
  /-- The value of TOS while the return stack is empty (10_state.md R49); an access to TOS then faults all the same
  (60_exceptions.md R261; log 12). -/
  emptyTos : Option PAddr
deriving DecidableEq, Repr

/-- The parameters of 00_scope.md R4 that are not widths. DESIGN CHOICE (safe), log 1: they ride in `State.cfg`, since
the interface's `step` takes nothing but a state; no step changes them. -/
structure Params where
  /-- `ACCESS_SPLIT`: first `f` that the Access Bank maps to the SFR half. -/
  accessSplit : Byte
  /-- `ACCESS_SFR_BANK`: the bank of that half. -/
  accessSfrBank : Bank
  /-- `PROG_SIZE`: implemented program-memory bytes, from address 0. -/
  progSize : Nat
  /-- `DATA_IMPL`: implemented general-purpose addresses, as ranges (first, last), both included. -/
  dataImpl : List (Nat × Nat)
  /-- `SFR_MAP`: data addresses of the core registers. -/
  sfrMap : List (DAddr × Sfr)
  /-- `STACK_DEPTH`: return-stack entries. -/
  stackDepth : Nat
  /-- `XINST`: the extended instruction set; a model refuses `true` (R3). -/
  xinst : Bool
  /-- `INT_VEC_HIGH`. -/
  intVecHigh : PAddr
  /-- `INT_VEC_LOW`. -/
  intVecLow : PAddr
  /-- `RESET_VECTOR`. -/
  resetVector : PAddr
  /-- `RESET_STATE`. -/
  resetState : ResetState
  /-- `RETFIE_POLICY`. -/
  retfiePolicy : RetfiePolicy
  /-- `WDT_ENABLED`: may the environment deliver watchdog overflows? -/
  wdtEnabled : Bool
deriving DecidableEq, Repr

/-! The free values: values the spec does not state. Nothing constrains them. `State.freeIx` counts the draws (log 8). -/

/-- Free bytes. -/
opaque Config.freeByte : Nat → Byte

/-- Free values of the registers wider than a byte. -/
opaque Config.freeWord : Nat → BitVec 21

/-- Free counts. -/
opaque Config.freeNat : Nat → Nat

/-- Free contents of the return stack. -/
opaque Config.freeStack : Nat → List PAddr

end Sys2Proof
end

