-- ==== Sys2Proof/Machine/Defaults.lean ====
section
/-! DEFINITION. The default values the spec offers for the parameters of 00_scope.md R4. All but `ACCESS_SPLIT` and
`XINST` are the spec's own general-knowledge defaults: PRESUMED (unsafe), log 9. -/

namespace Sys2Proof.Machine

/-- The default `SFR_MAP` (10_state.md R45), from the highest address down. -/
def defaultSfrMap : List (DAddr × Sfr) :=
  [(0xFFF, .tosu), (0xFFE, .tosh), (0xFFD, .tosl), (0xFFC, .stkptr),
   (0xFFB, .pclatu), (0xFFA, .pclath), (0xFF9, .pcl),
   (0xFF8, .tblptru), (0xFF7, .tblptrh), (0xFF6, .tblptrl), (0xFF5, .tablat),
   (0xFF4, .prodh), (0xFF3, .prodl), (0xFF2, .intcon)] ++
  [(0xFEF, .indirect), (0xFEE, .indirect), (0xFED, .indirect), (0xFEC, .indirect), (0xFEB, .indirect),
   (0xFEA, .fsr0h), (0xFE9, .fsr0l), (0xFE8, .wreg)] ++
  [(0xFE7, .indirect), (0xFE6, .indirect), (0xFE5, .indirect), (0xFE4, .indirect), (0xFE3, .indirect),
   (0xFE2, .fsr1h), (0xFE1, .fsr1l), (0xFE0, .bsr)] ++
  [(0xFDF, .indirect), (0xFDE, .indirect), (0xFDD, .indirect), (0xFDC, .indirect), (0xFDB, .indirect),
   (0xFDA, .fsr2h), (0xFD9, .fsr2l), (0xFD8, .status), (0xFD0, .rcon)]

/-- The default power-on column of `RESET_STATE` (70_reset_and_hazards.md R291; log 2). -/
def defaultPowerOn : ResetColumn where
  stack := .value []
  pclath := .value 0
  pclatu := .value 0
  bsr := .value 0
  tblptr := .value 0
  tablat := .value 0
  gieh := .value false
  giel := .value false
  toBit := .value true
  pdBit := .value true
  wdt := .value 0
  wdtPost := .value 0
  w := .absent
  c := .absent
  dc := .absent
  z := .absent
  ov := .absent
  n := .absent
  fsr0 := .absent
  fsr1 := .absent
  fsr2 := .absent
  prodh := .absent
  prodl := .absent
  ram := .absent
  ws := .unspecified
  statuss := .unspecified
  bsrs := .unspecified
  hold := .unspecified

/-- The default column of an MCLR reset and of the `reset` instruction (R291): TO and PD are unchanged. -/
def defaultMclr : ResetColumn := { defaultPowerOn with toBit := .absent, pdBit := .absent }

/-- The default `RESET_STATE` (R291, 10_state.md R49): a watchdog reset clears TO beside. -/
def defaultResetState : ResetState where
  powerOn := defaultPowerOn
  mclr := defaultMclr
  wdt := { defaultMclr with toBit := .value false }
  emptyTos := some 0

/-- The parameters at the defaults of 00_scope.md R4. -/
def defaultParams : Params where
  accessSplit := 0x60
  accessSfrBank := 0xF
  progSize := 0x8000
  dataImpl := [(0x000, 0x5FF)]
  sfrMap := defaultSfrMap
  stackDepth := 31
  xinst := false
  intVecHigh := 0x000008
  intVecLow := 0x000018
  resetVector := 0x000000
  resetState := defaultResetState
  retfiePolicy := .restoreCleared
  wdtEnabled := false

end Sys2Proof.Machine
end

