-- ==== Sys2Proof/Machine/Memory.lean ====
section
/-! DEFINITION. A byte memory in one canonical form: a list of (address, byte) pairs with strictly rising addresses
and no entry equal to what an unlisted address reads as. Data memory (10_state.md R22) and program memory (R44) are
both held so. -/

namespace Sys2Proof.Machine

/-- A memory's listed bytes. -/
abbrev Memory := List Host.Cell

/-- What an unlisted byte reads as. DESIGN CHOICE (unsafe), log 4 for data memory and log 5 for program memory: the spec says
that a byte never written "holds no value" (20_memory.md R64) and that one the image leaves undefined is any value
(decision D5). -/
def unlisted : Byte := 0

/-- The byte at an address. -/
def Memory.read : Memory → Nat → Byte
  | [], _ => unlisted
  | (b, v) :: m, a => if a = b then v else Memory.read m a

/-- The memory with one byte changed, still in canonical form. -/
def Memory.write : Memory → Nat → Byte → Memory
  | [], a, v => if v = unlisted then [] else [(a, v)]
  | (b, u) :: m, a, v =>
    if a < b then (if v = unlisted then (b, u) :: m else (a, v) :: (b, u) :: m)
    else if a = b then (if v = unlisted then m else (a, v) :: m)
    else (b, u) :: Memory.write m a v

/-- Canonical from address `lo` up. -/
def Memory.wfFrom : Nat → Memory → Bool
  | _, [] => true
  | lo, (b, v) :: m => decide (lo ≤ b) && (v != unlisted) && Memory.wfFrom (b + 1) m

/-- The canonical form: equal memories are equal lists. -/
def Memory.wf (m : Memory) : Bool := Memory.wfFrom 0 m

end Sys2Proof.Machine
end

