-- ==== Sys2Proof/Machine/Layout.lean ====
section
/-! DEFINITION. The layout of the address spaces under the parameters: instruction addresses, where a data address leads,
and what a `RESET_STATE` column (70_reset_and_hazards.md R291) does to the elements whose size the parameters fix. -/

namespace Sys2Proof.Machine

/-- An instruction address: bit 0 is always 0 (10_state.md R24, decision D9). -/
def alignPc (v : PAddr) : PAddr := v.extractLsb' 1 20 ++ 0#1

/-- Where a data address leads. -/
inductive Place where
  | sfr (r : Sfr)       -- a key of SFR_MAP
  | peripheral          -- any other address of the special-function region (10_state.md R45, last row)
  | ram                 -- implemented general-purpose memory
  | unimplemented
deriving DecidableEq, Repr

/-- The register `SFR_MAP` routes an address to. -/
def lookupSfr : List (DAddr × Sfr) → DAddr → Option Sfr
  | [], _ => none
  | (k, r) :: m, a => if a = k then some r else lookupSfr m a

/-- Is an address in one of the ranges? -/
def inRanges : List (Nat × Nat) → Nat → Bool
  | [], _ => false
  | (lo, hi) :: rs, a => (decide (lo ≤ a) && decide (a ≤ hi)) || inRanges rs a

/-- The first address of the special-function region: `ACCESS_SFR_BANK*256 + ACCESS_SPLIT` (R45, R75). -/
def Params.sfrBase (p : Params) : Nat := p.accessSfrBank.toNat * 256 + p.accessSplit.toNat

/-- The three cases of R64 in their order, the special-function region before `DATA_IMPL`: DEDUCED (safe), log 27. -/
def Params.place (p : Params) (a : DAddr) : Place :=
  match lookupSfr p.sfrMap a with
  | some r => .sfr r
  | none =>
    if Params.sfrBase p ≤ a.toNat then .peripheral
    else if inRanges p.dataImpl a.toNat then .ram
    else .unimplemented

/-- Data memory with every implemented general-purpose byte (10_state.md R22) at the value `val` gives it, below an
address. -/
def Params.fillRam (p : Params) (val : Nat → Byte) : Nat → Memory → Memory
  | 0, m => m
  | a + 1, m =>
    Params.fillRam p val a (if Params.place p (BitVec.ofNat 12 a) = .ram then Memory.write m a (val a) else m)

/-- Data memory after a reset: `old` where the column has no entry for it, `free` where it is unspecified. -/
def Params.ramAfter (p : Params) (r : ResetTo (List Host.Cell)) (old : Memory) (free : Nat → Byte) : Memory :=
  match r with
  | .value m => Params.fillRam p (Memory.read m) 4096 []
  | .unspecified => Params.fillRam p free 4096 []
  | .absent => old

/-- The return stack after a reset, never more than `STACK_DEPTH` entries of what the column gives (10_state.md R31). -/
def Params.stackAfter (p : Params) (r : ResetTo (List PAddr)) (old free : List PAddr) : List PAddr :=
  match r with
  | .value l => l.take p.stackDepth
  | .unspecified => free.take p.stackDepth
  | .absent => old

/-- Any other element after a reset (R292). -/
def resetTo {α : Type} (r : ResetTo α) (old free : α) : α :=
  match r with
  | .value v => v
  | .unspecified => free
  | .absent => old

end Sys2Proof.Machine
end

