-- ==== Sys2Proof/Machine/State.lean ====
section
/-! DEFINITION. The machine's state as plain data (10_state.md), why a step can stop, the state after reset, and one
update function per field. -/

namespace Sys2Proof.Machine

/-- The power state (10_state.md R43). It is no privilege level: there is one (60_exceptions.md R273). -/
inductive Mode where
  | running
  | sleeping
deriving DecidableEq, Repr

/-- What the environment asserts at one instruction boundary (60_exceptions.md R264). Several lines may be asserted at
once; R267 orders them. DESIGN CHOICE (safe), log 14; the two counts are the watchdog's time, log 15. -/
structure EnvInput where
  /-- The MCLR pin asserts reset (R266). -/
  mclr : Bool
  /-- The watchdog overflows (R272). -/
  wdtOverflow : Bool
  /-- `IntRequest(High)` (R265). -/
  intHigh : Bool
  /-- `IntRequest(Low)` (R265). -/
  intLow : Bool
  /-- How far the watchdog timer has counted since the previous boundary (10_state.md R42). -/
  wdtTicks : Nat
  /-- How far its postscaler has counted since the previous boundary (R42). -/
  wdtPostTicks : Nat
deriving DecidableEq, Repr

/-- The faults of 60_exceptions.md R261. Each ends the run (R262); each is safe: the model stops where the spec defines
nothing further. -/
inductive Fault where
  /-- Raised by the decoder on a first word that is no instruction (30_encoding.md R99). Safe. -/
  | unassignedEncoding
  /-- Raised by `lfsr` with f = 3 (R92, 44_literal.md R224). Safe. -/
  | reservedEncoding
  /-- Raised by the decoder when the word after `movff`, `call`, `goto` or `lfsr` is no second word (R94). Safe. -/
  | badSecondWord
  /-- Raised by the fetch of either word at or above `PROG_SIZE` (20_memory.md R71). Safe. -/
  | fetchOutsideProgram
  /-- Raised by `tblrd` when TBLPTR is at or above `PROG_SIZE` at the read (R71). Safe. -/
  | tableReadOutsideProgram
  /-- Raised by a data access to an address outside `DATA_IMPL` and `SFR_MAP` (R64, R65). Safe. -/
  | unimplementedData
  /-- Raised by `movff` with destination PCL, TOSU, TOSH or TOSL (41_byte_oriented.md R141). Safe. -/
  | movffForbiddenDest
  /-- Raised by a push with `STACK_DEPTH` entries held (10_state.md R31). Safe. -/
  | stackOverflow
  /-- Raised with the stack empty by a pop and by any access to TOSU, TOSH or TOSL (R32, R261). Safe (log 12). -/
  | stackUnderflow
deriving DecidableEq, Repr

/-- Where a run leaves the spec without a fault (60_exceptions.md R261 (a), 00_scope.md R3). -/
inductive Refusal where
  /-- Raised by `exec` for an instruction without a meaning; no arm uses it. Safe. -/
  | notModelled (mnemonic : String)
  /-- Raised by `step` in a configuration with `XINST` = 1 (00_scope.md R3). Safe. -/
  | extendedMode
  /-- Raised by a data access to STKPTR, which `SFR_MAP` routes to "refuse" (10_state.md R45). Safe (log 18). -/
  | stackPointerRegister
  /-- Raised by a data access to INDFn, POSTINCn, POSTDECn, PREINCn or PLUSWn (R45, 00_scope.md R11). Safe (log 18). -/
  | indirectAddressing
  /-- Raised by an access to the bits of INTCON and RCON that the spec does not describe (R45, R261). Safe (log 7). -/
  | unmodelledBits
  /-- Raised by a data access to a peripheral register (R45, 20_memory.md R80). Safe (log 18). -/
  | peripheralRegister
deriving DecidableEq, Repr

/-- The state of the machine. INVENTORY.md lists each field with its rule and its reset value. -/
structure State where
  /-- W (10_state.md R21). -/
  w : Byte
  /-- BSR, its four significant bits (R23; log 22). -/
  bsr : Bank
  /-- The STATUS flags (R28). -/
  flags : Flags
  /-- PC (R24). -/
  pc : PAddr
  /-- PCLATH (R27). -/
  pclath : Byte
  /-- PCLATU (R27). -/
  pclatu : BitVec 5
  /-- The return stack, TOS first (R31). -/
  stack : List PAddr
  /-- WS, the saved W (R34). -/
  ws : Byte
  /-- STATUSS, the saved flags (R34). -/
  statuss : Flags
  /-- BSRS, the saved BSR (R34). -/
  bsrs : Bank
  /-- FSR0 (R35). -/
  fsr0 : BitVec 12
  /-- FSR1 (R35). -/
  fsr1 : BitVec 12
  /-- FSR2 (R35). -/
  fsr2 : BitVec 12
  /-- PRODH (R36). -/
  prodh : Byte
  /-- PRODL (R36). -/
  prodl : Byte
  /-- TBLPTR (R37). -/
  tblptr : PAddr
  /-- TABLAT (R38). -/
  tablat : Byte
  /-- HOLD[0..7] (R39). -/
  hold : Vector Byte 8
  /-- GIEH, named GIE/GIEH (R40). -/
  gieh : Bool
  /-- GIEL, named PEIE/GIEL (R40). -/
  giel : Bool
  /-- TO (R41). -/
  toBit : Bool
  /-- PD (R41). -/
  pdBit : Bool
  /-- The watchdog timer's count (R42; log 15). -/
  wdt : Nat
  /-- The watchdog postscaler's count (R42; log 15). -/
  wdtPost : Nat
  /-- The power state (R43). -/
  mode : Mode
  /-- General-purpose data memory (R22). -/
  ram : Memory
  /-- Program memory (R44); no step changes it (20_memory.md R78). -/
  prog : Memory
  /-- The run's parameters (00_scope.md R4); no step changes them (log 1). -/
  cfg : Params
  /-- The MODEL's own: what the environment asserts at each coming boundary, the nearest first (log 14). -/
  inputs : List EnvInput
  /-- The MODEL's own: how many free values have been drawn (log 8). -/
  freeIx : Nat
deriving DecidableEq, Repr

/-- The machine right after power-on, `Reset(PowerOn)` (70_reset_and_hazards.md R292), with a run's parameters: every
element takes its value in the power-on column of `RESET_STATE`. Where the column gives none it holds 0 (false, empty):
DESIGN CHOICE (unsafe), log 3, for data memory log 4. No program is loaded and nothing is scheduled. -/
def State.powerOn (p : Params) : State where
  w := resetTo p.resetState.powerOn.w 0 0
  bsr := resetTo p.resetState.powerOn.bsr 0 0
  flags := {
    c := resetTo p.resetState.powerOn.c false false, dc := resetTo p.resetState.powerOn.dc false false,
    z := resetTo p.resetState.powerOn.z false false, ov := resetTo p.resetState.powerOn.ov false false,
    n := resetTo p.resetState.powerOn.n false false }
  pc := alignPc p.resetVector
  pclath := resetTo p.resetState.powerOn.pclath 0 0
  pclatu := resetTo p.resetState.powerOn.pclatu 0 0
  stack := Params.stackAfter p p.resetState.powerOn.stack [] []
  ws := resetTo p.resetState.powerOn.ws 0 0
  statuss := resetTo p.resetState.powerOn.statuss ⟨false, false, false, false, false⟩ ⟨false, false, false, false, false⟩
  bsrs := resetTo p.resetState.powerOn.bsrs 0 0
  fsr0 := resetTo p.resetState.powerOn.fsr0 0 0
  fsr1 := resetTo p.resetState.powerOn.fsr1 0 0
  fsr2 := resetTo p.resetState.powerOn.fsr2 0 0
  prodh := resetTo p.resetState.powerOn.prodh 0 0
  prodl := resetTo p.resetState.powerOn.prodl 0 0
  tblptr := resetTo p.resetState.powerOn.tblptr 0 0
  tablat := resetTo p.resetState.powerOn.tablat 0 0
  hold := resetTo p.resetState.powerOn.hold #v[0, 0, 0, 0, 0, 0, 0, 0] #v[0, 0, 0, 0, 0, 0, 0, 0]
  gieh := resetTo p.resetState.powerOn.gieh false false
  giel := resetTo p.resetState.powerOn.giel false false
  toBit := resetTo p.resetState.powerOn.toBit false false
  pdBit := resetTo p.resetState.powerOn.pdBit false false
  wdt := resetTo p.resetState.powerOn.wdt 0 0
  wdtPost := resetTo p.resetState.powerOn.wdtPost 0 0
  mode := .running
  ram := Params.ramAfter p p.resetState.powerOn.ram [] (fun _ => unlisted)
  prog := []
  cfg := p
  inputs := []
  freeIx := 0

/-- The machine right after power-on with the default parameters (10_state.md R49, 70_reset_and_hazards.md R291; log 2). -/
def State.reset : State := State.powerOn defaultParams

/-! One update per field (two or three where an operation always writes them together). -/

def State.setW (s : State) (v : Byte) : State := { s with w := v }
def State.setBsr (s : State) (v : Bank) : State := { s with bsr := v }
def State.setFlags (s : State) (v : Flags) : State := { s with flags := v }
def State.setPcRaw (s : State) (v : PAddr) : State := { s with pc := v }
def State.setPclath (s : State) (v : Byte) : State := { s with pclath := v }
def State.setPclatu (s : State) (v : BitVec 5) : State := { s with pclatu := v }
def State.setStack (s : State) (v : List PAddr) : State := { s with stack := v }
def State.setShadow (s : State) (w : Byte) (fl : Flags) (b : Bank) : State :=
  { s with ws := w, statuss := fl, bsrs := b }
def State.setFsr0 (s : State) (v : BitVec 12) : State := { s with fsr0 := v }
def State.setFsr1 (s : State) (v : BitVec 12) : State := { s with fsr1 := v }
def State.setFsr2 (s : State) (v : BitVec 12) : State := { s with fsr2 := v }
def State.setProd (s : State) (h l : Byte) : State := { s with prodh := h, prodl := l }
def State.setTblptr (s : State) (v : PAddr) : State := { s with tblptr := v }
def State.setTablat (s : State) (v : Byte) : State := { s with tablat := v }
def State.setHold (s : State) (v : Vector Byte 8) : State := { s with hold := v }
def State.setGie (s : State) (h l : Bool) : State := { s with gieh := h, giel := l }
def State.setToPd (s : State) (t p : Bool) : State := { s with toBit := t, pdBit := p }
def State.setWdt (s : State) (t p : Nat) : State := { s with wdt := t, wdtPost := p }
def State.setMode (s : State) (m : Mode) : State := { s with mode := m }
def State.setRam (s : State) (m : Memory) : State := { s with ram := m }
def State.setProg (s : State) (m : Memory) : State := { s with prog := m }
def State.setInputs (s : State) (l : List EnvInput) : State := { s with inputs := l }
def State.setFreeIx (s : State) (n : Nat) : State := { s with freeIx := n }

end Sys2Proof.Machine
end

