-- ==== Sys2Proof/Machine/Flags.lean ====
section
/-! DEFINITION. The arithmetic of the ALU with its flags (41_byte_oriented.md R122, R123), the rotates, the decimal
adjustment (43_control.md R192) and the STATUS byte (10_state.md R30). -/

namespace Sys2Proof.Machine

/-- Z and N of a result, the other flags kept (10_state.md R29: Z = 1 iff r = 0, N = r[7]). -/
def Flags.withZN (fl : Flags) (r : Byte) : Flags := { fl with z := r == 0, n := r.msb }

/-- `Add8(x, y, cin)` (41_byte_oriented.md R122): the 8-bit result and the five flags. -/
def add8 (x y : Byte) (cin : Bool) : Byte × Flags :=
  let s := x.toNat + y.toNat + cin.toNat
  let r := BitVec.ofNat 8 s
  (r, { c := decide (255 < s)
        dc := decide (15 < (x.extractLsb' 0 4).toNat + (y.extractLsb' 0 4).toNat + cin.toNat)
        z := r == 0
        ov := (x.msb == y.msb) && (r.msb != x.msb)
        n := r.msb })

/-- `Sub8(x, y, bin)` = `Add8(x, ~y, 1 - bin)` (R123). -/
def sub8 (x y : Byte) (bin : Bool) : Byte × Flags := add8 x (~~~y) (!bin)

/-- Rotate left through carry (R145): the result and the new C. -/
def rotLeftCarry (v : Byte) (c : Bool) : Byte × Bool := (v.extractLsb' 0 7 ++ BitVec.ofBool c, v.msb)

/-- Rotate right through carry (R147): the result and the new C. -/
def rotRightCarry (v : Byte) (c : Bool) : Byte × Bool := (BitVec.ofBool c ++ v.extractLsb' 1 7, v.getLsbD 0)

/-- Rotate left, not through carry (R146). -/
def rotLeft (v : Byte) : Byte := v.extractLsb' 0 7 ++ BitVec.ofBool v.msb

/-- Rotate right, not through carry (R148). -/
def rotRight (v : Byte) : Byte := BitVec.ofBool (v.getLsbD 0) ++ v.extractLsb' 1 7

/-- Exchange the nibbles (R153). -/
def swapNibbles (v : Byte) : Byte := v.extractLsb' 0 4 ++ v.extractLsb' 4 4

/-- The byte with only bit `b` set (42_bit_oriented.md R171: `1 << b`). -/
def bitMask (b : BitVec 3) : Byte := (1 : Byte) <<< b.toNat

/-- The 16-bit unsigned product (R143, 44_literal.md R227). -/
def mul8 (x y : Byte) : BitVec 16 := BitVec.ofNat 16 (x.toNat * y.toNat)

/-- `daw` (43_control.md R192, R193): the adjusted W and the new C, from W, C and DC. -/
def decimalAdjust (w : Byte) (c dc : Bool) : Byte × Bool :=
  let lo := (w.extractLsb' 0 4).toNat
  let hi := (w.extractLsb' 4 4).toNat
  let lo1 := if lo > 9 ∨ dc = true then lo + 6 else lo
  let c4 := if lo1 > 15 then 1 else 0
  let hi1 := hi + c4
  let high := decide (hi1 > 9 ∨ c = true)
  let hi2 := if high then hi1 + 6 else hi1
  (BitVec.ofNat 4 hi2 ++ BitVec.ofNat 4 lo1, high)

/-- STATUS as a byte (10_state.md R30): bit 0 C, 1 DC, 2 Z, 3 OV, 4 N, bits 7:5 read as 0. -/
def Flags.toByte (fl : Flags) : Byte :=
  0#3 ++ BitVec.ofBool fl.n ++ BitVec.ofBool fl.ov ++ BitVec.ofBool fl.z ++ BitVec.ofBool fl.dc ++ BitVec.ofBool fl.c

/-- The flags a byte written to STATUS leaves (R30, 20_memory.md R65: bits 7:5 dropped). -/
def Flags.ofByte (v : Byte) : Flags where
  c := v.getLsbD 0
  dc := v.getLsbD 1
  z := v.getLsbD 2
  ov := v.getLsbD 3
  n := v.getLsbD 4

end Sys2Proof.Machine
end

