-- ==== Sys2Proof/Machine/Ops.lean ====
section
/-! DEFINITION. The named operations over registers, data memory, the return stack and program memory
(00_scope.md R8), the resets (70_reset_and_hazards.md R292), and the taking of an interrupt (60_exceptions.md R268)
with the return from one (43_control.md R202) beside it. -/

namespace Sys2Proof.Machine

/-- What an operation answers: a value, a fault or a refusal. -/
abbrev Res (α : Type) := Host.Outcome α Fault Refusal

/-- Go on with the value of an operation, or stop as it stops. -/
def andThen {α β : Type} (x : Res α) (k : α → Res β) : Res β :=
  match x with
  | .next v => k v
  | .fault r => .fault r
  | .refused r => .refused r

/-- Why an access stops. -/
inductive Stop where
  | fault (r : Fault)
  | refused (r : Refusal)
deriving DecidableEq, Repr

/-- The outcome of a stop. -/
def Stop.out {α : Type} : Stop → Res α
  | .fault r => .fault r
  | .refused r => .refused r

/-! ### Program counter -/

/-- Load PC from a source whose bit 0 may be 1 (a popped entry, a written PCL, a vector): PC[0] stays 0 (R24, D9).
DEDUCED (unsafe), log 11. -/
def State.setPc (s : State) (v : PAddr) : State := s.setPcRaw (alignPc v)

/-- Sequential advance by `n` bytes, mod 2^21 (R25). -/
def State.advance (s : State) (n : PAddr) : State := s.setPcRaw (s.pc + n)

/-! ### Data memory (20_memory.md R64, R65) -/

/-- Where a data address leads under the run's parameters. -/
def State.place (s : State) (a : DAddr) : Place := Params.place s.cfg a

/-- Which way an access goes. -/
inductive Dir where
  | read
  | write
deriving DecidableEq, Repr

/-- How much of a byte an instruction is about: a bit instruction names one bit, and hands the other seven back as
they were (20_memory.md R66). -/
inductive BytePart where
  | whole
  | bit (b : BitVec 3)
deriving DecidableEq, Repr

/-- The bits of a special-function register that the spec describes: of INTCON GIEH and GIEL, of RCON TO and PD
(10_state.md R45). -/
def modelledBits : Sfr → Byte
  | .intcon => 0xC0
  | .rcon => 0x0C
  | _ => 0xFF

/-- Is the part among the bits of the mask? -/
def BytePart.within (m : Byte) : BytePart → Bool
  | .whole => m == 0xFF
  | .bit b => m.getLsbD b.toNat

/-- Why an access to a special-function register stops, if it does (R45, 60_exceptions.md R261). The unmodelled bits of
INTCON and RCON are refused bit by bit: DEDUCED (safe), log 7. Any access to TOS with the stack empty is the StackUnderflow
of R261 (log 12). The rules tell no read from a write here. -/
def State.sfrStop (s : State) (_d : Dir) (p : BytePart) : Sfr → Option Stop
  | .stkptr => some (.refused .stackPointerRegister)
  | .indirect => some (.refused .indirectAddressing)
  | .tosu | .tosh | .tosl =>
    if s.stack = [] then some (.fault .stackUnderflow) else none
  | r => if p.within (modelledBits r) then none else some (.refused .unmodelledBits)

/-- Why an access to a data address stops, if it does (R64, R65, R261). -/
def State.accessStop (s : State) (d : Dir) (p : BytePart) (a : DAddr) : Option Stop :=
  match s.place a with
  | .sfr r => s.sfrStop d p r
  | .peripheral => some (.refused .peripheralRegister)
  | .ram => none
  | .unimplemented => some (.fault .unimplementedData)

/-- The address after the present instruction's first word, whose bytes a read of PCL latches (R27). -/
def State.pcNext (s : State) : PAddr := s.pc + 2

/-- TOS (R31); with the stack empty, the value `RESET_STATE` gives it (10_state.md R49), which no instruction gets to see:
an access to it and a `Pop` both fault (R261; log 12). -/
def State.tos (s : State) : PAddr := s.stack.headD (s.cfg.resetState.emptyTos.getD 0)

/-- INTCON (R45): bit 7 GIEH, bit 6 GIEL. Zeros stand for the six unmodelled bits, which no instruction gets to see (log 7). -/
def State.intconByte (s : State) : Byte := BitVec.ofBool s.gieh ++ BitVec.ofBool s.giel ++ 0#6

/-- RCON (R45): bit 3 TO, bit 2 PD; the other six as in INTCON. -/
def State.rconByte (s : State) : Byte := 0#4 ++ BitVec.ofBool s.toBit ++ BitVec.ofBool s.pdBit ++ 0#2

/-- The byte a read of a special-function register returns (R27, R30, R33, R35, R37, R45; bits a narrower register lacks
read as 0, U2). -/
def State.peekSfr (s : State) : Sfr → Byte
  | .tosu => (s.tos.extractLsb' 16 5).setWidth 8
  | .tosh => s.tos.extractLsb' 8 8
  | .tosl => s.tos.extractLsb' 0 8
  | .stkptr => 0
  | .pclatu => s.pclatu.setWidth 8
  | .pclath => s.pclath
  | .pcl => s.pcNext.extractLsb' 0 8
  | .tblptru => (s.tblptr.extractLsb' 16 5).setWidth 8
  | .tblptrh => s.tblptr.extractLsb' 8 8
  | .tblptrl => s.tblptr.extractLsb' 0 8
  | .tablat => s.tablat
  | .prodh => s.prodh
  | .prodl => s.prodl
  | .intcon => s.intconByte
  | .wreg => s.w
  | .fsr0h => (s.fsr0.extractLsb' 8 4).setWidth 8
  | .fsr0l => s.fsr0.extractLsb' 0 8
  | .fsr1h => (s.fsr1.extractLsb' 8 4).setWidth 8
  | .fsr1l => s.fsr1.extractLsb' 0 8
  | .fsr2h => (s.fsr2.extractLsb' 8 4).setWidth 8
  | .fsr2l => s.fsr2.extractLsb' 0 8
  | .bsr => s.bsr.setWidth 8
  | .status => s.flags.toByte
  | .rcon => s.rconByte
  | .indirect => 0

/-- The byte a read of a data address returns, where the access does not stop. -/
def State.peek (s : State) (a : DAddr) : Byte :=
  match s.place a with
  | .sfr r => s.peekSfr r
  | .ram => s.ram.read a.toNat
  | .peripheral | .unimplemented => 0

/-- The side effect of a read (R27): PCL copies the upper bytes of PC + 2 into PCLATH and PCLATU. No other read changes
anything. -/
def State.afterRead (s : State) (a : DAddr) : State :=
  match s.place a with
  | .sfr .pcl => (s.setPclath (s.pcNext.extractLsb' 8 8)).setPclatu (s.pcNext.extractLsb' 16 5)
  | _ => s

/-- Replace the current TOS entry (R33). -/
def State.setTos (s : State) (v : PAddr) : State :=
  match s.stack with
  | [] => s
  | _ :: rest => s.setStack (v :: rest)

/-- The effect of writing a byte to a special-function register (R27, R30, R33, R45, R65: a register narrower than 8
bits drops the upper bits). A write to RCON sets TO and PD: DEDUCED (unsafe), log 13. -/
def State.pokeSfr (s : State) (r : Sfr) (v : Byte) : State :=
  match r with
  | .tosu => s.setTos (v.extractLsb' 0 5 ++ s.tos.extractLsb' 0 16)
  | .tosh => s.setTos (s.tos.extractLsb' 16 5 ++ v ++ s.tos.extractLsb' 0 8)
  | .tosl => s.setTos (s.tos.extractLsb' 8 13 ++ v)
  | .stkptr => s
  | .pclatu => s.setPclatu (v.extractLsb' 0 5)
  | .pclath => s.setPclath v
  | .pcl => s.setPc (s.pclatu ++ s.pclath ++ v)
  | .tblptru => s.setTblptr (v.extractLsb' 0 5 ++ s.tblptr.extractLsb' 0 16)
  | .tblptrh => s.setTblptr (s.tblptr.extractLsb' 16 5 ++ v ++ s.tblptr.extractLsb' 0 8)
  | .tblptrl => s.setTblptr (s.tblptr.extractLsb' 8 13 ++ v)
  | .tablat => s.setTablat v
  | .prodh => s.setProd v s.prodl
  | .prodl => s.setProd s.prodh v
  | .intcon => s.setGie (v.getLsbD 7) (v.getLsbD 6)
  | .wreg => s.setW v
  | .fsr0h => s.setFsr0 (v.extractLsb' 0 4 ++ s.fsr0.extractLsb' 0 8)
  | .fsr0l => s.setFsr0 (s.fsr0.extractLsb' 8 4 ++ v)
  | .fsr1h => s.setFsr1 (v.extractLsb' 0 4 ++ s.fsr1.extractLsb' 0 8)
  | .fsr1l => s.setFsr1 (s.fsr1.extractLsb' 8 4 ++ v)
  | .fsr2h => s.setFsr2 (v.extractLsb' 0 4 ++ s.fsr2.extractLsb' 0 8)
  | .fsr2l => s.setFsr2 (s.fsr2.extractLsb' 8 4 ++ v)
  | .bsr => s.setBsr (v.extractLsb' 0 4)
  | .status => s.setFlags (Flags.ofByte v)
  | .rcon => s.setToPd (v.getLsbD 3) (v.getLsbD 2)
  | .indirect => s

/-- The state after a byte is written to a data address, where the access does not stop. -/
def State.poke (s : State) (a : DAddr) (v : Byte) : State :=
  match s.place a with
  | .sfr r => s.pokeSfr r v
  | .ram => s.setRam (s.ram.write a.toNat v)
  | .peripheral | .unimplemented => s

/-- A read of a part of a byte: the whole byte, and the state after the read's side effect. -/
def State.readPart (s : State) (p : BytePart) (a : DAddr) : Res (Byte × State) :=
  match s.accessStop .read p a with
  | some e => e.out
  | none => .next (s.peek a, s.afterRead a)

/-- A write of a byte of which a part is meant. -/
def State.writePart (s : State) (p : BytePart) (a : DAddr) (v : Byte) : Res State :=
  match s.accessStop .write p a with
  | some e => e.out
  | none => .next (s.poke a v)

/-- `MemRead(addr, 1)` (R64). -/
def State.memRead (s : State) (a : DAddr) : Res (Byte × State) := s.readPart .whole a

/-- `MemWrite(addr, 1, v)` (R65). -/
def State.memWrite (s : State) (a : DAddr) (v : Byte) : Res State := s.writePart .whole a v

/-! ### Program memory -/

/-- `ProgRead(addr, 1)` (20_memory.md R70). -/
def State.progByte (s : State) (a : PAddr) : Byte := s.prog.read a.toNat

/-- Is the address in implemented program memory (R71)? -/
def State.progHas (s : State) (a : PAddr) : Bool := decide (a.toNat < s.cfg.progSize)

/-! ### Return stack and fast register stack -/

/-- `Push(v)` (10_state.md R31). -/
def State.push (s : State) (v : PAddr) : Res State :=
  if s.stack.length < s.cfg.stackDepth then .next (s.setStack (v :: s.stack)) else .fault .stackOverflow

/-- `Pop()` (R32): TOS, and the state without it. -/
def State.pop (s : State) : Res (PAddr × State) :=
  match s.stack with
  | [] => .fault .stackUnderflow
  | t :: rest => .next (t, s.setStack rest)

/-- `WS <- W; STATUSS <- STATUS; BSRS <- BSR` (R34). -/
def State.saveFast (s : State) : State := s.setShadow s.w s.flags s.bsr

/-- `W <- WS; STATUS <- STATUSS; BSR <- BSRS` (R34). -/
def State.restoreFast (s : State) : State := ((s.setW s.ws).setFlags s.statuss).setBsr s.bsrs

/-! ### Reset (70_reset_and_hazards.md R291, R292) -/

/-- The causes of a reset of a running machine (R290, R292); power-on is `State.reset`. -/
inductive ResetCause where
  | mclr
  | software
  | wdt
deriving DecidableEq, Repr

/-- The column of `RESET_STATE` for a cause (R292: a software reset uses the column of MCLR). -/
def ResetState.column (r : ResetState) : ResetCause → ResetColumn
  | .mclr | .software => r.mclr
  | .wdt => r.wdt

/-- `Reset(cause)` (R292): every element takes the value of its `RESET_STATE` column, and PC and Mode the reset's own. An
element marked unspecified takes a free value: DESIGN CHOICE (safe), log 8. -/
def State.resetBy (s : State) (cause : ResetCause) : State :=
  let k := ResetState.column s.cfg.resetState cause
  let i := s.freeIx
  let bits := Config.freeByte i
  let fl := Flags.ofByte (Config.freeByte (i + 1))
  { s with
    stack := Params.stackAfter s.cfg k.stack s.stack (Config.freeStack i),
    pclath := resetTo k.pclath s.pclath (Config.freeByte (i + 2)),
    pclatu := resetTo k.pclatu s.pclatu ((Config.freeByte (i + 3)).extractLsb' 0 5),
    bsr := resetTo k.bsr s.bsr ((Config.freeByte (i + 4)).extractLsb' 0 4),
    tblptr := resetTo k.tblptr s.tblptr (Config.freeWord i),
    tablat := resetTo k.tablat s.tablat (Config.freeByte (i + 5)),
    gieh := resetTo k.gieh s.gieh (bits.getLsbD 0),
    giel := resetTo k.giel s.giel (bits.getLsbD 1),
    toBit := resetTo k.toBit s.toBit (bits.getLsbD 2),
    pdBit := resetTo k.pdBit s.pdBit (bits.getLsbD 3),
    wdt := resetTo k.wdt s.wdt (Config.freeNat i),
    wdtPost := resetTo k.wdtPost s.wdtPost (Config.freeNat (i + 1)),
    w := resetTo k.w s.w (Config.freeByte (i + 6)),
    flags := {
      c := resetTo k.c s.flags.c fl.c, dc := resetTo k.dc s.flags.dc fl.dc, z := resetTo k.z s.flags.z fl.z,
      ov := resetTo k.ov s.flags.ov fl.ov, n := resetTo k.n s.flags.n fl.n },
    fsr0 := resetTo k.fsr0 s.fsr0 ((Config.freeWord (i + 1)).extractLsb' 0 12),
    fsr1 := resetTo k.fsr1 s.fsr1 ((Config.freeWord (i + 2)).extractLsb' 0 12),
    fsr2 := resetTo k.fsr2 s.fsr2 ((Config.freeWord (i + 3)).extractLsb' 0 12),
    prodh := resetTo k.prodh s.prodh (Config.freeByte (i + 7)),
    prodl := resetTo k.prodl s.prodl (Config.freeByte (i + 8)),
    ram := Params.ramAfter s.cfg k.ram s.ram (fun a => Config.freeByte (i + 32 + a)),
    ws := resetTo k.ws s.ws (Config.freeByte (i + 9)),
    statuss := resetTo k.statuss s.statuss (Flags.ofByte (Config.freeByte (i + 10))),
    bsrs := resetTo k.bsrs s.bsrs ((Config.freeByte (i + 11)).extractLsb' 0 4),
    hold := resetTo k.hold s.hold #v[Config.freeByte (i + 12), Config.freeByte (i + 13), Config.freeByte (i + 14),
      Config.freeByte (i + 15), Config.freeByte (i + 16), Config.freeByte (i + 17), Config.freeByte (i + 18),
      Config.freeByte (i + 19)],
    mode := .running,
    pc := alignPc s.cfg.resetVector,
    freeIx := i + 4128 }

/-! ### Interrupts -/

/-- The level of an interrupt request (60_exceptions.md R265). -/
inductive Level where
  | high
  | low
deriving DecidableEq, Repr

/-- Going to the handler of a level (R268): High clears GIEH and goes to INT_VEC_HIGH, Low clears GIEL and goes to
INT_VEC_LOW. -/
def State.vectorTo (s : State) : Level → State
  | .high => (s.setGie false s.giel).setPc s.cfg.intVecHigh
  | .low => (s.setGie s.gieh false).setPc s.cfg.intVecLow

/-- Taking an interrupt (R268): the one way a handler is entered. PC is pushed; W, STATUS and BSR are saved; the core runs
at the handler of the level. -/
def State.interruptEntry (s : State) (level : Level) : Res State :=
  andThen (s.push s.pc) fun s1 => .next ((s1.saveFast.setMode .running).vectorTo level)

/-- Which enable bit a return from interrupt sets (43_control.md R202, parameter RETFIE_POLICY). -/
def State.reenable (s : State) : State :=
  match s.cfg.retfiePolicy with
  | .restoreCleared => if s.gieh then s.setGie s.gieh true else s.setGie true s.giel
  | .setGieh => s.setGie true s.giel
  | .setGiel => s.setGie s.gieh true

/-- Return through the stack (R202, R204): PC from the top entry; with `fast`, W, STATUS and BSR from the fast register
stack. PCLATH and PCLATU are unchanged. -/
def State.returnTo (s : State) (fast : Bool) : Res State :=
  andThen s.pop fun (t, s1) => .next (if fast then (s1.setPc t).restoreFast else s1.setPc t)

/-- Return from interrupt (R202, 60_exceptions.md R270). -/
def State.interruptReturn (s : State) (fast : Bool) : Res State :=
  andThen s.pop fun (t, s1) =>
    let s2 := (s1.setPc t).reenable
    .next (if fast then s2.restoreFast else s2)

end Sys2Proof.Machine
end

