-- ==== Sys2Proof/Syntax.lean ====
section
/-! DEFINITION. The instruction set: one constructor per row of spec/opcode_table.json, with the fields of
30_encoding.md R91 and R92. The 75 instructions have 76 rows, `nop` having two encodings (R100, R101). -/

namespace Sys2Proof

/-- The `d` bit (R92, R121): where a result goes. -/
inductive Dst where
  | w   -- d = 0: the working register
  | f   -- d = 1: the register the instruction names
deriving DecidableEq, Repr

/-- The `a` bit (R61, R92): how the 8-bit field `f` becomes a data address. -/
inductive Acc where
  | access   -- a = 0: Access Bank, BSR ignored
  | banked   -- a = 1: bank from BSR
deriving DecidableEq, Repr

/-- The instructions, in the order of the opcode table. Operands: `f` the low byte of a data address, `d` the
destination, `a` the bank selection, `b` a bit number, `k` a literal, `n` a signed word offset, `s` the
fast save or restore of W, STATUS and BSR (`true` = 1). -/
inductive Instr where
  -- byte-oriented (41_byte_oriented.md)
  | addwf (f : Byte) (d : Dst) (a : Acc)
  | addwfc (f : Byte) (d : Dst) (a : Acc)
  | andwf (f : Byte) (d : Dst) (a : Acc)
  | clrf (f : Byte) (a : Acc)
  | comf (f : Byte) (d : Dst) (a : Acc)
  | cpfseq (f : Byte) (a : Acc)
  | cpfsgt (f : Byte) (a : Acc)
  | cpfslt (f : Byte) (a : Acc)
  | decf (f : Byte) (d : Dst) (a : Acc)
  | decfsz (f : Byte) (d : Dst) (a : Acc)
  | dcfsnz (f : Byte) (d : Dst) (a : Acc)
  | incf (f : Byte) (d : Dst) (a : Acc)
  | incfsz (f : Byte) (d : Dst) (a : Acc)
  | infsnz (f : Byte) (d : Dst) (a : Acc)
  | iorwf (f : Byte) (d : Dst) (a : Acc)
  | movf (f : Byte) (d : Dst) (a : Acc)
  | movff (fs : DAddr) (fd : DAddr)
  | movwf (f : Byte) (a : Acc)
  | mulwf (f : Byte) (a : Acc)
  | negf (f : Byte) (a : Acc)
  | rlcf (f : Byte) (d : Dst) (a : Acc)
  | rlncf (f : Byte) (d : Dst) (a : Acc)
  | rrcf (f : Byte) (d : Dst) (a : Acc)
  | rrncf (f : Byte) (d : Dst) (a : Acc)
  | setf (f : Byte) (a : Acc)
  | subfwb (f : Byte) (d : Dst) (a : Acc)
  | subwf (f : Byte) (d : Dst) (a : Acc)
  | subwfb (f : Byte) (d : Dst) (a : Acc)
  | swapf (f : Byte) (d : Dst) (a : Acc)
  | tstfsz (f : Byte) (a : Acc)
  | xorwf (f : Byte) (d : Dst) (a : Acc)
  -- bit-oriented (42_bit_oriented.md)
  | bcf (f : Byte) (b : BitVec 3) (a : Acc)
  | bsf (f : Byte) (b : BitVec 3) (a : Acc)
  | btfsc (f : Byte) (b : BitVec 3) (a : Acc)
  | btfss (f : Byte) (b : BitVec 3) (a : Acc)
  | btg (f : Byte) (b : BitVec 3) (a : Acc)
  -- control (43_control.md)
  | bc (n : Byte)
  | bn (n : Byte)
  | bnc (n : Byte)
  | bnn (n : Byte)
  | bnov (n : Byte)
  | bnz (n : Byte)
  | bov (n : Byte)
  | bra (n : BitVec 11)
  | bz (n : Byte)
  | call (k : BitVec 20) (s : Bool)
  | clrwdt
  | daw
  | goto (k : BitVec 20)
  | nop
  | nopx (x : BitVec 12)   -- the second encoding of `nop`, 1111 xxxx xxxx xxxx (R94, R196)
  | pop
  | push
  | rcall (n : BitVec 11)
  | reset
  | retfie (s : Bool)
  | retlw (k : Byte)
  | ret (s : Bool)         -- the row `return` (R204)
  | sleep
  -- literal (44_literal.md)
  | addlw (k : Byte)
  | andlw (k : Byte)
  | iorlw (k : Byte)
  | lfsr (f : BitVec 2) (k : BitVec 12)
  | movlb (k : Bank)
  | movlw (k : Byte)
  | mullw (k : Byte)
  | sublw (k : Byte)
  | xorlw (k : Byte)
  -- table (45_table.md)
  | tblrd           -- *   pointer unchanged
  | tblrdPostInc    -- *+
  | tblrdPostDec    -- *-
  | tblrdPreInc     -- +*
  | tblwt           -- *
  | tblwtPostInc    -- *+
  | tblwtPostDec    -- *-
  | tblwtPreInc     -- +*
deriving DecidableEq, Repr

end Sys2Proof
end

