-- ==== Sys2Proof/Machine/Operands.lean ====
section
/-! DEFINITION. Operand forms: the effective address (20_memory.md R62), `Dest` (41_byte_oriented.md R121), `Skip` (R124),
branch and jump targets (43_control.md R180, R195), the table-pointer step (45_table.md R240), and the shapes of the
instruction families over them. -/

namespace Sys2Proof.Machine

/-- `EA(f, a)` (20_memory.md R62). -/
def State.ea (s : State) (f : Byte) : Acc → DAddr
  | .banked => s.bsr ++ f
  | .access => if f.toNat < s.cfg.accessSplit.toNat then 0#4 ++ f else s.cfg.accessSfrBank ++ f

/-- `Dest(d, f, a, v)` (41_byte_oriented.md R121), the address of `f` already computed. -/
def State.dest (s : State) (d : Dst) (addr : DAddr) (v : Byte) : Res State :=
  match d with
  | .w => .next (s.setW v)
  | .f => s.memWrite addr v

/-- What a byte operation computes from the byte it reads: the result, what it does to the flags, and whether it skips. -/
structure ByteResult where
  value : Byte
  flags : Flags → Flags := id
  skip : Bool := false

/-- How far an instruction of one word goes: 2 bytes, or 4 when it skips (R124, 10_state.md R25). -/
def stride (skip : Bool) : PAddr := if skip then 4 else 2

/-- A byte operation with a destination bit: read `f`, compute, advance, `Dest`, flags (R121: the flags after `Dest`, so
that they prevail when the destination is STATUS, 10_state.md R30). The advance stands before `Dest`, so that a write
of PCL replaces it (R27, vectors D9 and D11 of 95_test_vectors.md): DEDUCED (unsafe) for the skips, log 10. -/
def State.byteOp (s : State) (f : Byte) (d : Dst) (a : Acc) (g : Byte → ByteResult) : Res State :=
  andThen (s.memRead (s.ea f a)) fun (v, s1) =>
    let r := g v
    andThen ((s1.advance (stride r.skip)).dest d (s.ea f a) r.value) fun s2 => .next (s2.setFlags (r.flags s2.flags))

/-- An operation that writes `f` without reading it (decision D31): advance, write, flags. -/
def State.writeOp (s : State) (f : Byte) (a : Acc) (v : Byte) (fl : Flags → Flags) : Res State :=
  andThen ((s.advance 2).memWrite (s.ea f a) v) fun s1 => .next (s1.setFlags (fl s1.flags))

/-- An operation that only reads `f` and may skip. -/
def State.testOp (s : State) (f : Byte) (a : Acc) (cond : Byte → Bool) : Res State :=
  andThen (s.memRead (s.ea f a)) fun (v, s1) => .next (s1.advance (stride (cond v)))

/-- A bit operation that writes: read `f`, advance, write it back with bit `b` as `g` makes it (42_bit_oriented.md R170, R66). -/
def State.bitOp (s : State) (f : Byte) (b : BitVec 3) (a : Acc) (g : Byte → Byte) : Res State :=
  andThen (s.readPart (.bit b) (s.ea f a)) fun (v, s1) => (s1.advance 2).writePart (.bit b) (s.ea f a) (g v)

/-- A bit operation that skips if bit `b` has a value. -/
def State.bitTest (s : State) (f : Byte) (b : BitVec 3) (a : Acc) (want : Bool) : Res State :=
  andThen (s.readPart (.bit b) (s.ea f a)) fun (v, s1) => .next (s1.advance (stride (v.getLsbD b.toNat == want)))

/-- A result in W with its flags (44_literal.md R220). -/
def State.literalOp (s : State) (r : Byte) (fl : Flags) : Res State := .next (((s.advance 2).setW r).setFlags fl)

/-- The target of a relative branch, `PC + 2 + 2*sext(n)` mod 2^21 (43_control.md R180). -/
def State.relTarget {w : Nat} (s : State) (n : BitVec w) : PAddr := s.pc + 2 + 2 * n.signExtend 21

/-- A conditional branch (R180). -/
def State.branchIf (s : State) (cond : Bool) (n : Byte) : Res State :=
  .next (if cond then s.setPcRaw (s.relTarget n) else s.advance 2)

/-- The byte address of a 20-bit word address, `k : 0` (30_encoding.md R92). -/
def absTarget (k : BitVec 20) : PAddr := k ++ 0#1

/-- How a table instruction moves TBLPTR (45_table.md R240). -/
inductive TblMode where
  | same       -- *
  | postInc    -- *+
  | postDec    -- *-
  | preInc     -- +*
deriving DecidableEq, Repr

/-- The address a table instruction accesses (R240). -/
def TblMode.accessed (m : TblMode) (p : PAddr) : PAddr :=
  match m with
  | .preInc => p + 1
  | .same | .postInc | .postDec => p

/-- TBLPTR after a table instruction (R240), mod 2^21. -/
def TblMode.after (m : TblMode) (p : PAddr) : PAddr :=
  match m with
  | .same => p
  | .postInc | .preInc => p + 1
  | .postDec => p - 1

/-- A table read (R241 to R244). -/
def State.tableRead (s : State) (m : TblMode) : Res State :=
  let p := m.accessed s.tblptr
  if s.progHas p then .next (((s.advance 2).setTablat (s.progByte p)).setTblptr (m.after s.tblptr))
  else .fault .tableReadOutsideProgram

/-- The holding register an address selects: its three low bits (R245). -/
def holdIx (p : PAddr) : Fin 8 := (p.extractLsb' 0 3).toFin

/-- A table write (R245 to R249). -/
def State.tableWrite (s : State) (m : TblMode) : Res State :=
  let i := holdIx (m.accessed s.tblptr)
  .next (((s.advance 2).setHold (s.hold.set i.val s.tablat i.isLt)).setTblptr (m.after s.tblptr))

end Sys2Proof.Machine
end

