-- ==== Sys2Proof/Machine/BitOriented.lean ====
section
/-! DEFINITION. The meanings of the five bit-oriented instructions (42_bit_oriented.md), one definition each. The three
that write read the whole byte and write the whole byte back (20_memory.md R66). -/

namespace Sys2Proof.Machine

/-- `bcf f, b, a` (R171): clear bit b of f. -/
def execBcf (f : Byte) (b : BitVec 3) (a : Acc) (s : State) : Res State :=
  s.bitOp f b a fun v => v &&& ~~~(bitMask b)

/-- `bsf f, b, a` (R172): set bit b of f. -/
def execBsf (f : Byte) (b : BitVec 3) (a : Acc) (s : State) : Res State :=
  s.bitOp f b a fun v => v ||| bitMask b

/-- `btfsc f, b, a` (R173): skip if bit b of f is clear. -/
def execBtfsc (f : Byte) (b : BitVec 3) (a : Acc) (s : State) : Res State :=
  s.bitTest f b a false

/-- `btfss f, b, a` (R174): skip if bit b of f is set. -/
def execBtfss (f : Byte) (b : BitVec 3) (a : Acc) (s : State) : Res State :=
  s.bitTest f b a true

/-- `btg f, b, a` (R175): toggle bit b of f. -/
def execBtg (f : Byte) (b : BitVec 3) (a : Acc) (s : State) : Res State :=
  s.bitOp f b a fun v => v ^^^ bitMask b

end Sys2Proof.Machine
end

