-- ==== Sys2Proof/Machine/ByteOriented.lean ====
section
/-! DEFINITION. The meanings of the 31 byte-oriented instructions (41_byte_oriented.md), one definition each. -/

namespace Sys2Proof.Machine

/-- A result with all five flags. -/
def ByteResult.flagged (r : Byte × Flags) : ByteResult := { value := r.1, flags := fun _ => r.2 }

/-- A result that writes Z and N. -/
def ByteResult.zn (r : Byte) : ByteResult := { value := r, flags := fun fl => fl.withZN r }

/-- A result that writes C, Z and N. -/
def ByteResult.czn (r : Byte × Bool) : ByteResult := { value := r.1, flags := fun fl => { fl.withZN r.1 with c := r.2 } }

/-- A result that writes no flag and may skip. -/
def ByteResult.counted (r : Byte) (skip : Bool) : ByteResult := { value := r, skip := skip }

/-- The destinations `movff` may not have (R141): PCL, TOSU, TOSH, TOSL, by the run's SFR_MAP (decision D29). -/
def movffForbids : Place → Bool
  | .sfr .pcl | .sfr .tosu | .sfr .tosh | .sfr .tosl => true
  | .sfr _ | .peripheral | .ram | .unimplemented => false

/-- `addwf f, d, a` (R125): W + f; C, DC, Z, OV, N. -/
def execAddwf (f : Byte) (d : Dst) (a : Acc) (s : State) : Res State :=
  s.byteOp f d a fun v => ByteResult.flagged (add8 s.w v false)

/-- `addwfc f, d, a` (R126): W + f + C; C, DC, Z, OV, N. -/
def execAddwfc (f : Byte) (d : Dst) (a : Acc) (s : State) : Res State :=
  s.byteOp f d a fun v => ByteResult.flagged (add8 s.w v s.flags.c)

/-- `andwf f, d, a` (R127): W & f; Z, N. -/
def execAndwf (f : Byte) (d : Dst) (a : Acc) (s : State) : Res State :=
  s.byteOp f d a fun v => ByteResult.zn (s.w &&& v)

/-- `clrf f, a` (R128): f <- 0, Z <- 1; f is not read (decision D31). -/
def execClrf (f : Byte) (a : Acc) (s : State) : Res State := s.writeOp f a 0x00 fun fl => { fl with z := true }

/-- `comf f, d, a` (R129): ~f; Z, N. -/
def execComf (f : Byte) (d : Dst) (a : Acc) (s : State) : Res State :=
  s.byteOp f d a fun v => ByteResult.zn (~~~v)

/-- `cpfseq f, a` (R130): skip if f = W. -/
def execCpfseq (f : Byte) (a : Acc) (s : State) : Res State := s.testOp f a fun v => v == s.w

/-- `cpfsgt f, a` (R131): skip if f > W, unsigned (decision D15). -/
def execCpfsgt (f : Byte) (a : Acc) (s : State) : Res State := s.testOp f a fun v => decide (s.w.toNat < v.toNat)

/-- `cpfslt f, a` (R132): skip if f < W, unsigned (decision D15). -/
def execCpfslt (f : Byte) (a : Acc) (s : State) : Res State := s.testOp f a fun v => decide (v.toNat < s.w.toNat)

/-- `decf f, d, a` (R133): f - 1; C, DC, Z, OV, N. -/
def execDecf (f : Byte) (d : Dst) (a : Acc) (s : State) : Res State :=
  s.byteOp f d a fun v => ByteResult.flagged (sub8 v 0x01 false)

/-- `decfsz f, d, a` (R134): f - 1, skip if the result is zero; no flag. -/
def execDecfsz (f : Byte) (d : Dst) (a : Acc) (s : State) : Res State :=
  s.byteOp f d a fun v => ByteResult.counted (v - 1) (v - 1 == 0)

/-- `dcfsnz f, d, a` (R135): f - 1, skip if the result is not zero; no flag. -/
def execDcfsnz (f : Byte) (d : Dst) (a : Acc) (s : State) : Res State :=
  s.byteOp f d a fun v => ByteResult.counted (v - 1) (v - 1 != 0)

/-- `incf f, d, a` (R136): f + 1; C, DC, Z, OV, N. -/
def execIncf (f : Byte) (d : Dst) (a : Acc) (s : State) : Res State :=
  s.byteOp f d a fun v => ByteResult.flagged (add8 v 0x01 false)

/-- `incfsz f, d, a` (R137): f + 1, skip if the result is zero; no flag. -/
def execIncfsz (f : Byte) (d : Dst) (a : Acc) (s : State) : Res State :=
  s.byteOp f d a fun v => ByteResult.counted (v + 1) (v + 1 == 0)

/-- `infsnz f, d, a` (R138): f + 1, skip if the result is not zero; no flag. -/
def execInfsnz (f : Byte) (d : Dst) (a : Acc) (s : State) : Res State :=
  s.byteOp f d a fun v => ByteResult.counted (v + 1) (v + 1 != 0)

/-- `iorwf f, d, a` (R139): W | f; Z, N. -/
def execIorwf (f : Byte) (d : Dst) (a : Acc) (s : State) : Res State :=
  s.byteOp f d a fun v => ByteResult.zn (s.w ||| v)

/-- `movf f, d, a` (R140): f to the destination; Z, N. -/
def execMovf (f : Byte) (d : Dst) (a : Acc) (s : State) : Res State :=
  s.byteOp f d a fun v => ByteResult.zn v

/-- `movff fs, fd` (R141): the byte at `fs` to `fd`; the destination check comes first (60_exceptions.md R263). A
store to INTCON is refused like every write of that whole byte (70_reset_and_hazards.md R303; log 7, log 17). -/
def execMovff (fs fd : DAddr) (s : State) : Res State :=
  if movffForbids (s.place fd) then .fault .movffForbiddenDest
  else andThen (s.memRead fs) fun (v, s1) => (s1.advance 4).memWrite fd v

/-- `movwf f, a` (R142): f <- W; f is not read. -/
def execMovwf (f : Byte) (a : Acc) (s : State) : Res State := s.writeOp f a s.w id

/-- `mulwf f, a` (R143): PRODH:PRODL <- W * f, unsigned; no flag. -/
def execMulwf (f : Byte) (a : Acc) (s : State) : Res State :=
  andThen (s.memRead (s.ea f a)) fun (v, s1) =>
    let p := mul8 s.w v
    .next ((s1.advance 2).setProd (p.extractLsb' 8 8) (p.extractLsb' 0 8))

/-- `negf f, a` (R144): f <- ~f + 1; C, DC, Z, OV, N. -/
def execNegf (f : Byte) (a : Acc) (s : State) : Res State :=
  s.byteOp f .f a fun v => ByteResult.flagged (add8 (~~~v) 0x00 true)

/-- `rlcf f, d, a` (R145): rotate left through carry; C, Z, N. -/
def execRlcf (f : Byte) (d : Dst) (a : Acc) (s : State) : Res State :=
  s.byteOp f d a fun v => ByteResult.czn (rotLeftCarry v s.flags.c)

/-- `rlncf f, d, a` (R146): rotate left, not through carry; Z, N. -/
def execRlncf (f : Byte) (d : Dst) (a : Acc) (s : State) : Res State :=
  s.byteOp f d a fun v => ByteResult.zn (rotLeft v)

/-- `rrcf f, d, a` (R147): rotate right through carry; C, Z, N. -/
def execRrcf (f : Byte) (d : Dst) (a : Acc) (s : State) : Res State :=
  s.byteOp f d a fun v => ByteResult.czn (rotRightCarry v s.flags.c)

/-- `rrncf f, d, a` (R148): rotate right, not through carry; Z, N. -/
def execRrncf (f : Byte) (d : Dst) (a : Acc) (s : State) : Res State :=
  s.byteOp f d a fun v => ByteResult.zn (rotRight v)

/-- `setf f, a` (R149): f <- 0xFF; f is not read (decision D31), no flag. -/
def execSetf (f : Byte) (a : Acc) (s : State) : Res State := s.writeOp f a 0xFF id

/-- `subfwb f, d, a` (R150): W - f - (1 - C); C, DC, Z, OV, N. -/
def execSubfwb (f : Byte) (d : Dst) (a : Acc) (s : State) : Res State :=
  s.byteOp f d a fun v => ByteResult.flagged (sub8 s.w v (!s.flags.c))

/-- `subwf f, d, a` (R151): f - W; C, DC, Z, OV, N. -/
def execSubwf (f : Byte) (d : Dst) (a : Acc) (s : State) : Res State :=
  s.byteOp f d a fun v => ByteResult.flagged (sub8 v s.w false)

/-- `subwfb f, d, a` (R152): f - W - (1 - C); C, DC, Z, OV, N. -/
def execSubwfb (f : Byte) (d : Dst) (a : Acc) (s : State) : Res State :=
  s.byteOp f d a fun v => ByteResult.flagged (sub8 v s.w (!s.flags.c))

/-- `swapf f, d, a` (R153): exchange the nibbles; no flag. -/
def execSwapf (f : Byte) (d : Dst) (a : Acc) (s : State) : Res State :=
  s.byteOp f d a fun v => { value := swapNibbles v }

/-- `tstfsz f, a` (R154): skip if f = 0. -/
def execTstfsz (f : Byte) (a : Acc) (s : State) : Res State := s.testOp f a fun v => v == 0

/-- `xorwf f, d, a` (R155): W ^ f; Z, N. -/
def execXorwf (f : Byte) (d : Dst) (a : Acc) (s : State) : Res State :=
  s.byteOp f d a fun v => ByteResult.zn (s.w ^^^ v)

end Sys2Proof.Machine
end

