-- ==== Sys2Proof/Machine/Control.lean ====
section
/-! DEFINITION. The meanings of the 22 control instructions (43_control.md), one definition each; `nop` has two
encodings and so two constructors. -/

namespace Sys2Proof.Machine

/-- `bc n` (R181): branch if C = 1. -/
def execBc (n : Byte) (s : State) : Res State := s.branchIf s.flags.c n

/-- `bn n` (R182): branch if N = 1. -/
def execBn (n : Byte) (s : State) : Res State := s.branchIf s.flags.n n

/-- `bnc n` (R183): branch if C = 0. -/
def execBnc (n : Byte) (s : State) : Res State := s.branchIf (!s.flags.c) n

/-- `bnn n` (R184): branch if N = 0. -/
def execBnn (n : Byte) (s : State) : Res State := s.branchIf (!s.flags.n) n

/-- `bnov n` (R185): branch if OV = 0. -/
def execBnov (n : Byte) (s : State) : Res State := s.branchIf (!s.flags.ov) n

/-- `bnz n` (R186): branch if Z = 0. -/
def execBnz (n : Byte) (s : State) : Res State := s.branchIf (!s.flags.z) n

/-- `bov n` (R187): branch if OV = 1. -/
def execBov (n : Byte) (s : State) : Res State := s.branchIf s.flags.ov n

/-- `bra n` (R188): branch always. -/
def execBra (n : BitVec 11) (s : State) : Res State := .next (s.setPcRaw (s.relTarget n))

/-- `bz n` (R189): branch if Z = 1. -/
def execBz (n : Byte) (s : State) : Res State := s.branchIf s.flags.z n

/-- `call k, s` (R190): push PC + 4, save W, STATUS and BSR if `fast`, jump to `k : 0`. -/
def execCall (k : BitVec 20) (fast : Bool) (s : State) : Res State :=
  andThen (s.push (s.pc + 4)) fun s1 => .next ((if fast then s1.saveFast else s1).setPcRaw (absTarget k))

/-- `clrwdt` (R191): WDT and postscaler to 0, TO and PD to 1. -/
def execClrwdt (s : State) : Res State := .next (((s.advance 2).setWdt 0 0).setToPd true true)

/-- `daw` (R192, R193): decimal adjust W; writes C. -/
def execDaw (s : State) : Res State :=
  let r := decimalAdjust s.w s.flags.c s.flags.dc
  .next (((s.advance 2).setW r.1).setFlags { s.flags with c := r.2 })

/-- `goto k` (R195): jump to `k : 0`. -/
def execGoto (k : BitVec 20) (s : State) : Res State := .next (s.setPcRaw (absTarget k))

/-- `nop` (R196). -/
def execNop (s : State) : Res State := .next (s.advance 2)

/-- `nop`, the second encoding (R94, R196): its twelve bits are ignored. -/
def execNopx (_x : BitVec 12) (s : State) : Res State := .next (s.advance 2)

/-- `pop` (R197): discard TOS. -/
def execPop (s : State) : Res State := andThen s.pop fun (_, s1) => .next (s1.advance 2)

/-- `push` (R198): push PC + 2. -/
def execPush (s : State) : Res State := andThen (s.push (s.pc + 2)) fun s1 => .next (s1.advance 2)

/-- `rcall n` (R199): push PC + 2, branch. -/
def execRcall (n : BitVec 11) (s : State) : Res State :=
  andThen (s.push (s.pc + 2)) fun s1 => .next (s1.setPcRaw (s.relTarget n))

/-- `reset` (R200): `Reset(Software)`; PC does not advance (70_reset_and_hazards.md R292). -/
def execReset (s : State) : Res State := .next (s.resetBy .software)

/-- `retfie s` (R202): return from interrupt. -/
def execRetfie (fast : Bool) (s : State) : Res State := s.interruptReturn fast

/-- `retlw k` (R203): W <- k, return. -/
def execRetlw (k : Byte) (s : State) : Res State := (s.setW k).returnTo false

/-- `return s` (R204). -/
def execRet (fast : Bool) (s : State) : Res State := s.returnTo fast

/-- `sleep` (R205): WDT and postscaler to 0, TO to 1, PD to 0, Mode to Sleeping, PC to the next instruction. -/
def execSleep (s : State) : Res State :=
  .next ((((s.advance 2).setWdt 0 0).setToPd true false).setMode .sleeping)

end Sys2Proof.Machine
end

