-- ==== Sys2Proof/Machine/Literal.lean ====
section
/-! DEFINITION. The meanings of the nine literal instructions (44_literal.md), one definition each. -/

namespace Sys2Proof.Machine

/-- `addlw k` (R221): W + k; C, DC, Z, OV, N. -/
def execAddlw (k : Byte) (s : State) : Res State :=
  let r := add8 s.w k false
  s.literalOp r.1 r.2

/-- `andlw k` (R222): W & k; Z, N. -/
def execAndlw (k : Byte) (s : State) : Res State := s.literalOp (s.w &&& k) (s.flags.withZN (s.w &&& k))

/-- `iorlw k` (R223): W | k; Z, N. -/
def execIorlw (k : Byte) (s : State) : Res State := s.literalOp (s.w ||| k) (s.flags.withZN (s.w ||| k))

/-- `lfsr f, k` (R224): FSRf <- k; there is no FSR3 (decision D12). -/
def execLfsr (f : BitVec 2) (k : BitVec 12) (s : State) : Res State :=
  if f = 0 then .next ((s.advance 4).setFsr0 k)
  else if f = 1 then .next ((s.advance 4).setFsr1 k)
  else if f = 2 then .next ((s.advance 4).setFsr2 k)
  else .fault .reservedEncoding

/-- `movlb k` (R225): BSR <- k. -/
def execMovlb (k : Bank) (s : State) : Res State := .next ((s.advance 2).setBsr k)

/-- `movlw k` (R226): W <- k; no flag. -/
def execMovlw (k : Byte) (s : State) : Res State := s.literalOp k s.flags

/-- `mullw k` (R227): PRODH:PRODL <- W * k, unsigned; no flag. -/
def execMullw (k : Byte) (s : State) : Res State :=
  let p := mul8 s.w k
  .next ((s.advance 2).setProd (p.extractLsb' 8 8) (p.extractLsb' 0 8))

/-- `sublw k` (R229): k - W; C, DC, Z, OV, N. -/
def execSublw (k : Byte) (s : State) : Res State :=
  let r := sub8 k s.w false
  s.literalOp r.1 r.2

/-- `xorlw k` (R230): W ^ k; Z, N. -/
def execXorlw (k : Byte) (s : State) : Res State := s.literalOp (s.w ^^^ k) (s.flags.withZN (s.w ^^^ k))

end Sys2Proof.Machine
end

