-- ==== Sys2Proof/Machine/Table.lean ====
section
/-! DEFINITION. The meanings of the eight table instructions (45_table.md), one definition each. -/

namespace Sys2Proof.Machine

/-- `tblrd *` (R241). -/
def execTblrd (s : State) : Res State := s.tableRead .same

/-- `tblrd *+` (R242). -/
def execTblrdPostInc (s : State) : Res State := s.tableRead .postInc

/-- `tblrd *-` (R243). -/
def execTblrdPostDec (s : State) : Res State := s.tableRead .postDec

/-- `tblrd +*` (R244). -/
def execTblrdPreInc (s : State) : Res State := s.tableRead .preInc

/-- `tblwt *` (R246, R245; log 21). -/
def execTblwt (s : State) : Res State := s.tableWrite .same

/-- `tblwt *+` (R247, R245; log 21). -/
def execTblwtPostInc (s : State) : Res State := s.tableWrite .postInc

/-- `tblwt *-` (R248, R245; log 21). -/
def execTblwtPostDec (s : State) : Res State := s.tableWrite .postDec

/-- `tblwt +*` (R249, R245; log 21). -/
def execTblwtPreInc (s : State) : Res State := s.tableWrite .preInc

end Sys2Proof.Machine
end

