-- ==== Sys2Proof/Machine/Dispatch.lean ====
section
/-! DEFINITION. One arm per constructor of Instr, in the order of the opcode table. -/

namespace Sys2Proof.Machine

def exec (i : Instr) (s : State) : Host.Outcome State Fault Refusal :=
  match i with
  -- byte-oriented
  | .addwf f d a => Sys2Proof.Machine.execAddwf f d a s
  | .addwfc f d a => Sys2Proof.Machine.execAddwfc f d a s
  | .andwf f d a => Sys2Proof.Machine.execAndwf f d a s
  | .clrf f a => Sys2Proof.Machine.execClrf f a s
  | .comf f d a => Sys2Proof.Machine.execComf f d a s
  | .cpfseq f a => Sys2Proof.Machine.execCpfseq f a s
  | .cpfsgt f a => Sys2Proof.Machine.execCpfsgt f a s
  | .cpfslt f a => Sys2Proof.Machine.execCpfslt f a s
  | .decf f d a => Sys2Proof.Machine.execDecf f d a s
  | .decfsz f d a => Sys2Proof.Machine.execDecfsz f d a s
  | .dcfsnz f d a => Sys2Proof.Machine.execDcfsnz f d a s
  | .incf f d a => Sys2Proof.Machine.execIncf f d a s
  | .incfsz f d a => Sys2Proof.Machine.execIncfsz f d a s
  | .infsnz f d a => Sys2Proof.Machine.execInfsnz f d a s
  | .iorwf f d a => Sys2Proof.Machine.execIorwf f d a s
  | .movf f d a => Sys2Proof.Machine.execMovf f d a s
  | .movff fs fd => Sys2Proof.Machine.execMovff fs fd s
  | .movwf f a => Sys2Proof.Machine.execMovwf f a s
  | .mulwf f a => Sys2Proof.Machine.execMulwf f a s
  | .negf f a => Sys2Proof.Machine.execNegf f a s
  | .rlcf f d a => Sys2Proof.Machine.execRlcf f d a s
  | .rlncf f d a => Sys2Proof.Machine.execRlncf f d a s
  | .rrcf f d a => Sys2Proof.Machine.execRrcf f d a s
  | .rrncf f d a => Sys2Proof.Machine.execRrncf f d a s
  | .setf f a => Sys2Proof.Machine.execSetf f a s
  | .subfwb f d a => Sys2Proof.Machine.execSubfwb f d a s
  | .subwf f d a => Sys2Proof.Machine.execSubwf f d a s
  | .subwfb f d a => Sys2Proof.Machine.execSubwfb f d a s
  | .swapf f d a => Sys2Proof.Machine.execSwapf f d a s
  | .tstfsz f a => Sys2Proof.Machine.execTstfsz f a s
  | .xorwf f d a => Sys2Proof.Machine.execXorwf f d a s
  -- bit-oriented
  | .bcf f b a => Sys2Proof.Machine.execBcf f b a s
  | .bsf f b a => Sys2Proof.Machine.execBsf f b a s
  | .btfsc f b a => Sys2Proof.Machine.execBtfsc f b a s
  | .btfss f b a => Sys2Proof.Machine.execBtfss f b a s
  | .btg f b a => Sys2Proof.Machine.execBtg f b a s
  -- control
  | .bc n => Sys2Proof.Machine.execBc n s
  | .bn n => Sys2Proof.Machine.execBn n s
  | .bnc n => Sys2Proof.Machine.execBnc n s
  | .bnn n => Sys2Proof.Machine.execBnn n s
  | .bnov n => Sys2Proof.Machine.execBnov n s
  | .bnz n => Sys2Proof.Machine.execBnz n s
  | .bov n => Sys2Proof.Machine.execBov n s
  | .bra n => Sys2Proof.Machine.execBra n s
  | .bz n => Sys2Proof.Machine.execBz n s
  | .call k fast => Sys2Proof.Machine.execCall k fast s
  | .clrwdt => Sys2Proof.Machine.execClrwdt s
  | .daw => Sys2Proof.Machine.execDaw s
  | .goto k => Sys2Proof.Machine.execGoto k s
  | .nop => Sys2Proof.Machine.execNop s
  | .nopx x => Sys2Proof.Machine.execNopx x s
  | .pop => Sys2Proof.Machine.execPop s
  | .push => Sys2Proof.Machine.execPush s
  | .rcall n => Sys2Proof.Machine.execRcall n s
  | .reset => Sys2Proof.Machine.execReset s
  | .retfie fast => Sys2Proof.Machine.execRetfie fast s
  | .retlw k => Sys2Proof.Machine.execRetlw k s
  | .ret fast => Sys2Proof.Machine.execRet fast s
  | .sleep => Sys2Proof.Machine.execSleep s
  -- literal
  | .addlw k => Sys2Proof.Machine.execAddlw k s
  | .andlw k => Sys2Proof.Machine.execAndlw k s
  | .iorlw k => Sys2Proof.Machine.execIorlw k s
  | .lfsr f k => Sys2Proof.Machine.execLfsr f k s
  | .movlb k => Sys2Proof.Machine.execMovlb k s
  | .movlw k => Sys2Proof.Machine.execMovlw k s
  | .mullw k => Sys2Proof.Machine.execMullw k s
  | .sublw k => Sys2Proof.Machine.execSublw k s
  | .xorlw k => Sys2Proof.Machine.execXorlw k s
  -- table
  | .tblrd => Sys2Proof.Machine.execTblrd s
  | .tblrdPostInc => Sys2Proof.Machine.execTblrdPostInc s
  | .tblrdPostDec => Sys2Proof.Machine.execTblrdPostDec s
  | .tblrdPreInc => Sys2Proof.Machine.execTblrdPreInc s
  | .tblwt => Sys2Proof.Machine.execTblwt s
  | .tblwtPostInc => Sys2Proof.Machine.execTblwtPostInc s
  | .tblwtPostDec => Sys2Proof.Machine.execTblwtPostDec s
  | .tblwtPreInc => Sys2Proof.Machine.execTblwtPreInc s

end Sys2Proof.Machine
end

