-- ==== Sys2Proof/Machine/Events.lean ====
section
/-! DEFINITION. The asynchronous events, considered only between instructions (60_exceptions.md R264 to R267, R272, R275,
R276). -/

namespace Sys2Proof.Machine

/-- An environment that asserts nothing and lets no watchdog time pass. -/
def EnvInput.quiet : EnvInput := ⟨false, false, false, false, 0, 0⟩

/-- What the environment asserts at this boundary: the head of the schedule. -/
def State.boundary (s : State) : EnvInput := s.inputs.headD EnvInput.quiet

/-- The state once the boundary's input is taken off the schedule and the watchdog's time has passed (10_state.md R42;
log 14, log 15). -/
def State.arrive (s : State) : State :=
  (s.setInputs s.inputs.tail).setWdt (s.wdt + s.boundary.wdtTicks) (s.wdtPost + s.boundary.wdtPostTicks)

/-- May the watchdog overflow now (R272)? It must be enabled, and some positive time must have passed since the last
`clrwdt`, `sleep` or reset (log 15). -/
def State.wdtMayOverflow (s : State) : Bool := s.cfg.wdtEnabled && (decide (0 < s.wdt) || decide (0 < s.wdtPost))

/-- A watchdog overflow (R272, decision D25): in sleep it clears TO and wakes the core; otherwise it clears TO and
resets. -/
def State.wdtOverflow (s : State) : State :=
  match s.mode with
  | .sleeping => (s.setToPd false s.pdBit).setMode .running
  | .running => (s.setToPd false s.pdBit).resetBy .wdt

/-- Is a request of this level taken (R265)? High needs GIEH; Low needs GIEH and GIEL. -/
def State.gated (s : State) : Level → Bool
  | .high => s.gieh
  | .low => s.gieh && s.giel

/-- An interrupt request (R265, R276): taken if it passes the gating; otherwise it wakes a sleeping core, which goes on
after the `sleep`; otherwise nothing happens. -/
def State.request (s : State) (level : Level) : Option (Res State) :=
  if s.gated level then some (s.interruptEntry level)
  else match s.mode with
    | .sleeping => some (.next (s.setMode .running))
    | .running => none

/-- The event that acts at this boundary, if one does, in the order of R267: MCLR, watchdog overflow, High, Low. -/
def State.event (s : State) (e : EnvInput) : Option (Res State) :=
  if e.mclr then some (.next (s.resetBy .mclr))
  else if e.wdtOverflow && s.wdtMayOverflow then some (.next s.wdtOverflow)
  else (if e.intHigh then s.request .high else none).or (if e.intLow then s.request .low else none)

end Sys2Proof.Machine
end

