-- ==== Sys2Proof/WellFormed.lean ====
section
/-! DEFINITION. Well-formed instructions. Every field but one is a bit vector whose every value the encoding admits
(30_encoding.md R92); the exception is the FSR number of `lfsr`, which is 0, 1 or 2 (R92, 44_literal.md R224). -/

namespace Sys2Proof

/-- Does every field hold a value that names something? (R92: `lfsr`'s `f` = 3 names no register.) -/
def Instr.wellFormed : Instr → Bool
  | .lfsr f _ => f != 3
  | _ => true

end Sys2Proof
end

