-- ==== Sys2Proof/Decode.lean ====
section
/-! DEFINITION. The decoder, total on any bytes and rejecting by name (30_encoding.md R90 to R100), and the encoder (R91,
R92, R101). An instruction is given as its bytes in program memory from the lowest address: each word low byte first,
the first word first (20_memory.md R68). -/

namespace Sys2Proof

/-- Why bytes are no instruction; `Machine.DecodeError.fault` names the fault of each (60_exceptions.md R261). -/
inductive DecodeError where
  | truncated            -- a word of the instruction is missing
  | unassignedEncoding   -- the first word belongs to no instruction (R99)
  | badSecondWord        -- the word after a first word of two is no second word (R94)
  | reservedEncoding     -- `lfsr` with f = 3 (R92)
deriving DecidableEq, Repr

/-- The first word of a two-word instruction, with the fields it carries (R90, R91). -/
inductive Half where
  | movff (fsHigh : BitVec 4) (fsLow : Byte)
  | call (s : Bool) (kLow : Byte)
  | goto (kLow : Byte)
  | lfsr (f : BitVec 2) (kHigh : BitVec 4)
deriving DecidableEq, Repr

/-- What a first word is. -/
inductive First where
  | whole (i : Instr)
  | half (h : Half)
  | unassigned
deriving DecidableEq, Repr

/-- The `d` bit of a first word's high byte: word bit 9 (R92). -/
def dField (hi : Byte) : Dst := if hi.getLsbD 1 then .f else .w

/-- The `a` bit of a first word's high byte: word bit 8 (R92). -/
def aField (hi : Byte) : Acc := if hi.getLsbD 0 then .banked else .access

/-- The `b` field of a first word's high byte: word bits 11:9 (R92). -/
def bField (hi : Byte) : BitVec 3 := hi.extractLsb' 1 3

/-- Words 0000 0000 xxxx xxxx (R98). -/
def decodeSystem (lo : Byte) : First :=
  match lo.toNat with
  | 0x00 => .whole .nop
  | 0x03 => .whole .sleep
  | 0x04 => .whole .clrwdt
  | 0x05 => .whole .push
  | 0x06 => .whole .pop
  | 0x07 => .whole .daw
  | 0x08 => .whole .tblrd
  | 0x09 => .whole .tblrdPostInc
  | 0x0A => .whole .tblrdPostDec
  | 0x0B => .whole .tblrdPreInc
  | 0x0C => .whole .tblwt
  | 0x0D => .whole .tblwtPostInc
  | 0x0E => .whole .tblwtPostDec
  | 0x0F => .whole .tblwtPreInc
  | 0x10 => .whole (.retfie false)
  | 0x11 => .whole (.retfie true)
  | 0x12 => .whole (.ret false)
  | 0x13 => .whole (.ret true)
  | 0xFF => .whole .reset
  | _ => .unassigned

/-- Words 0000 xxxx xxxx xxxx, by bits 11:8 (R96). -/
def decodeZero (hi lo : Byte) : First :=
  match (hi.extractLsb' 0 4).toNat with
  | 0 => decodeSystem lo
  | 1 => if lo.extractLsb' 4 4 = 0 then .whole (.movlb (lo.extractLsb' 0 4)) else .unassigned
  | 2 | 3 => .whole (.mulwf lo (aField hi))
  | 4 | 5 | 6 | 7 => .whole (.decf lo (dField hi) (aField hi))
  | 8 => .whole (.sublw lo)
  | 9 => .whole (.iorlw lo)
  | 10 => .whole (.xorlw lo)
  | 11 => .whole (.andlw lo)
  | 12 => .whole (.retlw lo)
  | 13 => .whole (.mullw lo)
  | 14 => .whole (.movlw lo)
  | _ => .whole (.addlw lo)

/-- Words 1110 xxxx xxxx xxxx, by bits 11:8 (R97). -/
def decodeBranch (hi lo : Byte) : First :=
  match (hi.extractLsb' 0 4).toNat with
  | 0 => .whole (.bz lo)
  | 1 => .whole (.bnz lo)
  | 2 => .whole (.bc lo)
  | 3 => .whole (.bnc lo)
  | 4 => .whole (.bov lo)
  | 5 => .whole (.bnov lo)
  | 6 => .whole (.bn lo)
  | 7 => .whole (.bnn lo)
  | 8 | 9 | 10 | 11 => .unassigned
  | 12 => .half (.call false lo)
  | 13 => .half (.call true lo)
  | 14 => if lo.extractLsb' 6 2 = 0 then .half (.lfsr (lo.extractLsb' 4 2) (lo.extractLsb' 0 4)) else .unassigned
  | _ => .half (.goto lo)

/-- A first word from its high and low byte, by bits 15:12 (R95). -/
def decodeFirst (hi lo : Byte) : First :=
  let d := dField hi
  let a := aField hi
  let b := bField hi
  let row := (hi.extractLsb' 2 2).toNat
  match (hi.extractLsb' 4 4).toNat with
  | 0 => decodeZero hi lo
  | 1 => .whole (match row with | 0 => .iorwf lo d a | 1 => .andwf lo d a | 2 => .xorwf lo d a | _ => .comf lo d a)
  | 2 => .whole (match row with | 0 => .addwfc lo d a | 1 => .addwf lo d a | 2 => .incf lo d a | _ => .decfsz lo d a)
  | 3 => .whole (match row with | 0 => .rrcf lo d a | 1 => .rlcf lo d a | 2 => .swapf lo d a | _ => .incfsz lo d a)
  | 4 => .whole (match row with | 0 => .rrncf lo d a | 1 => .rlncf lo d a | 2 => .infsnz lo d a | _ => .dcfsnz lo d a)
  | 5 => .whole (match row with | 0 => .movf lo d a | 1 => .subfwb lo d a | 2 => .subwfb lo d a | _ => .subwf lo d a)
  | 6 => .whole (match b.toNat with
      | 0 => .cpfslt lo a | 1 => .cpfseq lo a | 2 => .cpfsgt lo a | 3 => .tstfsz lo a
      | 4 => .setf lo a | 5 => .clrf lo a | 6 => .negf lo a | _ => .movwf lo a)
  | 7 => .whole (.btg lo b a)
  | 8 => .whole (.bsf lo b a)
  | 9 => .whole (.bcf lo b a)
  | 10 => .whole (.btfss lo b a)
  | 11 => .whole (.btfsc lo b a)
  | 12 => .half (.movff (hi.extractLsb' 0 4) lo)
  | 13 =>
    let n := hi.extractLsb' 0 3 ++ lo
    .whole (if hi.getLsbD 3 then .rcall n else .bra n)
  | 14 => decodeBranch hi lo
  | _ => .whole (.nopx (hi.extractLsb' 0 4 ++ lo))

/-- A two-word instruction from its first word and the bytes of the second (R92, R94). The check of the second word comes
before that of `lfsr`'s `f` (60_exceptions.md R263). -/
def decodeSecond (h : Half) (hi lo : Byte) : Except DecodeError Instr :=
  if hi.extractLsb' 4 4 = 0xF#4 then
    match h with
    | .movff fsHigh fsLow => .ok (.movff (fsHigh ++ fsLow) (hi.extractLsb' 0 4 ++ lo))
    | .call s kLow => .ok (.call (hi.extractLsb' 0 4 ++ lo ++ kLow) s)
    | .goto kLow => .ok (.goto (hi.extractLsb' 0 4 ++ lo ++ kLow))
    | .lfsr f kHigh =>
      if hi.extractLsb' 0 4 = 0 then (if f = 3 then .error .reservedEncoding else .ok (.lfsr f (kHigh ++ lo)))
      else .error .badSecondWord
  else .error .badSecondWord

/-- The instruction at the front of a list of bytes. -/
def decode : List Byte → Except DecodeError Instr
  | lo :: hi :: rest =>
    match decodeFirst hi lo with
    | .whole i => .ok i
    | .unassigned => .error .unassignedEncoding
    | .half h =>
      match rest with
      | lo2 :: hi2 :: _ => decodeSecond h hi2 lo2
      | _ => .error .truncated
  | _ => .error .truncated

/-- The bits of an opcode-table row (bit 0 the least significant bit of the first word, a second word from bit 16 on) as
the bytes the hardware stores, up to two words; bits at `nbits` and above are 0. -/
def tableBytes (nbits w : Nat) : List Byte :=
  let v := w % 2 ^ nbits
  [BitVec.ofNat 8 v, BitVec.ofNat 8 (v / 2 ^ 8), BitVec.ofNat 8 (v / 2 ^ 16), BitVec.ofNat 8 (v / 2 ^ 24)]

/-- The instruction the decoder reads from an opcode-table row's bits. -/
def decodeTableWord (nbits w : Nat) : Option Instr :=
  match decode (tableBytes nbits w) with
  | .ok i => some i
  | .error _ => none

/-- The `d` bit. -/
def Dst.bit : Dst → BitVec 1
  | .w => 0
  | .f => 1

/-- The `a` bit. -/
def Acc.bit : Acc → BitVec 1
  | .access => 0
  | .banked => 1

/-- The bytes of an instruction, from the patterns of R101: low byte of the first word, its high byte, then the same of
the second word. -/
def encode : Instr → List Byte
  | .addwf f d a => [f, 0b001001#6 ++ d.bit ++ a.bit]
  | .addwfc f d a => [f, 0b001000#6 ++ d.bit ++ a.bit]
  | .andwf f d a => [f, 0b000101#6 ++ d.bit ++ a.bit]
  | .clrf f a => [f, 0b0110101#7 ++ a.bit]
  | .comf f d a => [f, 0b000111#6 ++ d.bit ++ a.bit]
  | .cpfseq f a => [f, 0b0110001#7 ++ a.bit]
  | .cpfsgt f a => [f, 0b0110010#7 ++ a.bit]
  | .cpfslt f a => [f, 0b0110000#7 ++ a.bit]
  | .decf f d a => [f, 0b000001#6 ++ d.bit ++ a.bit]
  | .decfsz f d a => [f, 0b001011#6 ++ d.bit ++ a.bit]
  | .dcfsnz f d a => [f, 0b010011#6 ++ d.bit ++ a.bit]
  | .incf f d a => [f, 0b001010#6 ++ d.bit ++ a.bit]
  | .incfsz f d a => [f, 0b001111#6 ++ d.bit ++ a.bit]
  | .infsnz f d a => [f, 0b010010#6 ++ d.bit ++ a.bit]
  | .iorwf f d a => [f, 0b000100#6 ++ d.bit ++ a.bit]
  | .movf f d a => [f, 0b010100#6 ++ d.bit ++ a.bit]
  | .movff fs fd => [fs.extractLsb' 0 8, 0b1100#4 ++ fs.extractLsb' 8 4, fd.extractLsb' 0 8, 0b1111#4 ++ fd.extractLsb' 8 4]
  | .movwf f a => [f, 0b0110111#7 ++ a.bit]
  | .mulwf f a => [f, 0b0000001#7 ++ a.bit]
  | .negf f a => [f, 0b0110110#7 ++ a.bit]
  | .rlcf f d a => [f, 0b001101#6 ++ d.bit ++ a.bit]
  | .rlncf f d a => [f, 0b010001#6 ++ d.bit ++ a.bit]
  | .rrcf f d a => [f, 0b001100#6 ++ d.bit ++ a.bit]
  | .rrncf f d a => [f, 0b010000#6 ++ d.bit ++ a.bit]
  | .setf f a => [f, 0b0110100#7 ++ a.bit]
  | .subfwb f d a => [f, 0b010101#6 ++ d.bit ++ a.bit]
  | .subwf f d a => [f, 0b010111#6 ++ d.bit ++ a.bit]
  | .subwfb f d a => [f, 0b010110#6 ++ d.bit ++ a.bit]
  | .swapf f d a => [f, 0b001110#6 ++ d.bit ++ a.bit]
  | .tstfsz f a => [f, 0b0110011#7 ++ a.bit]
  | .xorwf f d a => [f, 0b000110#6 ++ d.bit ++ a.bit]
  | .bcf f b a => [f, 0b1001#4 ++ b ++ a.bit]
  | .bsf f b a => [f, 0b1000#4 ++ b ++ a.bit]
  | .btfsc f b a => [f, 0b1011#4 ++ b ++ a.bit]
  | .btfss f b a => [f, 0b1010#4 ++ b ++ a.bit]
  | .btg f b a => [f, 0b0111#4 ++ b ++ a.bit]
  | .bc n => [n, 0b11100010#8]
  | .bn n => [n, 0b11100110#8]
  | .bnc n => [n, 0b11100011#8]
  | .bnn n => [n, 0b11100111#8]
  | .bnov n => [n, 0b11100101#8]
  | .bnz n => [n, 0b11100001#8]
  | .bov n => [n, 0b11100100#8]
  | .bra n => [n.extractLsb' 0 8, 0b11010#5 ++ n.extractLsb' 8 3]
  | .bz n => [n, 0b11100000#8]
  | .call k s => [k.extractLsb' 0 8, 0b1110110#7 ++ BitVec.ofBool s, k.extractLsb' 8 8, 0b1111#4 ++ k.extractLsb' 16 4]
  | .clrwdt => [0b00000100#8, 0b00000000#8]
  | .daw => [0b00000111#8, 0b00000000#8]
  | .goto k => [k.extractLsb' 0 8, 0b11101111#8, k.extractLsb' 8 8, 0b1111#4 ++ k.extractLsb' 16 4]
  | .nop => [0b00000000#8, 0b00000000#8]
  | .nopx x => [x.extractLsb' 0 8, 0b1111#4 ++ x.extractLsb' 8 4]
  | .pop => [0b00000110#8, 0b00000000#8]
  | .push => [0b00000101#8, 0b00000000#8]
  | .rcall n => [n.extractLsb' 0 8, 0b11011#5 ++ n.extractLsb' 8 3]
  | .reset => [0b11111111#8, 0b00000000#8]
  | .retfie s => [0b0001000#7 ++ BitVec.ofBool s, 0b00000000#8]
  | .retlw k => [k, 0b00001100#8]
  | .ret s => [0b0001001#7 ++ BitVec.ofBool s, 0b00000000#8]
  | .sleep => [0b00000011#8, 0b00000000#8]
  | .addlw k => [k, 0b00001111#8]
  | .andlw k => [k, 0b00001011#8]
  | .iorlw k => [k, 0b00001001#8]
  | .lfsr f k => [0b00#2 ++ f ++ k.extractLsb' 8 4, 0b11101110#8, k.extractLsb' 0 8, 0b11110000#8]
  | .movlb k => [0b0000#4 ++ k, 0b00000001#8]
  | .movlw k => [k, 0b00001110#8]
  | .mullw k => [k, 0b00001101#8]
  | .sublw k => [k, 0b00001000#8]
  | .xorlw k => [k, 0b00001010#8]
  | .tblrd => [0b00001000#8, 0b00000000#8]
  | .tblrdPostInc => [0b00001001#8, 0b00000000#8]
  | .tblrdPostDec => [0b00001010#8, 0b00000000#8]
  | .tblrdPreInc => [0b00001011#8, 0b00000000#8]
  | .tblwt => [0b00001100#8, 0b00000000#8]
  | .tblwtPostInc => [0b00001101#8, 0b00000000#8]
  | .tblwtPostDec => [0b00001110#8, 0b00000000#8]
  | .tblwtPreInc => [0b00001111#8, 0b00000000#8]

/-- The 16-bit words of bytes as program memory holds them (20_memory.md R68). -/
def bytesToWords : List Byte → List (BitVec 16)
  | lo :: hi :: rest => (hi ++ lo) :: bytesToWords rest
  | _ => []

/-- The words of an instruction, the first first. -/
def encodeWords (i : Instr) : List (BitVec 16) := bytesToWords (encode i)

end Sys2Proof
end

