-- ==== Sys2Proof/Machine/Fetch.lean ====
section
/-! DEFINITION. Fetching an instruction's bytes from program memory (20_memory.md R69, R70, R71) and naming what stops it. -/

namespace Sys2Proof.Machine

/-- The two bytes of the word at an address, low byte first; none where the address is not implemented (R71). A word is
present when its own address is: DEDUCED (safe), log 20. -/
def State.wordBytes (s : State) (a : PAddr) : List Byte :=
  if s.progHas a then [s.progByte a, s.progByte (a + 1)] else []

/-- The bytes the fetch at PC can see: the first word, then the word at PC + 2 (R69), mod 2^21 (10_state.md R25). -/
def State.fetchBytes (s : State) : List Byte :=
  match s.wordBytes s.pc with
  | [] => []
  | w => w ++ s.wordBytes (s.pc + 2)

/-- The fault of a decoder's rejection (60_exceptions.md R261). -/
def DecodeError.fault : DecodeError → Fault
  | .truncated => .fetchOutsideProgram
  | .unassignedEncoding => .unassignedEncoding
  | .badSecondWord => .badSecondWord
  | .reservedEncoding => .reservedEncoding

/-- Program memory with bytes stored at consecutive addresses (mod 2^21), the first at `a`. -/
def placeBytes : Memory → PAddr → List Byte → Memory
  | m, _, [] => m
  | m, a, v :: vs => placeBytes (m.write a.toNat v) (a + 1) vs

/-- The state with bytes stored where the next fetch reads, able to fetch at once: running, and nothing asserted by the
environment at this boundary (log 6). -/
def State.placeAtPc (s : State) (bytes : List Byte) : State :=
  ((s.setProg (placeBytes s.prog s.pc bytes)).setMode .running).setInputs []

end Sys2Proof.Machine
end

