-- ==== Sys2Proof/Machine/Step.lean ====
section
/-! DEFINITION. One step: an event of the environment, or one instruction (10_state.md R20, 60_exceptions.md R264). -/

namespace Sys2Proof.Machine

/-- Fetch, decode and execute the instruction at PC; faults in the order of 60_exceptions.md R263. -/
def State.instrStep (s : State) : Host.Outcome State Fault Refusal :=
  match decode s.fetchBytes with
  | .ok i => exec i s
  | .error e => .fault (DecodeError.fault e)

/-- One step. A configuration with XINST = 1 is refused (00_scope.md R3). At the boundary the environment's input
arrives; if an event acts, it is the step. Otherwise a sleeping core stays as it is (R275, U29) and a running one
executes one instruction. -/
def step (s : State) : Host.Outcome State Fault Refusal :=
  if s.cfg.xinst then .refused .extendedMode
  else
    match s.arrive.event s.boundary with
    | some o => o
    | none =>
      match s.mode with
      | .sleeping => .next s.arrive
      | .running => s.arrive.instrStep

/-- The state with an opcode-table row's bits stored where `step` fetches its next instruction, so that the next step
runs exactly it (log 6). -/
def State.withFetchWord (s : State) (nbits w : Nat) : State := s.placeAtPc (tableBytes nbits w)

end Sys2Proof.Machine
end

