-- ==== Sys2Proof/Safety.lean ====
section
/-! DEFINITION. What counts as a good state and an undisturbed step, in the terms the statements use. -/

/-- The access to its operand that an instruction with a destination bit needs: it reads the byte, and writes it when
the destination is `f`. -/
def Sys2Proof.Dst.dir : Sys2Proof.Dst → Sys2Proof.Machine.Dir
  | .w => .read
  | .f => .write

namespace Sys2Proof.Machine

/-- An access that does not stop the run: this way, to this part of the byte at this data address (20_memory.md R64,
R65). -/
abbrev State.Accessible (s : State) (d : Dir) (p : BytePart) (a : DAddr) : Prop := s.accessStop d p a = none

/-- A step that executes an instruction: the configuration is one the model takes (00_scope.md R3), the core is running
and no event acts at this boundary. -/
structure State.Executes (s : State) : Prop where
  standard : s.cfg.xinst = false
  running : s.mode = .running
  noEvent : s.arrive.event s.boundary = none

/-- Is a listed data byte at an implemented general-purpose address (10_state.md R22)? -/
def State.ramByteOk (s : State) (c : Host.Cell) : Bool :=
  decide (c.1 < 4096) && decide (s.place (BitVec.ofNat 12 c.1) = .ram)

/-- The machine's invariant: PC is even (10_state.md R24), both memories are in canonical form, data memory lists
implemented general-purpose bytes only (R22), and the return stack holds at most STACK_DEPTH entries (R31). -/
structure State.Inv (s : State) : Prop where
  pcEven : s.pc.getLsbD 0 = false
  ramCanonical : s.ram.wf = true
  ramImplemented : s.ram.all s.ramByteOk = true
  progCanonical : s.prog.wf = true
  stackBounded : s.stack.length ≤ s.cfg.stackDepth

end Sys2Proof.Machine
end

