-- ==== Sys2Proof/Certificates/Slice0/Obligations.lean ====
section
/-! DEFINITION. The statements for the provers, with the words they are written in. -/

namespace Sys2Proof.Claims

open Sys2Proof.Machine

/-! ### Encoding -/

/-- The bytes, whatever follows them, decode to the instruction. -/
def reads (bytes : List Byte) (i : Instr) : Prop := ∀ rest, decode (bytes ++ rest) = .ok i

/-- A one-word instruction with `d` and `a` (format BYTE_DA of 30_encoding.md R91). -/
def readsDa (op : BitVec 6) (i : Byte → Dst → Acc → Instr) : Prop := ∀ f d a, reads [f, op ++ d.bit ++ a.bit] (i f d a)

/-- A one-word instruction with `a` (format BYTE_A). -/
def readsA (op : BitVec 7) (i : Byte → Acc → Instr) : Prop := ∀ f a, reads [f, op ++ a.bit] (i f a)

/-- A bit instruction (format BIT). -/
def readsBit (op : BitVec 4) (i : Byte → BitVec 3 → Acc → Instr) : Prop := ∀ f b a, reads [f, op ++ b ++ a.bit] (i f b a)

/-- A one-word instruction whose low byte is its operand (formats LIT8 and REL8). -/
def readsLow (op : Byte) (i : Byte → Instr) : Prop := ∀ k, reads [k, op] (i k)

/-- A first word of `hi : lo` with a second word that lacks the bits of one is rejected (R94). -/
def needsSecond (hi : Byte) (bad : Byte → Prop) : Prop :=
  ∀ lo lo2 hi2 rest, bad hi2 → decode (lo :: hi :: lo2 :: hi2 :: rest) = .error .badSecondWord

/-- The bits 15:12 of a word with this high byte are not 1111. -/
def notSecond (hi : Byte) : Prop := hi.extractLsb' 4 4 ≠ 0xF#4

/-- One row of the table of R101: `match` and `mask` of the first word, and of the second where there is one. -/
structure Row where
  val : BitVec 16
  mask : BitVec 16
  second : Option (BitVec 16 × BitVec 16) := none

/-- The row of an instruction, in the table's hexadecimal. -/
def rowOf : Instr → Row
  | .addwf _ _ _ => ⟨0x2400, 0xFC00, none⟩
  | .addwfc _ _ _ => ⟨0x2000, 0xFC00, none⟩
  | .andwf _ _ _ => ⟨0x1400, 0xFC00, none⟩
  | .clrf _ _ => ⟨0x6A00, 0xFE00, none⟩
  | .comf _ _ _ => ⟨0x1C00, 0xFC00, none⟩
  | .cpfseq _ _ => ⟨0x6200, 0xFE00, none⟩
  | .cpfsgt _ _ => ⟨0x6400, 0xFE00, none⟩
  | .cpfslt _ _ => ⟨0x6000, 0xFE00, none⟩
  | .decf _ _ _ => ⟨0x0400, 0xFC00, none⟩
  | .decfsz _ _ _ => ⟨0x2C00, 0xFC00, none⟩
  | .dcfsnz _ _ _ => ⟨0x4C00, 0xFC00, none⟩
  | .incf _ _ _ => ⟨0x2800, 0xFC00, none⟩
  | .incfsz _ _ _ => ⟨0x3C00, 0xFC00, none⟩
  | .infsnz _ _ _ => ⟨0x4800, 0xFC00, none⟩
  | .iorwf _ _ _ => ⟨0x1000, 0xFC00, none⟩
  | .movf _ _ _ => ⟨0x5000, 0xFC00, none⟩
  | .movff _ _ => ⟨0xC000, 0xF000, some (0xF000, 0xF000)⟩
  | .movwf _ _ => ⟨0x6E00, 0xFE00, none⟩
  | .mulwf _ _ => ⟨0x0200, 0xFE00, none⟩
  | .negf _ _ => ⟨0x6C00, 0xFE00, none⟩
  | .rlcf _ _ _ => ⟨0x3400, 0xFC00, none⟩
  | .rlncf _ _ _ => ⟨0x4400, 0xFC00, none⟩
  | .rrcf _ _ _ => ⟨0x3000, 0xFC00, none⟩
  | .rrncf _ _ _ => ⟨0x4000, 0xFC00, none⟩
  | .setf _ _ => ⟨0x6800, 0xFE00, none⟩
  | .subfwb _ _ _ => ⟨0x5400, 0xFC00, none⟩
  | .subwf _ _ _ => ⟨0x5C00, 0xFC00, none⟩
  | .subwfb _ _ _ => ⟨0x5800, 0xFC00, none⟩
  | .swapf _ _ _ => ⟨0x3800, 0xFC00, none⟩
  | .tstfsz _ _ => ⟨0x6600, 0xFE00, none⟩
  | .xorwf _ _ _ => ⟨0x1800, 0xFC00, none⟩
  | .bcf _ _ _ => ⟨0x9000, 0xF000, none⟩
  | .bsf _ _ _ => ⟨0x8000, 0xF000, none⟩
  | .btfsc _ _ _ => ⟨0xB000, 0xF000, none⟩
  | .btfss _ _ _ => ⟨0xA000, 0xF000, none⟩
  | .btg _ _ _ => ⟨0x7000, 0xF000, none⟩
  | .bc _ => ⟨0xE200, 0xFF00, none⟩
  | .bn _ => ⟨0xE600, 0xFF00, none⟩
  | .bnc _ => ⟨0xE300, 0xFF00, none⟩
  | .bnn _ => ⟨0xE700, 0xFF00, none⟩
  | .bnov _ => ⟨0xE500, 0xFF00, none⟩
  | .bnz _ => ⟨0xE100, 0xFF00, none⟩
  | .bov _ => ⟨0xE400, 0xFF00, none⟩
  | .bra _ => ⟨0xD000, 0xF800, none⟩
  | .bz _ => ⟨0xE000, 0xFF00, none⟩
  | .call _ _ => ⟨0xEC00, 0xFE00, some (0xF000, 0xF000)⟩
  | .clrwdt => ⟨0x0004, 0xFFFF, none⟩
  | .daw => ⟨0x0007, 0xFFFF, none⟩
  | .goto _ => ⟨0xEF00, 0xFF00, some (0xF000, 0xF000)⟩
  | .nop => ⟨0x0000, 0xFFFF, none⟩
  | .nopx _ => ⟨0xF000, 0xF000, none⟩
  | .pop => ⟨0x0006, 0xFFFF, none⟩
  | .push => ⟨0x0005, 0xFFFF, none⟩
  | .rcall _ => ⟨0xD800, 0xF800, none⟩
  | .reset => ⟨0x00FF, 0xFFFF, none⟩
  | .retfie _ => ⟨0x0010, 0xFFFE, none⟩
  | .retlw _ => ⟨0x0C00, 0xFF00, none⟩
  | .ret _ => ⟨0x0012, 0xFFFE, none⟩
  | .sleep => ⟨0x0003, 0xFFFF, none⟩
  | .addlw _ => ⟨0x0F00, 0xFF00, none⟩
  | .andlw _ => ⟨0x0B00, 0xFF00, none⟩
  | .iorlw _ => ⟨0x0900, 0xFF00, none⟩
  | .lfsr _ _ => ⟨0xEE00, 0xFFC0, some (0xF000, 0xFF00)⟩
  | .movlb _ => ⟨0x0100, 0xFFF0, none⟩
  | .movlw _ => ⟨0x0E00, 0xFF00, none⟩
  | .mullw _ => ⟨0x0D00, 0xFF00, none⟩
  | .sublw _ => ⟨0x0800, 0xFF00, none⟩
  | .xorlw _ => ⟨0x0A00, 0xFF00, none⟩
  | .tblrd => ⟨0x0008, 0xFFFF, none⟩
  | .tblrdPostInc => ⟨0x0009, 0xFFFF, none⟩
  | .tblrdPostDec => ⟨0x000A, 0xFFFF, none⟩
  | .tblrdPreInc => ⟨0x000B, 0xFFFF, none⟩
  | .tblwt => ⟨0x000C, 0xFFFF, none⟩
  | .tblwtPostInc => ⟨0x000D, 0xFFFF, none⟩
  | .tblwtPostDec => ⟨0x000E, 0xFFFF, none⟩
  | .tblwtPreInc => ⟨0x000F, 0xFFFF, none⟩

/-- The fields of an instruction are the bits of its words that 30_encoding.md R92 names. -/
def fieldsOf (w1 w2 : BitVec 16) : Instr → Prop
  | .addwf f d a | .addwfc f d a | .andwf f d a | .comf f d a | .decf f d a | .decfsz f d a | .dcfsnz f d a
  | .incf f d a | .incfsz f d a | .infsnz f d a | .iorwf f d a | .movf f d a | .rlcf f d a | .rlncf f d a
  | .rrcf f d a | .rrncf f d a | .subfwb f d a | .subwf f d a | .subwfb f d a | .swapf f d a | .xorwf f d a =>
    f = w1.extractLsb' 0 8 ∧ d.bit = w1.extractLsb' 9 1 ∧ a.bit = w1.extractLsb' 8 1
  | .clrf f a | .cpfseq f a | .cpfsgt f a | .cpfslt f a | .movwf f a | .mulwf f a | .negf f a | .setf f a
  | .tstfsz f a =>
    f = w1.extractLsb' 0 8 ∧ a.bit = w1.extractLsb' 8 1
  | .movff fs fd =>
    fs = w1.extractLsb' 0 12 ∧ fd = w2.extractLsb' 0 12
  | .bcf f b a | .bsf f b a | .btfsc f b a | .btfss f b a | .btg f b a =>
    f = w1.extractLsb' 0 8 ∧ b = w1.extractLsb' 9 3 ∧ a.bit = w1.extractLsb' 8 1
  | .bc n | .bn n | .bnc n | .bnn n | .bnov n | .bnz n | .bov n | .bz n =>
    n = w1.extractLsb' 0 8
  | .bra n | .rcall n =>
    n = w1.extractLsb' 0 11
  | .call k s =>
    k = w2.extractLsb' 0 12 ++ w1.extractLsb' 0 8 ∧ BitVec.ofBool s = w1.extractLsb' 8 1
  | .clrwdt | .daw | .nop | .pop | .push | .reset | .sleep =>
    True
  | .goto k =>
    k = w2.extractLsb' 0 12 ++ w1.extractLsb' 0 8
  | .nopx x =>
    x = w1.extractLsb' 0 12
  | .retfie s | .ret s =>
    BitVec.ofBool s = w1.extractLsb' 0 1
  | .retlw k | .addlw k | .andlw k | .iorlw k | .movlw k | .mullw k | .sublw k | .xorlw k =>
    k = w1.extractLsb' 0 8
  | .lfsr f k =>
    f = w1.extractLsb' 4 2 ∧ k = w1.extractLsb' 0 4 ++ w2.extractLsb' 0 8
  | .movlb k =>
    k = w1.extractLsb' 0 4
  | .tblrd | .tblrdPostInc | .tblrdPostDec | .tblrdPreInc | .tblwt | .tblwtPostInc | .tblwtPostDec
  | .tblwtPreInc =>
    True

/-- The bytes of a word as program memory holds them (20_memory.md R68). -/
def low (w : BitVec 16) : Byte := w.extractLsb' 0 8
def high (w : BitVec 16) : Byte := w.extractLsb' 8 8

/-- The first word opens an instruction of two words (R90). -/
def twoWords (w : BitVec 16) : Prop :=
  w.extractLsb' 12 4 = 0b1100#4 ∨ w.extractLsb' 9 7 = 0b1110110#7 ∨ w.extractLsb' 8 8 = 0b11101111#8 ∨
    w.extractLsb' 6 10 = 0b1110111000#10

/-- The first word is that of `lfsr` (R90). -/
def lfsrWord (w : BitVec 16) : Prop := w.extractLsb' 6 10 = 0b1110111000#10

/-- The word after `w1` does not have the bits a second word needs (R94). -/
def badSecond (w1 w2 : BitVec 16) : Prop :=
  w2.extractLsb' 12 4 ≠ 0xF#4 ∨ (lfsrWord w1 ∧ w2.extractLsb' 8 8 ≠ 0xF0#8)

/-- A first word that belongs to no instruction (R99). -/
def unassigned (w : BitVec 16) : Prop :=
  w.toNat = 0x0001 ∨ w.toNat = 0x0002 ∨ (0x0014 ≤ w.toNat ∧ w.toNat ≤ 0x00FE) ∨ (0x0110 ≤ w.toNat ∧ w.toNat ≤ 0x01FF) ∨
    (0xE800 ≤ w.toNat ∧ w.toNat ≤ 0xEBFF) ∨ (0xEE40 ≤ w.toNat ∧ w.toNat ≤ 0xEEFF)

/-- The word of program memory at an address (10_state.md R44). -/
def wordAt (s : State) (p : PAddr) : BitVec 16 := s.prog.read (p + 1).toNat ++ s.prog.read p.toNat

/-- The address lies in implemented program memory. -/
def inProgram (s : State) (p : PAddr) : Prop := p.toNat < s.cfg.progSize

/-! ### Arithmetic, in integers -/

/-- `r` and the five flags of `x + y + c` (41_byte_oriented.md R122, 10_state.md R29). -/
def SumOf (x y : Byte) (c : Bool) (r : Byte) (fl : Flags) : Prop :=
  r.toNat + (if fl.c = true then 256 else 0) = x.toNat + y.toNat + c.toNat ∧
  (fl.dc = true ↔ 16 ≤ x.toNat % 16 + y.toNat % 16 + c.toNat) ∧
  (fl.z = true ↔ r = 0) ∧ (fl.n = true ↔ 128 ≤ r.toNat) ∧
  (fl.ov = true ↔ r.toInt ≠ x.toInt + y.toInt + (c.toNat : Int))

/-- `r` and the five flags of `x - y - b`: C and DC are the complements of the borrows (R123, R29). -/
def DiffOf (x y : Byte) (b : Bool) (r : Byte) (fl : Flags) : Prop :=
  r.toNat + y.toNat + b.toNat = x.toNat + (if fl.c = true then 0 else 256) ∧
  (fl.c = true ↔ y.toNat + b.toNat ≤ x.toNat) ∧
  (fl.dc = true ↔ y.toNat % 16 + b.toNat ≤ x.toNat % 16) ∧
  (fl.z = true ↔ r = 0) ∧ (fl.n = true ↔ 128 ≤ r.toNat) ∧
  (fl.ov = true ↔ r.toInt ≠ x.toInt - y.toInt - (b.toNat : Int))

/-- The flags after an instruction that writes Z and N only. -/
def ZnOf (old : Flags) (r : Byte) (fl : Flags) : Prop :=
  (fl.z = true ↔ r = 0) ∧ (fl.n = true ↔ 128 ≤ r.toNat) ∧ fl.c = old.c ∧ fl.dc = old.dc ∧ fl.ov = old.ov

/-- The flags after an instruction that writes C, Z and N only. -/
def CznOf (old : Flags) (r : Byte) (c : Bool) (fl : Flags) : Prop :=
  (fl.z = true ↔ r = 0) ∧ (fl.n = true ↔ 128 ≤ r.toNat) ∧ fl.c = c ∧ fl.dc = old.dc ∧ fl.ov = old.ov

/-- Packed BCD: both digits at most 9. -/
def isBcd (v : Byte) : Prop := v.toNat % 16 ≤ 9 ∧ v.toNat / 16 ≤ 9

/-- The number a packed-BCD byte stands for. -/
def bcdValue (v : Byte) : Nat := 10 * (v.toNat / 16) + v.toNat % 16

/-- `base + 2 + 2 * n` mod 2^21 for a signed offset (43_control.md R180). -/
def branchTarget (base : PAddr) (n : Int) : PAddr := BitVec.ofInt 21 (base.toNat + 2 + 2 * n)

/-- The byte address of a word address (`k : 0`). -/
def wordAddress (k : BitVec 20) : PAddr := BitVec.ofNat 21 (2 * k.toNat)

/-! ### States -/

/-- The byte an operand names. -/
def operand (s : State) (f : Byte) (a : Acc) : Byte := s.peek (s.ea f a)

/-- The state after the operand is read, PC moves on by `n` and the result goes to its destination: `MemRead`, `pc <- PC + n`,
`Dest` (41_byte_oriented.md R121; a write to PCL sets PC instead, 10_state.md R27). -/
def stored (s : State) (f : Byte) (d : Dst) (a : Acc) (r : Byte) (n : PAddr) : State :=
  match d with
  | .w => ((s.afterRead (s.ea f a)).advance n).setW r
  | .f => ((s.afterRead (s.ea f a)).advance n).poke (s.ea f a) r

/-- The state after the operand is read and PC moves on by `n`. -/
def tested (s : State) (f : Byte) (a : Acc) (n : PAddr) : State := (s.afterRead (s.ea f a)).advance n

/-- The state after PC moves on and `v` is written to the operand, which is not read. -/
def overwritten (s : State) (f : Byte) (a : Acc) (v : Byte) : State := (s.advance 2).poke (s.ea f a) v

/-- The three shadow registers hold `s`'s W, STATUS and BSR if `fast`, and else what they held. -/
def withSave (s : State) (fast : Bool) : State :=
  { s with ws := if fast = true then s.w else s.ws, statuss := if fast = true then s.flags else s.statuss,
           bsrs := if fast = true then s.bsr else s.bsrs }

/-- W, STATUS and BSR hold what the shadow registers do if `fast`, and else what they held. -/
def withRestore (s : State) (fast : Bool) : State :=
  { s with w := if fast = true then s.ws else s.w, flags := if fast = true then s.statuss else s.flags,
           bsr := if fast = true then s.bsrs else s.bsr }

/-- What a reset does to one element, by its entry in the column of `RESET_STATE` (70_reset_and_hazards.md R291, R292): it
takes the value; an unspecified element may hold anything; an absent one is unchanged. -/
def Becomes {α : Type} (r : ResetTo α) (old new : α) : Prop :=
  match r with
  | .value v => new = v
  | .unspecified => True
  | .absent => new = old

/-- Every register a reset of a running machine sets or keeps (R292), by its column of `RESET_STATE`; PC and Mode are the
reset's own. Data memory is said byte by byte. -/
structure AfterReset (k : ResetColumn) (s t : State) : Prop where
  pc : s.cfg.resetVector.getLsbD 0 = false → t.pc = s.cfg.resetVector
  mode : t.mode = .running
  stack : (∀ l, k.stack = .value l → l.length ≤ s.cfg.stackDepth → t.stack = l) ∧ (k.stack = .absent → t.stack = s.stack)
  pclath : Becomes k.pclath s.pclath t.pclath
  pclatu : Becomes k.pclatu s.pclatu t.pclatu
  bsr : Becomes k.bsr s.bsr t.bsr
  tblptr : Becomes k.tblptr s.tblptr t.tblptr
  tablat : Becomes k.tablat s.tablat t.tablat
  gieh : Becomes k.gieh s.gieh t.gieh
  giel : Becomes k.giel s.giel t.giel
  timeout : Becomes k.toBit s.toBit t.toBit
  powerDown : Becomes k.pdBit s.pdBit t.pdBit
  wdt : Becomes k.wdt s.wdt t.wdt
  wdtPost : Becomes k.wdtPost s.wdtPost t.wdtPost
  w : Becomes k.w s.w t.w
  c : Becomes k.c s.flags.c t.flags.c
  dc : Becomes k.dc s.flags.dc t.flags.dc
  z : Becomes k.z s.flags.z t.flags.z
  ov : Becomes k.ov s.flags.ov t.flags.ov
  n : Becomes k.n s.flags.n t.flags.n
  fsr0 : Becomes k.fsr0 s.fsr0 t.fsr0
  fsr1 : Becomes k.fsr1 s.fsr1 t.fsr1
  fsr2 : Becomes k.fsr2 s.fsr2 t.fsr2
  prodh : Becomes k.prodh s.prodh t.prodh
  prodl : Becomes k.prodl s.prodl t.prodl
  ws : Becomes k.ws s.ws t.ws
  statuss : Becomes k.statuss s.statuss t.statuss
  bsrs : Becomes k.bsrs s.bsrs t.bsrs
  hold : Becomes k.hold s.hold t.hold
  ram : (∀ m, k.ram = .value m → ∀ x, s.place x = .ram → t.ram.read x.toNat = Memory.read m x.toNat) ∧
    (k.ram = .absent → t.ram = s.ram)
  fixed : t.prog = s.prog ∧ t.cfg = s.cfg ∧ t.inputs = s.inputs

/-- Every register a reset by MCLR, by `reset` or by the watchdog sets or keeps under the default table (R291;
log 2); nothing is said of WS, STATUSS, BSRS and HOLD, which it leaves unspecified. -/
structure AfterDefaultReset (s t : State) (toVal : Bool) : Prop where
  stack : t.stack = []
  latches : t.pclath = 0 ∧ t.pclatu = 0
  bank : t.bsr = 0
  table : t.tblptr = 0 ∧ t.tablat = 0
  enables : t.gieh = false ∧ t.giel = false
  timeout : t.toBit = toVal
  powerDown : t.pdBit = s.pdBit
  watchdog : t.wdt = 0 ∧ t.wdtPost = 0
  kept : t.w = s.w ∧ t.flags = s.flags ∧ t.fsr0 = s.fsr0 ∧ t.fsr1 = s.fsr1 ∧ t.fsr2 = s.fsr2 ∧ t.prodh = s.prodh ∧
    t.prodl = s.prodl ∧ t.ram = s.ram

/-- A value the column gives is the element's value. -/
def GivenBy {α : Type} (r : ResetTo α) (x : α) : Prop := ∀ v, r = .value v → x = v

/-- What `Reset(PowerOn)` (R291, R292) leaves with a run's parameters: every value of the power-on column of
`RESET_STATE`, PC at `RESET_VECTOR` and the mode Running. -/
structure AtPowerOn (p : Params) (k : ResetColumn) (t : State) : Prop where
  params : t.cfg = p
  pc : p.resetVector.getLsbD 0 = false → t.pc = p.resetVector
  mode : t.mode = .running
  stack : ∀ l, k.stack = .value l → l.length ≤ p.stackDepth → t.stack = l
  latches : GivenBy k.pclath t.pclath ∧ GivenBy k.pclatu t.pclatu
  bank : GivenBy k.bsr t.bsr
  table : GivenBy k.tblptr t.tblptr ∧ GivenBy k.tablat t.tablat ∧ GivenBy k.hold t.hold
  enables : GivenBy k.gieh t.gieh ∧ GivenBy k.giel t.giel
  power : GivenBy k.toBit t.toBit ∧ GivenBy k.pdBit t.pdBit
  watchdog : GivenBy k.wdt t.wdt ∧ GivenBy k.wdtPost t.wdtPost
  w : GivenBy k.w t.w
  flags : GivenBy k.c t.flags.c ∧ GivenBy k.dc t.flags.dc ∧ GivenBy k.z t.flags.z ∧ GivenBy k.ov t.flags.ov ∧
    GivenBy k.n t.flags.n
  fsr : GivenBy k.fsr0 t.fsr0 ∧ GivenBy k.fsr1 t.fsr1 ∧ GivenBy k.fsr2 t.fsr2
  prod : GivenBy k.prodh t.prodh ∧ GivenBy k.prodl t.prodl
  shadow : GivenBy k.ws t.ws ∧ GivenBy k.statuss t.statuss ∧ GivenBy k.bsrs t.bsrs
  ram : ∀ m, k.ram = .value m → ∀ x, Params.place p x = .ram → t.ram.read x.toNat = Memory.read m x.toNat

/-- A watchdog overflow acts at this boundary (60_exceptions.md R272; log 15). -/
def wdtActs (s : State) : Prop :=
  s.boundary.wdtOverflow = true ∧ s.cfg.wdtEnabled = true ∧
    (0 < s.wdt + s.boundary.wdtTicks ∨ 0 < s.wdtPost + s.boundary.wdtPostTicks)

/-- No event of higher priority than an interrupt acts at this boundary (R267). -/
def noResetEvent (s : State) : Prop := s.boundary.mclr = false ∧ ¬ wdtActs s

/-! ### Registers and addresses an instruction uses -/

/-- The registers other than PC and the bytes of data memory. -/
inductive Reg where
  | w | bsr | c | dc | z | ov | n | pclath | pclatu | stack | ws | statuss | bsrs | fsr0 | fsr1 | fsr2 | prodh | prodl
  | tblptr | tablat | hold | gieh | giel | to | pd | wdt | wdtPost | mode | program | params | inputs
deriving DecidableEq, Repr

/-- The register holds in `t` what it holds in `s`. -/
def Reg.same (s t : State) : Reg → Prop
  | .w => t.w = s.w
  | .bsr => t.bsr = s.bsr
  | .c => t.flags.c = s.flags.c
  | .dc => t.flags.dc = s.flags.dc
  | .z => t.flags.z = s.flags.z
  | .ov => t.flags.ov = s.flags.ov
  | .n => t.flags.n = s.flags.n
  | .pclath => t.pclath = s.pclath
  | .pclatu => t.pclatu = s.pclatu
  | .stack => t.stack = s.stack
  | .ws => t.ws = s.ws
  | .statuss => t.statuss = s.statuss
  | .bsrs => t.bsrs = s.bsrs
  | .fsr0 => t.fsr0 = s.fsr0
  | .fsr1 => t.fsr1 = s.fsr1
  | .fsr2 => t.fsr2 = s.fsr2
  | .prodh => t.prodh = s.prodh
  | .prodl => t.prodl = s.prodl
  | .tblptr => t.tblptr = s.tblptr
  | .tablat => t.tablat = s.tablat
  | .hold => t.hold = s.hold
  | .gieh => t.gieh = s.gieh
  | .giel => t.giel = s.giel
  | .to => t.toBit = s.toBit
  | .pd => t.pdBit = s.pdBit
  | .wdt => t.wdt = s.wdt
  | .wdtPost => t.wdtPost = s.wdtPost
  | .mode => t.mode = s.mode
  | .program => t.prog = s.prog
  | .params => t.cfg = s.cfg
  | .inputs => t.inputs = s.inputs

/-- The registers a write to a special-function register may change (10_state.md R45). -/
def sfrRegs : Sfr → List Reg
  | .tosu | .tosh | .tosl => [.stack]
  | .stkptr | .indirect | .pcl => []
  | .pclatu => [.pclatu]
  | .pclath => [.pclath]
  | .tblptru | .tblptrh | .tblptrl => [.tblptr]
  | .tablat => [.tablat]
  | .prodh => [.prodh]
  | .prodl => [.prodl]
  | .intcon => [.gieh, .giel]
  | .wreg => [.w]
  | .fsr0h | .fsr0l => [.fsr0]
  | .fsr1h | .fsr1l => [.fsr1]
  | .fsr2h | .fsr2l => [.fsr2]
  | .bsr => [.bsr]
  | .status => [.c, .dc, .z, .ov, .n]
  | .rcon => [.to, .pd]

/-- W, if the destination bit names it. -/
def wIf : Dst → List Reg
  | .w => [.w]
  | .f => []

/-- The five flags. -/
def allFlags : List Reg := [.c, .dc, .z, .ov, .n]

/-- The registers an instruction may change of itself: its flags (R28), W when it is the destination, and those its rule
names; for `reset` all that a `RESET_STATE` may name, which `SoftwareReset` says one by one. What a data address it stores to leads to comes on top. -/
def writes : Instr → List Reg
  | .addwf _ d _ | .addwfc _ d _ | .decf _ d _ | .incf _ d _ | .subfwb _ d _ | .subwf _ d _ | .subwfb _ d _ =>
    allFlags ++ wIf d
  | .negf _ _ => allFlags
  | .rlcf _ d _ | .rrcf _ d _ => [.c, .z, .n] ++ wIf d
  | .andwf _ d _ | .comf _ d _ | .iorwf _ d _ | .movf _ d _ | .rlncf _ d _ | .rrncf _ d _ | .xorwf _ d _ => [.z, .n] ++ wIf d
  | .clrf _ _ => [.z]
  | .decfsz _ d _ | .dcfsnz _ d _ | .incfsz _ d _ | .infsnz _ d _ | .swapf _ d _ => wIf d
  | .cpfseq _ _ | .cpfsgt _ _ | .cpfslt _ _ | .tstfsz _ _ | .setf _ _ | .movwf _ _ | .movff _ _ => []
  | .mulwf _ _ | .mullw _ => [.prodh, .prodl]
  | .bcf _ _ _ | .bsf _ _ _ | .btfsc _ _ _ | .btfss _ _ _ | .btg _ _ _ => []
  | .bc _ | .bn _ | .bnc _ | .bnn _ | .bnov _ | .bnz _ | .bov _ | .bra _ | .bz _ | .goto _ | .nop | .nopx _ => []
  | .call _ s => .stack :: (if s = true then [.ws, .statuss, .bsrs] else [])
  | .clrwdt => [.wdt, .wdtPost, .to, .pd]
  | .daw => [.w, .c]
  | .pop | .push | .rcall _ => [.stack]
  | .reset =>
    [.w, .bsr, .pclath, .pclatu, .stack, .ws, .statuss, .bsrs, .fsr0, .fsr1, .fsr2, .prodh, .prodl, .tblptr, .tablat,
      .hold, .gieh, .giel, .to, .pd, .wdt, .wdtPost, .mode] ++ allFlags
  | .retfie s => [.stack, .gieh, .giel] ++ (if s = true then .w :: .bsr :: allFlags else [])
  | .retlw _ => [.w, .stack]
  | .ret s => .stack :: (if s = true then .w :: .bsr :: allFlags else [])
  | .sleep => [.wdt, .wdtPost, .to, .pd, .mode]
  | .addlw _ | .sublw _ => .w :: allFlags
  | .andlw _ | .iorlw _ | .xorlw _ => [.w, .z, .n]
  | .lfsr f _ => if f = 0 then [.fsr0] else if f = 1 then [.fsr1] else [.fsr2]
  | .movlb _ => [.bsr]
  | .movlw _ => [.w]
  | .tblrd => [.tablat]
  | .tblrdPostInc | .tblrdPostDec | .tblrdPreInc => [.tablat, .tblptr]
  | .tblwt => [.hold]
  | .tblwtPostInc | .tblwtPostDec | .tblwtPreInc => [.hold, .tblptr]

/-- The operand in data memory that an instruction reads through `f` and `a`, and the part of it the instruction is
about. -/
def readsOperand : Instr → Option (BytePart × Byte × Acc)
  | .addwf f _ a | .addwfc f _ a | .andwf f _ a | .comf f _ a | .decf f _ a | .decfsz f _ a | .dcfsnz f _ a | .incf f _ a
  | .incfsz f _ a | .infsnz f _ a | .iorwf f _ a | .movf f _ a | .rlcf f _ a | .rlncf f _ a | .rrcf f _ a | .rrncf f _ a
  | .subfwb f _ a | .subwf f _ a | .subwfb f _ a | .swapf f _ a | .xorwf f _ a => some (.whole, f, a)
  | .cpfseq f a | .cpfsgt f a | .cpfslt f a | .mulwf f a | .negf f a | .tstfsz f a => some (.whole, f, a)
  | .bcf f b a | .bsf f b a | .btfsc f b a | .btfss f b a | .btg f b a => some (.bit b, f, a)
  | _ => none

/-- The operand in data memory that an instruction writes through `f` and `a`: with `d` = 1, or where its rule says so. -/
def writesOperand : Instr → Option (BytePart × Byte × Acc)
  | .addwf f .f a | .addwfc f .f a | .andwf f .f a | .comf f .f a | .decf f .f a | .decfsz f .f a | .dcfsnz f .f a
  | .incf f .f a | .incfsz f .f a | .infsnz f .f a | .iorwf f .f a | .movf f .f a | .rlcf f .f a | .rlncf f .f a
  | .rrcf f .f a | .rrncf f .f a | .subfwb f .f a | .subwf f .f a | .subwfb f .f a | .swapf f .f a | .xorwf f .f a =>
    some (.whole, f, a)
  | .negf f a | .clrf f a | .movwf f a | .setf f a => some (.whole, f, a)
  | .bcf f b a | .bsf f b a | .btg f b a => some (.bit b, f, a)
  | _ => none

/-- The data address an instruction reads. -/
def loadAt (s : State) (i : Instr) : Option DAddr :=
  match i with
  | .movff fs _ => some fs
  | _ => (readsOperand i).map fun (_, f, a) => s.ea f a

/-- The data address an instruction stores to, computed before the instruction changes anything. -/
def storeAt (s : State) (i : Instr) : Option DAddr :=
  match i with
  | .movff _ fd => some fd
  | _ => (writesOperand i).map fun (_, f, a) => s.ea f a

/-- The bits a special-function register holds of a byte written to it (20_memory.md R65). -/
def heldBits : Sfr → Byte
  | .tosu | .tblptru | .pclatu | .status => 0x1F
  | .fsr0h | .fsr1h | .fsr2h | .bsr => 0x0F
  | .stkptr | .indirect => 0x00
  | _ => 0xFF

end Sys2Proof.Claims

open Sys2Proof Sys2Proof.Machine Sys2Proof.Claims

/-! ## Encoding -/

/-- Decoding the encoding of a well-formed instruction gives it back, with every operand at every value
(30_encoding.md R91, R92, R101). -/
def Obligations.DecodeEncode : Prop :=
  ∀ (i : Instr) (rest : List Byte), i.wellFormed = true → decode (encode i ++ rest) = .ok i

/-- What the decoder accepts is the encoding of the instruction it answers, bit for bit: each word has one meaning. -/
def Obligations.EncodeDecode : Prop :=
  ∀ (bytes : List Byte) (i : Instr), decode bytes = .ok i → i.wellFormed = true ∧ ∃ rest, bytes = encode i ++ rest

/-- The decoder answers an instruction exactly when the words carry its row's match bits under its row's masks (R101) and
its fields are the words' bits that R92 names. -/
def Obligations.DecodesExactlyTheTable : Prop :=
  ∀ (w1 w2 : BitVec 16) (rest : List Byte) (i : Instr),
    decode ([low w1, high w1, low w2, high w2] ++ rest) = .ok i ↔
      (w1 &&& (rowOf i).mask = (rowOf i).val ∧ (∀ v m, (rowOf i).second = some (v, m) → w2 &&& m = v) ∧
        fieldsOf w1 w2 i ∧ i.wellFormed = true)

/-- Which first words belong to no instruction (30_encoding.md R99), that executing one faults (the spec's decision D10), and
`lfsr` with f = 3 (D12); log 29. -/
def Obligations.UnassignedEncodings : Prop :=
  (∀ (w : BitVec 16) (rest : List Byte), decode ([low w, high w] ++ rest) = .error .unassignedEncoding ↔ unassigned w) ∧
  (∀ (k : BitVec 4) (lo2 : Byte) (rest : List Byte),
    decode ([0b0011#4 ++ k, 0xEE#8, lo2, 0xF0#8] ++ rest) = .error .reservedEncoding) ∧
  (∀ s : State, s.Executes → inProgram s s.pc → unassigned (wordAt s s.pc) → step s = .fault .unassignedEncoding)

/-- The second word of a two-word instruction, and the same bits met as a first word (30_encoding.md R94). That a bad second
word faults is the spec's decision D11 (log 29). -/
def Obligations.SecondWords : Prop :=
  (∀ (w1 w2 : BitVec 16) (rest : List Byte), twoWords w1 → badSecond w1 w2 →
    decode ([low w1, high w1, low w2, high w2] ++ rest) = .error .badSecondWord) ∧
  (∀ (w1 w2 : BitVec 16) (rest : List Byte), twoWords w1 → ¬ badSecond w1 w2 →
    ¬ (lfsrWord w1 ∧ w1.extractLsb' 4 2 = 3#2) →
    ∃ i, decode ([low w1, high w1, low w2, high w2] ++ rest) = .ok i ∧ (encode i).length = 4) ∧
  (∀ s : State, s.Executes → inProgram s s.pc → inProgram s (s.pc + 2) → twoWords (wordAt s s.pc) →
    badSecond (wordAt s s.pc) (wordAt s (s.pc + 2)) → step s = .fault .badSecondWord) ∧
  (∀ s : State, s.Executes → inProgram s s.pc → (wordAt s s.pc).extractLsb' 12 4 = 0xF#4 →
    step s = .next { s.arrive with pc := s.pc + 2 })

/-- A few words written out from R101 and R102 decode to the instructions they stand for. -/
def Obligations.SampleWords : Prop :=
  reads [0x84#8, 0x0E#8] (.movlw 0x84) ∧ reads [0x25#8, 0x88#8] (.bsf 0x25 4 .access) ∧
  reads [0x20#8, 0xC1#8, 0x45#8, 0xF2#8] (.movff 0x120 0x245) ∧ reads [0x00#8, 0xED#8, 0x01#8, 0xF0#8] (.call 0x100 true) ∧
  reads [0x23#8, 0xEE#8, 0xAB#8, 0xF0#8] (.lfsr 2 0x3AB) ∧ reads [0xFF#8, 0xD7#8] (.bra 0x7FF) ∧
  reads [0x09#8, 0x00#8] .tblrdPostInc ∧ reads [0x32#8, 0x25#8] (.addwf 0x32 .w .banked)

/-! ## The step -/

/-- A step runs the decoded instruction: on a running core where no event acts, the step is `exec` of the instruction at PC
at the state in which the boundary's input has arrived, which is the state itself where none is scheduled. -/
def Obligations.StepRunsTheDecodedInstruction : Prop :=
  (∀ (s : State) (i : Instr), s.Executes → decode s.fetchBytes = .ok i → step s = exec i s.arrive) ∧
  (∀ s : State, s.inputs = [] → s.arrive = s) ∧
  (∀ s : State, inProgram s s.pc → inProgram s (s.pc + 2) →
    s.fetchBytes =
      [low (wordAt s s.pc), high (wordAt s s.pc), low (wordAt s (s.pc + 2)), high (wordAt s (s.pc + 2))]) ∧
  (∀ s : State, inProgram s s.pc → ¬ inProgram s (s.pc + 2) →
    s.fetchBytes = [low (wordAt s s.pc), high (wordAt s s.pc)])

/-- A fetch of either word outside implemented program memory faults (20_memory.md R71, 60_exceptions.md R263):
the spec's decision D5 (log 29). -/
def Obligations.FetchOutsideProgramFaults : Prop :=
  (∀ s : State, s.Executes → ¬ inProgram s s.pc → step s = .fault .fetchOutsideProgram) ∧
  (∀ s : State, s.Executes → inProgram s s.pc → twoWords (wordAt s s.pc) → ¬ inProgram s (s.pc + 2) →
    step s = .fault .fetchOutsideProgram)

/-- A configuration with XINST = 1 is refused at every step (00_scope.md R3): the spec's decision D1 (log 23). -/
def Obligations.ExtendedModeRefused : Prop := ∀ s : State, s.cfg.xinst = true → step s = .refused .extendedMode

/-! ## Data memory and the registers mapped into it -/

/-- R62: the effective address, in integers. -/
def Obligations.EffectiveAddress : Prop :=
  ∀ (s : State) (f : Byte),
    (s.ea f .banked).toNat = 256 * s.bsr.toNat + f.toNat ∧
    (f.toNat < s.cfg.accessSplit.toNat → (s.ea f .access).toNat = f.toNat) ∧
    (s.cfg.accessSplit.toNat ≤ f.toNat → (s.ea f .access).toNat = 256 * s.cfg.accessSfrBank.toNat + f.toNat)

/-- Where every data address leads under the default parameters (10_state.md R45, 20_memory.md R75), which
the spec gives as general knowledge (log 9). -/
def Obligations.DefaultAddressMap : Prop :=
  (∀ a : DAddr, a.toNat ≤ 0x5FF → Params.place defaultParams a = .ram) ∧
  (∀ a : DAddr, 0x600 ≤ a.toNat → a.toNat < 0xF60 → Params.place defaultParams a = .unimplemented) ∧
  (∀ a : DAddr, 0xF60 ≤ a.toNat → a.toNat < 0xFD0 → Params.place defaultParams a = .peripheral) ∧
  (∀ a : DAddr, 0xFD1 ≤ a.toNat → a.toNat ≤ 0xFD7 → Params.place defaultParams a = .peripheral) ∧
  ([0xFF1#12, 0xFF0#12].map (Params.place defaultParams) = [.peripheral, .peripheral]) ∧
  ([0xFEF#12, 0xFEE#12, 0xFED#12, 0xFEC#12, 0xFEB#12, 0xFE7#12, 0xFE6#12, 0xFE5#12, 0xFE4#12, 0xFE3#12, 0xFDF#12, 0xFDE#12,
    0xFDD#12, 0xFDC#12, 0xFDB#12].all (fun a => Params.place defaultParams a == .sfr .indirect) = true) ∧
  ([0xFFF#12, 0xFFE#12, 0xFFD#12, 0xFFC#12, 0xFFB#12, 0xFFA#12, 0xFF9#12, 0xFF8#12, 0xFF7#12, 0xFF6#12, 0xFF5#12, 0xFF4#12,
    0xFF3#12, 0xFF2#12].map (Params.place defaultParams) =
    [.sfr .tosu, .sfr .tosh, .sfr .tosl, .sfr .stkptr, .sfr .pclatu, .sfr .pclath, .sfr .pcl, .sfr .tblptru, .sfr .tblptrh,
     .sfr .tblptrl, .sfr .tablat, .sfr .prodh, .sfr .prodl, .sfr .intcon]) ∧
  ([0xFEA#12, 0xFE9#12, 0xFE8#12, 0xFE2#12, 0xFE1#12, 0xFE0#12, 0xFDA#12, 0xFD9#12, 0xFD8#12, 0xFD0#12].map
      (Params.place defaultParams) =
    [.sfr .fsr0h, .sfr .fsr0l, .sfr .wreg, .sfr .fsr1h, .sfr .fsr1l, .sfr .bsr, .sfr .fsr2h, .sfr .fsr2l, .sfr .status,
     .sfr .rcon])

/-- What a read and a write of a data address do, by where it leads (20_memory.md R64, R65, 60_exceptions.md R261). The
faults and refusals are the spec's decisions D6, D7, D34 and D8 (log 18, log 29); that the refusal of the unmodelled bits of
INTCON and RCON goes bit by bit is the model's reading of D7 (log 7); that R261's StackUnderflow comes before the value R49
gives the empty TOS is its reading too (log 12). -/
def Obligations.DataAccess : Prop :=
  ∀ (s : State) (x : DAddr) (v : Byte),
    (s.place x = .ram → s.memRead x = .next (s.ram.read x.toNat, s) ∧
      s.memWrite x v = .next { s with ram := s.ram.write x.toNat v }) ∧
    (s.place x = .unimplemented → s.memRead x = .fault .unimplementedData ∧ s.memWrite x v = .fault .unimplementedData) ∧
    (s.place x = .peripheral → s.memRead x = .refused .peripheralRegister ∧ s.memWrite x v = .refused .peripheralRegister) ∧
    (s.place x = .sfr .indirect → s.memRead x = .refused .indirectAddressing ∧ s.memWrite x v = .refused .indirectAddressing) ∧
    (s.place x = .sfr .stkptr →
      s.memRead x = .refused .stackPointerRegister ∧ s.memWrite x v = .refused .stackPointerRegister) ∧
    (∀ r ∈ [Sfr.tosu, Sfr.tosh, Sfr.tosl], s.place x = .sfr r → s.stack = [] →
      s.memRead x = .fault .stackUnderflow ∧ s.memWrite x v = .fault .stackUnderflow ∧
      ∀ (d : Dir) (p : BytePart), s.accessStop d p x = some (.fault .stackUnderflow)) ∧
    (∀ r ∈ [Sfr.intcon, Sfr.rcon], s.place x = .sfr r →
      s.memRead x = .refused .unmodelledBits ∧ s.memWrite x v = .refused .unmodelledBits) ∧
    (∀ (d : Dir) (b : BitVec 3), s.place x = .sfr .intcon →
      s.accessStop d (.bit b) x = if b = 7 ∨ b = 6 then none else some (.refused .unmodelledBits)) ∧
    (∀ (d : Dir) (b : BitVec 3), s.place x = .sfr .rcon →
      s.accessStop d (.bit b) x = if b = 3 ∨ b = 2 then none else some (.refused .unmodelledBits)) ∧
    (s.Accessible .read .whole x → s.memRead x = .next (s.peek x, s.afterRead x)) ∧
    (s.Accessible .write .whole x → s.memWrite x v = .next (s.poke x v)) ∧
    (∀ (d : Dir) (p : BytePart), s.place x = .ram → s.Accessible d p x) ∧
    (∀ (d : Dir) (p : BytePart) (r : Sfr), s.place x = .sfr r → r ∉ [Sfr.stkptr, Sfr.indirect, Sfr.intcon, Sfr.rcon] →
      (r ∈ [Sfr.tosu, Sfr.tosh, Sfr.tosl] → s.stack ≠ []) → s.Accessible d p x)

/-- A byte of general-purpose memory reads as what was last written to it, and a write changes no other byte
(20_memory.md R64, R65, R77). -/
def Obligations.MemoryReadsBack : Prop :=
  ∀ (s : State) (x : DAddr) (v : Byte), s.Inv → s.place x = .ram →
    (s.poke x v).peek x = v ∧
    (∀ y, y ≠ x → s.place y = .ram → (s.poke x v).peek y = s.peek y) ∧
    (∀ y r, s.place y = .sfr r → (s.poke x v).peek y = s.peek y) ∧
    (s.poke x v).Inv

/-- What a read of each mapped register returns (10_state.md R27, R30, R33, R35, R37, R45), under the default map; of INTCON
and RCON only the modelled bits, which bit instructions reach (log 7); of the empty TOS the value R49 gives it, 0, which an
access faults before it sees (log 12). The map and the layouts are the spec's general knowledge (log 9, log 29). -/
def Obligations.RegistersReadThroughTheirAddresses : Prop :=
  ∀ s : State, s.cfg = defaultParams →
    (∀ x xs, s.stack = x :: xs → (s.peek 0xFFF).toNat = x.toNat / 65536 ∧ (s.peek 0xFFE).toNat = x.toNat / 256 % 256 ∧
      (s.peek 0xFFD).toNat = x.toNat % 256) ∧
    (s.stack = [] → s.peek 0xFFF = 0 ∧ s.peek 0xFFE = 0 ∧ s.peek 0xFFD = 0) ∧
    (s.peek 0xFFB).toNat = s.pclatu.toNat ∧ s.peek 0xFFA = s.pclath ∧ (s.peek 0xFF9).toNat = (s.pc + 2).toNat % 256 ∧
    (s.peek 0xFF8).toNat = s.tblptr.toNat / 65536 ∧ (s.peek 0xFF7).toNat = s.tblptr.toNat / 256 % 256 ∧
    (s.peek 0xFF6).toNat = s.tblptr.toNat % 256 ∧ s.peek 0xFF5 = s.tablat ∧ s.peek 0xFF4 = s.prodh ∧ s.peek 0xFF3 = s.prodl ∧
    (s.peek 0xFF2).getLsbD 7 = s.gieh ∧ (s.peek 0xFF2).getLsbD 6 = s.giel ∧ s.peek 0xFE8 = s.w ∧
    (s.peek 0xFEA).toNat = s.fsr0.toNat / 256 ∧ (s.peek 0xFE9).toNat = s.fsr0.toNat % 256 ∧
    (s.peek 0xFE2).toNat = s.fsr1.toNat / 256 ∧ (s.peek 0xFE1).toNat = s.fsr1.toNat % 256 ∧
    (s.peek 0xFDA).toNat = s.fsr2.toNat / 256 ∧ (s.peek 0xFD9).toNat = s.fsr2.toNat % 256 ∧
    (s.peek 0xFE0).toNat = s.bsr.toNat ∧
    (s.peek 0xFD8).toNat = s.flags.c.toNat + 2 * s.flags.dc.toNat + 4 * s.flags.z.toNat + 8 * s.flags.ov.toNat +
      16 * s.flags.n.toNat ∧
    (s.peek 0xFD0).getLsbD 3 = s.toBit ∧ (s.peek 0xFD0).getLsbD 2 = s.pdBit

/-- A register narrower than 8 bits drops the upper bits of a byte written to it (R65); the rest reads back, and no other
mapped register reads otherwise. Of INTCON and RCON a bit instruction writes the modelled bits (log 7; that a write of RCON
writes TO and PD is the model's reading, log 13). -/
def Obligations.RegisterWritesReadBack : Prop :=
  (∀ (s : State) (x : DAddr) (r : Sfr) (v : Byte), s.place x = .sfr r →
    s.Accessible .write .whole x → r ≠ .pcl → (s.poke x v).peek x = v &&& heldBits r) ∧
  (∀ (s : State) (x : DAddr) (v : Byte), s.place x = .sfr .intcon →
    (s.poke x v).gieh = v.getLsbD 7 ∧ (s.poke x v).giel = v.getLsbD 6) ∧
  (∀ (s : State) (x : DAddr) (v : Byte), s.place x = .sfr .rcon →
    (s.poke x v).toBit = v.getLsbD 3 ∧ (s.poke x v).pdBit = v.getLsbD 2) ∧
  (∀ (s : State) (x y : DAddr) (r q : Sfr) (v : Byte), s.place x = .sfr r → s.place y = .sfr q → q ≠ r →
    (s.poke x v).peek y = s.peek y)

/-- The PCL mechanism of 10_state.md R27, the spec's general knowledge (log 29): what a read latches and where a write goes.
That a write replaces the instruction's own advance is the model's reading (log 10). -/
def Obligations.ProgramCounterThroughPcl : Prop :=
  ∀ (s : State) (x : DAddr) (v : Byte), s.place x = .sfr .pcl →
    s.memRead x = .next (BitVec.ofNat 8 (s.pc + 2).toNat,
      { s with pclath := BitVec.ofNat 8 ((s.pc + 2).toNat / 256), pclatu := BitVec.ofNat 5 ((s.pc + 2).toNat / 65536) }) ∧
    s.memWrite x v =
      .next { s with pc := BitVec.ofNat 21 (65536 * s.pclatu.toNat + 256 * s.pclath.toNat + 2 * (v.toNat / 2)) }

/-- An instruction whose operand's access stops, stops the same way (41_byte_oriented.md R120); `movff` meets its source
before its destination (60_exceptions.md R263). -/
def Obligations.OperandStops : Prop :=
  (∀ (i : Instr) (s : State) (p : BytePart) (f : Byte) (a : Acc) (e : Stop), readsOperand i = some (p, f, a) →
    s.accessStop .read p (s.ea f a) = some e → exec i s = e.out) ∧
  (∀ (i : Instr) (s : State) (p : BytePart) (f : Byte) (a : Acc) (e : Stop), writesOperand i = some (p, f, a) →
    s.accessStop .write p (s.ea f a) = some e → exec i s = e.out) ∧
  (∀ (s : State) (fs fd : DAddr) (e : Stop), (∀ r ∈ [Sfr.pcl, Sfr.tosu, Sfr.tosh, Sfr.tosl], s.place fd ≠ .sfr r) →
    s.accessStop .read .whole fs = some e → exec (.movff fs fd) s = e.out) ∧
  (∀ (s : State) (fs fd : DAddr) (e : Stop), (∀ r ∈ [Sfr.pcl, Sfr.tosu, Sfr.tosh, Sfr.tosl], s.place fd ≠ .sfr r) →
    s.Accessible .read .whole fs → s.accessStop .write .whole fd = some e → exec (.movff fs fd) s = e.out)

/-! ## Byte-oriented instructions -/

/-- `Add8` and `Sub8` are the exact sum and difference with their flags (41_byte_oriented.md R122, R123). The DC and OV
formulas are the spec's general knowledge (decisions D13, D14; log 29). -/
def Obligations.AluIsExact : Prop :=
  (∀ (x y : Byte) (c : Bool), SumOf x y c (add8 x y c).1 (add8 x y c).2) ∧
  (∀ (x y : Byte) (b : Bool), DiffOf x y b (sub8 x y b).1 (sub8 x y b).2)

/-- `addwf`, `addwfc`, `incf`, `negf` (R125, R126, R136, R144) and `addlw` (R221). DC and OV rest on the spec's
general knowledge (D13, D14; log 29). With destination PCL the write sets PC and the advance falls away (R27, D27; log 10). -/
def Obligations.AdditionInstructions : Prop :=
  readsDa 0b001001#6 .addwf ∧ readsDa 0b001000#6 .addwfc ∧ readsDa 0b001010#6 .incf ∧ readsA 0b0110110#7 .negf ∧
  readsLow 0b00001111#8 .addlw ∧
  (∀ (s : State) (f : Byte) (d : Dst) (a : Acc), s.Accessible d.dir .whole (s.ea f a) →
    (∃ r fl, SumOf s.w (operand s f a) false r fl ∧ exec (.addwf f d a) s = .next ((stored s f d a r 2).setFlags fl)) ∧
    (∃ r fl, SumOf s.w (operand s f a) s.flags.c r fl ∧ exec (.addwfc f d a) s = .next ((stored s f d a r 2).setFlags fl)) ∧
    (∃ r fl, SumOf (operand s f a) 1 false r fl ∧ exec (.incf f d a) s = .next ((stored s f d a r 2).setFlags fl))) ∧
  (∀ (s : State) (f : Byte) (a : Acc), s.Accessible .write .whole (s.ea f a) →
    (∃ r fl, SumOf (~~~ operand s f a) 0 true r fl ∧ exec (.negf f a) s = .next ((stored s f .f a r 2).setFlags fl))) ∧
  (∀ (s : State) (k : Byte), ∃ r fl, SumOf s.w k false r fl ∧
    exec (.addlw k) s = .next { s with w := r, flags := fl, pc := s.pc + 2 })

/-- `decf`, `subfwb`, `subwf`, `subwfb` (R133, R150, R151, R152) and `sublw` (R229). DC and OV rest on the spec's
general knowledge (D13, D14; log 29). With destination PCL the write sets PC and the advance falls away (R27, D27; log 10). -/
def Obligations.SubtractionInstructions : Prop :=
  readsDa 0b000001#6 .decf ∧ readsDa 0b010101#6 .subfwb ∧ readsDa 0b010111#6 .subwf ∧ readsDa 0b010110#6 .subwfb ∧
  readsLow 0b00001000#8 .sublw ∧
  (∀ (s : State) (f : Byte) (d : Dst) (a : Acc), s.Accessible d.dir .whole (s.ea f a) →
    (∃ r fl, DiffOf (operand s f a) 1 false r fl ∧ exec (.decf f d a) s = .next ((stored s f d a r 2).setFlags fl)) ∧
    (∃ r fl, DiffOf s.w (operand s f a) (!s.flags.c) r fl ∧
      exec (.subfwb f d a) s = .next ((stored s f d a r 2).setFlags fl)) ∧
    (∃ r fl, DiffOf (operand s f a) s.w false r fl ∧ exec (.subwf f d a) s = .next ((stored s f d a r 2).setFlags fl)) ∧
    (∃ r fl, DiffOf (operand s f a) s.w (!s.flags.c) r fl ∧
      exec (.subwfb f d a) s = .next ((stored s f d a r 2).setFlags fl))) ∧
  (∀ (s : State) (k : Byte), ∃ r fl, DiffOf k s.w false r fl ∧
    exec (.sublw k) s = .next { s with w := r, flags := fl, pc := s.pc + 2 })

/-- `andwf`, `comf`, `iorwf`, `movf`, `xorwf` (R127, R129, R139, R140, R155), bit by bit. With destination
PCL the write sets PC and the rules' `pc <- PC + 2` falls away: the model's reading (R27, decision D27; log 10). -/
def Obligations.LogicInstructions : Prop :=
  readsDa 0b000101#6 .andwf ∧ readsDa 0b000111#6 .comf ∧ readsDa 0b000100#6 .iorwf ∧ readsDa 0b010100#6 .movf ∧
  readsDa 0b000110#6 .xorwf ∧
  ∀ (s : State) (f : Byte) (d : Dst) (a : Acc), s.Accessible d.dir .whole (s.ea f a) →
    (∃ r fl, (∀ j < 8, r.getLsbD j = (s.w.getLsbD j && (operand s f a).getLsbD j)) ∧ ZnOf (stored s f d a r 2).flags r fl ∧
      exec (.andwf f d a) s = .next ((stored s f d a r 2).setFlags fl)) ∧
    (∃ r fl, (∀ j < 8, r.getLsbD j = !(operand s f a).getLsbD j) ∧ ZnOf (stored s f d a r 2).flags r fl ∧
      exec (.comf f d a) s = .next ((stored s f d a r 2).setFlags fl)) ∧
    (∃ r fl, (∀ j < 8, r.getLsbD j = (s.w.getLsbD j || (operand s f a).getLsbD j)) ∧ ZnOf (stored s f d a r 2).flags r fl ∧
      exec (.iorwf f d a) s = .next ((stored s f d a r 2).setFlags fl)) ∧
    (∃ r fl, r = operand s f a ∧ ZnOf (stored s f d a r 2).flags r fl ∧
      exec (.movf f d a) s = .next ((stored s f d a r 2).setFlags fl)) ∧
    (∃ r fl, (∀ j < 8, r.getLsbD j = (s.w.getLsbD j ^^ (operand s f a).getLsbD j)) ∧
      ZnOf (stored s f d a r 2).flags r fl ∧ exec (.xorwf f d a) s = .next ((stored s f d a r 2).setFlags fl))

/-- `rlcf`, `rrcf` through C, and `rlncf`, `rrncf` not through it (R145 to R148), in integers. With destination PCL the write sets
PC and the rules' `pc <- PC + 2` falls away: the model's reading (R27, decision D27; log 10). -/
def Obligations.RotateInstructions : Prop :=
  readsDa 0b001101#6 .rlcf ∧ readsDa 0b001100#6 .rrcf ∧ readsDa 0b010001#6 .rlncf ∧ readsDa 0b010000#6 .rrncf ∧
  ∀ (s : State) (f : Byte) (d : Dst) (a : Acc), s.Accessible d.dir .whole (s.ea f a) →
    (∃ r c fl, 256 * Bool.toNat c + r.toNat = 2 * (operand s f a).toNat + s.flags.c.toNat ∧
      CznOf (stored s f d a r 2).flags r c fl ∧ exec (.rlcf f d a) s = .next ((stored s f d a r 2).setFlags fl)) ∧
    (∃ r c fl, 2 * r.toNat + Bool.toNat c = 256 * s.flags.c.toNat + (operand s f a).toNat ∧
      CznOf (stored s f d a r 2).flags r c fl ∧ exec (.rrcf f d a) s = .next ((stored s f d a r 2).setFlags fl)) ∧
    (∃ r fl, r.toNat = 2 * (operand s f a).toNat % 256 + (operand s f a).toNat / 128 ∧
      ZnOf (stored s f d a r 2).flags r fl ∧ exec (.rlncf f d a) s = .next ((stored s f d a r 2).setFlags fl)) ∧
    (∃ r fl, r.toNat = (operand s f a).toNat / 2 + 128 * ((operand s f a).toNat % 2) ∧
      ZnOf (stored s f d a r 2).flags r fl ∧ exec (.rrncf f d a) s = .next ((stored s f d a r 2).setFlags fl))

/-- `decfsz`, `dcfsnz`, `incfsz`, `infsnz` (R134, R135, R137, R138): the count, and PC + 4 when the condition holds.
With destination PCL the write sets PC and nothing is added for the skip: the spec says nothing of that form, and this is
the model's choice (log 10, DEDUCED, unsafe). -/
def Obligations.CountAndSkipInstructions : Prop :=
  readsDa 0b001011#6 .decfsz ∧ readsDa 0b010011#6 .dcfsnz ∧ readsDa 0b001111#6 .incfsz ∧ readsDa 0b010010#6 .infsnz ∧
  ∀ (s : State) (f : Byte) (d : Dst) (a : Acc), s.Accessible d.dir .whole (s.ea f a) →
    (∃ r, r.toNat = ((operand s f a).toNat + 255) % 256 ∧
      exec (.decfsz f d a) s = .next (stored s f d a r (if r = 0 then 4 else 2)) ∧
      exec (.dcfsnz f d a) s = .next (stored s f d a r (if r = 0 then 2 else 4))) ∧
    (∃ r, r.toNat = ((operand s f a).toNat + 1) % 256 ∧
      exec (.incfsz f d a) s = .next (stored s f d a r (if r = 0 then 4 else 2)) ∧
      exec (.infsnz f d a) s = .next (stored s f d a r (if r = 0 then 2 else 4)))

/-- `cpfseq`, `cpfsgt`, `cpfslt`, `tstfsz` (R130, R131, R132, R154): nothing but PC changes (and what a read of PCL
latches). That the order of `cpfsgt` and `cpfslt` is unsigned is the spec's decision D15 (log 29). -/
def Obligations.CompareAndSkipInstructions : Prop :=
  readsA 0b0110001#7 .cpfseq ∧ readsA 0b0110010#7 .cpfsgt ∧ readsA 0b0110000#7 .cpfslt ∧ readsA 0b0110011#7 .tstfsz ∧
  ∀ (s : State) (f : Byte) (a : Acc), s.Accessible .read .whole (s.ea f a) →
    exec (.cpfseq f a) s = .next (tested s f a (if operand s f a = s.w then 4 else 2)) ∧
    exec (.cpfsgt f a) s = .next (tested s f a (if (operand s f a).toNat > s.w.toNat then 4 else 2)) ∧
    exec (.cpfslt f a) s = .next (tested s f a (if (operand s f a).toNat < s.w.toNat then 4 else 2)) ∧
    exec (.tstfsz f a) s = .next (tested s f a (if operand s f a = 0 then 4 else 2))

/-- `clrf`, `setf`, `movwf` (R128, R149, R142): the operand is written and not read (the spec's decision D31,
log 29); `clrf` sets Z. At PCL the write sets PC and the advance falls away (R27, D27; log 10). -/
def Obligations.OverwritingInstructions : Prop :=
  readsA 0b0110101#7 .clrf ∧ readsA 0b0110100#7 .setf ∧ readsA 0b0110111#7 .movwf ∧
  ∀ (s : State) (f : Byte) (a : Acc), s.Accessible .write .whole (s.ea f a) →
    (∃ fl, fl.z = true ∧ fl.n = (overwritten s f a 0).flags.n ∧ fl.c = (overwritten s f a 0).flags.c ∧
      fl.dc = (overwritten s f a 0).flags.dc ∧ fl.ov = (overwritten s f a 0).flags.ov ∧
      exec (.clrf f a) s = .next ((overwritten s f a 0).setFlags fl)) ∧
    exec (.setf f a) s = .next (overwritten s f a 0xFF) ∧
    exec (.movwf f a) s = .next (overwritten s f a s.w)

/-- `swapf` (R153): the nibbles change places, and no flag is written. With destination PCL the write sets PC and the
rule's `pc <- PC + 2` falls away: the model's reading (R27, decision D27; log 10). -/
def Obligations.SwapNibbles : Prop :=
  readsDa 0b001110#6 .swapf ∧
  ∀ (s : State) (f : Byte) (d : Dst) (a : Acc), s.Accessible d.dir .whole (s.ea f a) →
    ∃ r, r.toNat = 16 * ((operand s f a).toNat % 16) + (operand s f a).toNat / 16 ∧
      exec (.swapf f d a) s = .next (stored s f d a r 2)

/-- `mulwf` (R143) and `mullw` (R227): the 16-bit unsigned product. -/
def Obligations.MultiplyInstructions : Prop :=
  readsA 0b0000001#7 .mulwf ∧ readsLow 0b00001101#8 .mullw ∧
  (∀ (s : State) (f : Byte) (a : Acc), s.Accessible .read .whole (s.ea f a) →
    ∃ h l, 256 * h.toNat + l.toNat = s.w.toNat * (operand s f a).toNat ∧
      exec (.mulwf f a) s = .next { tested s f a 2 with prodh := h, prodl := l }) ∧
  (∀ (s : State) (k : Byte), ∃ h l, 256 * h.toNat + l.toNat = s.w.toNat * k.toNat ∧
    exec (.mullw k) s = .next { s with prodh := h, prodl := l, pc := s.pc + 2 })

/-- `movff` (R141): the byte at the source goes to the destination; four destinations are forbidden, and that one of them
faults is the spec's decision D29 (log 29). INTCON and RCON are no accessible destinations (D7; log 7), so the move that
70_reset_and_hazards.md R303 warns of does not complete (log 17). -/
def Obligations.MoveBetweenRegisters : Prop :=
  (∀ fs fd : DAddr,
    reads [fs.extractLsb' 0 8, 0b1100#4 ++ fs.extractLsb' 8 4, fd.extractLsb' 0 8, 0b1111#4 ++ fd.extractLsb' 8 4]
      (.movff fs fd)) ∧
  (∀ hi : BitVec 4, needsSecond (0b1100#4 ++ hi) notSecond) ∧
  (∀ (s : State) (fs fd : DAddr), (∀ r ∈ [Sfr.pcl, Sfr.tosu, Sfr.tosh, Sfr.tosl], s.place fd ≠ .sfr r) →
    s.Accessible .read .whole fs → s.Accessible .write .whole fd →
    exec (.movff fs fd) s = .next (((s.afterRead fs).advance 4).poke fd (s.peek fs))) ∧
  (∀ (s : State) (fs fd : DAddr) (r : Sfr), r ∈ [Sfr.pcl, Sfr.tosu, Sfr.tosh, Sfr.tosl] → s.place fd = .sfr r →
    exec (.movff fs fd) s = .fault .movffForbiddenDest)

/-! ## Bit-oriented instructions -/

/-- `bcf`, `bsf`, `btg` (42_bit_oriented.md R171, R172, R175): bit b changes, the other seven are written back as
read. Of INTCON and RCON only the modelled bits are accessible, and of the bits written back with them only those count
(log 7). At PCL the write sets PC and the rules' `pc <- PC + 2` falls away: the model's reading (R27, decision D27; log 10). -/
def Obligations.BitWritingInstructions : Prop :=
  readsBit 0b1001#4 .bcf ∧ readsBit 0b1000#4 .bsf ∧ readsBit 0b0111#4 .btg ∧
  ∀ (s : State) (f : Byte) (b : BitVec 3) (a : Acc), s.Accessible .write (.bit b) (s.ea f a) →
    (∃ r, (∀ j < 8, r.getLsbD j = if j = b.toNat then false else (operand s f a).getLsbD j) ∧
      exec (.bcf f b a) s = .next (stored s f .f a r 2)) ∧
    (∃ r, (∀ j < 8, r.getLsbD j = if j = b.toNat then true else (operand s f a).getLsbD j) ∧
      exec (.bsf f b a) s = .next (stored s f .f a r 2)) ∧
    (∃ r, (∀ j < 8, r.getLsbD j = if j = b.toNat then !(operand s f a).getLsbD j else (operand s f a).getLsbD j) ∧
      exec (.btg f b a) s = .next (stored s f .f a r 2))

/-- `btfsc`, `btfss` (R173, R174): skip by the value of one bit. Of INTCON and RCON only the modelled bits are accessible: the
model's reading of D7 (log 7). -/
def Obligations.BitTestingInstructions : Prop :=
  readsBit 0b1011#4 .btfsc ∧ readsBit 0b1010#4 .btfss ∧
  ∀ (s : State) (f : Byte) (b : BitVec 3) (a : Acc), s.Accessible .read (.bit b) (s.ea f a) →
    exec (.btfsc f b a) s = .next (tested s f a (if (operand s f a).toNat / 2 ^ b.toNat % 2 = 0 then 4 else 2)) ∧
    exec (.btfss f b a) s = .next (tested s f a (if (operand s f a).toNat / 2 ^ b.toNat % 2 = 1 then 4 else 2))

/-! ## Control instructions -/

/-- The eight conditional branches (43_control.md R181 to R187, R189): only PC changes. That the target is
reduced mod 2^21 is the spec's decision D9 (log 29). -/
def Obligations.ConditionalBranches : Prop :=
  readsLow 0b11100010#8 .bc ∧ readsLow 0b11100110#8 .bn ∧ readsLow 0b11100011#8 .bnc ∧ readsLow 0b11100111#8 .bnn ∧
  readsLow 0b11100101#8 .bnov ∧ readsLow 0b11100001#8 .bnz ∧ readsLow 0b11100100#8 .bov ∧ readsLow 0b11100000#8 .bz ∧
  ∀ (s : State) (n : Byte),
    exec (.bc n) s = .next { s with pc := if s.flags.c = true then branchTarget s.pc n.toInt else s.pc + 2 } ∧
    exec (.bn n) s = .next { s with pc := if s.flags.n = true then branchTarget s.pc n.toInt else s.pc + 2 } ∧
    exec (.bnc n) s = .next { s with pc := if s.flags.c = false then branchTarget s.pc n.toInt else s.pc + 2 } ∧
    exec (.bnn n) s = .next { s with pc := if s.flags.n = false then branchTarget s.pc n.toInt else s.pc + 2 } ∧
    exec (.bnov n) s = .next { s with pc := if s.flags.ov = false then branchTarget s.pc n.toInt else s.pc + 2 } ∧
    exec (.bnz n) s = .next { s with pc := if s.flags.z = false then branchTarget s.pc n.toInt else s.pc + 2 } ∧
    exec (.bov n) s = .next { s with pc := if s.flags.ov = true then branchTarget s.pc n.toInt else s.pc + 2 } ∧
    exec (.bz n) s = .next { s with pc := if s.flags.z = true then branchTarget s.pc n.toInt else s.pc + 2 }

/-- `bra` (R188) and `nop` in both encodings (R196): only PC changes. That `bra`'s target is reduced mod 2^21 is
the spec's decision D9 (log 29). -/
def Obligations.BranchAlwaysAndNop : Prop :=
  (∀ n : BitVec 11, reads [n.extractLsb' 0 8, 0b11010#5 ++ n.extractLsb' 8 3] (.bra n)) ∧
  reads [0x00#8, 0x00#8] .nop ∧ (∀ x : BitVec 12, reads [x.extractLsb' 0 8, 0b1111#4 ++ x.extractLsb' 8 4] (.nopx x)) ∧
  (∀ (s : State) (n : BitVec 11), exec (.bra n) s = .next { s with pc := branchTarget s.pc n.toInt }) ∧
  (∀ (s : State) (x : BitVec 12), exec .nop s = .next { s with pc := s.pc + 2 } ∧
    exec (.nopx x) s = .next { s with pc := s.pc + 2 })

/-- `goto` (R195), `call` (R190), `rcall` (R199) and `push` (R198): what is pushed, what is saved and where PC goes. That the
second word is checked (decision D11) and that a full stack faults (D8) are the spec's own decisions (log 29). -/
def Obligations.JumpCallsAndPush : Prop :=
  (∀ k : BitVec 20, reads [k.extractLsb' 0 8, 0b11101111#8, k.extractLsb' 8 8, 0b1111#4 ++ k.extractLsb' 16 4] (.goto k)) ∧
  needsSecond 0b11101111#8 notSecond ∧
  (∀ (k : BitVec 20) (fast : Bool),
    reads [k.extractLsb' 0 8, 0b1110110#7 ++ BitVec.ofBool fast, k.extractLsb' 8 8, 0b1111#4 ++ k.extractLsb' 16 4]
      (.call k fast)) ∧
  (∀ b : BitVec 1, needsSecond (0b1110110#7 ++ b) notSecond) ∧
  (∀ n : BitVec 11, reads [n.extractLsb' 0 8, 0b11011#5 ++ n.extractLsb' 8 3] (.rcall n)) ∧
  reads [0x05#8, 0x00#8] .push ∧
  (∀ (s : State) (k : BitVec 20), exec (.goto k) s = .next { s with pc := wordAddress k }) ∧
  (∀ (s : State) (k : BitVec 20) (fast : Bool) (n : BitVec 11), s.stack.length < s.cfg.stackDepth →
    exec (.call k fast) s = .next { withSave s fast with stack := (s.pc + 4) :: s.stack, pc := wordAddress k } ∧
    exec (.rcall n) s = .next { s with stack := (s.pc + 2) :: s.stack, pc := branchTarget s.pc n.toInt } ∧
    exec .push s = .next { s with stack := (s.pc + 2) :: s.stack, pc := s.pc + 2 }) ∧
  (∀ (s : State) (k : BitVec 20) (fast : Bool) (n : BitVec 11), s.cfg.stackDepth ≤ s.stack.length →
    exec (.call k fast) s = .fault .stackOverflow ∧ exec (.rcall n) s = .fault .stackOverflow ∧
    exec .push s = .fault .stackOverflow)

/-- `return` (R204), `retlw` (R203) and `pop` (R197): the entry popped and where it goes; with the stack empty they fault (the
spec's decision D8, log 29). PC takes the popped address; its bit 0 stays 0, so an odd entry is covered by `OddTargetsAreAligned`. -/
def Obligations.ReturnsAndPop : Prop :=
  (∀ fast : Bool, reads [0b0001001#7 ++ BitVec.ofBool fast, 0x00#8] (.ret fast)) ∧ readsLow 0b00001100#8 .retlw ∧
  reads [0x06#8, 0x00#8] .pop ∧
  (∀ (s : State) (x : PAddr) (xs : List PAddr) (fast : Bool) (k : Byte), s.stack = x :: xs → x.getLsbD 0 = false →
    exec (.ret fast) s = .next { withRestore s fast with stack := xs, pc := x } ∧
    exec (.retlw k) s = .next { s with w := k, stack := xs, pc := x }) ∧
  (∀ (s : State) (x : PAddr) (xs : List PAddr), s.stack = x :: xs →
    exec .pop s = .next { s with stack := xs, pc := s.pc + 2 }) ∧
  (∀ (s : State) (fast : Bool) (k : Byte), s.stack = [] →
    exec (.ret fast) s = .fault .stackUnderflow ∧ exec (.retlw k) s = .fault .stackUnderflow ∧
    exec .pop s = .fault .stackUnderflow)

/-- `retfie` (R202) under the default RETFIE_POLICY: the enable bit it sets (the spec's decision D21, log 29), and
what it restores. -/
def Obligations.ReturnFromInterrupt : Prop :=
  (∀ fast : Bool, reads [0b0001000#7 ++ BitVec.ofBool fast, 0x00#8] (.retfie fast)) ∧
  (∀ (s : State) (x : PAddr) (xs : List PAddr) (fast : Bool), s.cfg.retfiePolicy = .restoreCleared → s.stack = x :: xs →
    x.getLsbD 0 = false →
    exec (.retfie fast) s = .next { withRestore s fast with
      stack := xs, pc := x, gieh := true, giel := if s.gieh = false then s.giel else true }) ∧
  (∀ (s : State) (fast : Bool), s.stack = [] → exec (.retfie fast) s = .fault .stackUnderflow)

/-- The model's choices about the returns and PC: a popped entry whose bit 0 is 1, which PC takes with bit 0 cleared
(log 11), for `return`, `retlw` and `retfie` under each of the three values of RETFIE_POLICY (log 25). -/
def Obligations.OddTargetsAreAligned : Prop :=
  ∀ (s : State) (x : PAddr) (xs : List PAddr) (fast : Bool) (k : Byte), s.stack = x :: xs →
    exec (.ret fast) s =
      .next { withRestore s fast with stack := xs, pc := BitVec.ofNat 21 (2 * (x.toNat / 2)) } ∧
    exec (.retlw k) s = .next { s with w := k, stack := xs, pc := BitVec.ofNat 21 (2 * (x.toNat / 2)) } ∧
    (s.cfg.retfiePolicy = .restoreCleared → exec (.retfie fast) s = .next { withRestore s fast with
      stack := xs, pc := BitVec.ofNat 21 (2 * (x.toNat / 2)),
      gieh := true, giel := if s.gieh = false then s.giel else true }) ∧
    (s.cfg.retfiePolicy = .setGieh → exec (.retfie fast) s = .next { withRestore s fast with
      stack := xs, pc := BitVec.ofNat 21 (2 * (x.toNat / 2)), gieh := true }) ∧
    (s.cfg.retfiePolicy = .setGiel → exec (.retfie fast) s = .next { withRestore s fast with
      stack := xs, pc := BitVec.ofNat 21 (2 * (x.toNat / 2)), giel := true })

/-- `clrwdt` (R191) and `sleep` (R205). -/
def Obligations.WatchdogAndSleepInstructions : Prop :=
  reads [0x04#8, 0x00#8] .clrwdt ∧ reads [0x03#8, 0x00#8] .sleep ∧
  ∀ s : State,
    exec .clrwdt s = .next { s with wdt := 0, wdtPost := 0, toBit := true, pdBit := true, pc := s.pc + 2 } ∧
    exec .sleep s =
      .next { s with wdt := 0, wdtPost := 0, toBit := true, pdBit := false, mode := .sleeping, pc := s.pc + 2 }

/-- `daw` (R192), in integers, with the spec's reading of the low digit's carry (R193, decision D16; log 29). -/
def Obligations.DecimalAdjust : Prop :=
  reads [0x07#8, 0x00#8] .daw ∧
  ∀ s : State, ∃ lo1 hi1 : Nat, ∃ cn : Bool,
    lo1 = (if 9 < s.w.toNat % 16 ∨ s.flags.dc = true then s.w.toNat % 16 + 6 else s.w.toNat % 16) ∧
    hi1 = s.w.toNat / 16 + (if 15 < lo1 then 1 else 0) ∧
    (cn = true ↔ 9 < hi1 ∨ s.flags.c = true) ∧
    exec .daw s = .next { s with
      w := BitVec.ofNat 8 (16 * ((hi1 + if cn = true then 6 else 0) % 16) + lo1 % 16),
      flags := { s.flags with c := cn }, pc := s.pc + 2 }

/-- A packed-BCD sum followed by `daw` is the packed-BCD result, C its hundreds (R193: "un resultado correcto empaquetado en
BCD"). -/
def Obligations.DecimalAdjustCorrectsBcdSums : Prop :=
  ∀ (s : State) (k : Byte), isBcd s.w → isBcd k →
    ∃ t u, exec (.addlw k) s = .next t ∧ exec .daw t = .next u ∧ isBcd u.w ∧
      bcdValue u.w + 100 * u.flags.c.toNat = bcdValue s.w + bcdValue k

/-- `reset` (R200): the software reset, with the MCLR column of `RESET_STATE` (R291, R292), whatever it is; under the default
table, the spec's general knowledge (D22; log 2), register by register. -/
def Obligations.SoftwareReset : Prop :=
  reads [0xFF#8, 0x00#8] .reset ∧
  ∀ s : State, ∃ t, exec .reset s = .next t ∧ AfterReset s.cfg.resetState.mclr s t ∧
    (s.cfg.resetState = defaultResetState → AfterDefaultReset s t s.toBit)

/-! ## Literal instructions -/

/-- `andlw`, `iorlw`, `xorlw` (44_literal.md R222, R223, R230), bit by bit, and `movlw` (R226), which writes no flag. -/
def Obligations.LiteralLogic : Prop :=
  readsLow 0b00001011#8 .andlw ∧ readsLow 0b00001001#8 .iorlw ∧ readsLow 0b00001010#8 .xorlw ∧ readsLow 0b00001110#8 .movlw ∧
  ∀ (s : State) (k : Byte),
    (∃ r fl, (∀ j < 8, r.getLsbD j = (s.w.getLsbD j && k.getLsbD j)) ∧ ZnOf s.flags r fl ∧
      exec (.andlw k) s = .next { s with w := r, flags := fl, pc := s.pc + 2 }) ∧
    (∃ r fl, (∀ j < 8, r.getLsbD j = (s.w.getLsbD j || k.getLsbD j)) ∧ ZnOf s.flags r fl ∧
      exec (.iorlw k) s = .next { s with w := r, flags := fl, pc := s.pc + 2 }) ∧
    (∃ r fl, (∀ j < 8, r.getLsbD j = (s.w.getLsbD j ^^ k.getLsbD j)) ∧ ZnOf s.flags r fl ∧
      exec (.xorlw k) s = .next { s with w := r, flags := fl, pc := s.pc + 2 }) ∧
    exec (.movlw k) s = .next { s with w := k, pc := s.pc + 2 }

/-- `lfsr` (R224) and `movlb` (R225). The faults of `lfsr` and the encoding of `movlb` are the spec's decisions D11, D12 and D33
(log 29). -/
def Obligations.LoadPointerAndBank : Prop :=
  (∀ (f : BitVec 2) (k : BitVec 12), f ≠ 3 →
    reads [0b00#2 ++ f ++ k.extractLsb' 8 4, 0b11101110#8, k.extractLsb' 0 8, 0b11110000#8] (.lfsr f k)) ∧
  (∀ (lo lo2 hi2 : Byte) (rest : List Byte), lo.extractLsb' 6 2 = 0b00#2 → hi2 ≠ 0b11110000#8 →
    decode ([lo, 0b11101110#8, lo2, hi2] ++ rest) = .error .badSecondWord) ∧
  (∀ k : Bank, reads [0b0000#4 ++ k, 0b00000001#8] (.movlb k)) ∧
  (∀ (s : State) (k : BitVec 12),
    exec (.lfsr 0 k) s = .next { s with fsr0 := k, pc := s.pc + 4 } ∧
    exec (.lfsr 1 k) s = .next { s with fsr1 := k, pc := s.pc + 4 } ∧
    exec (.lfsr 2 k) s = .next { s with fsr2 := k, pc := s.pc + 4 } ∧
    exec (.lfsr 3 k) s = .fault .reservedEncoding) ∧
  (∀ (s : State) (k : Bank), exec (.movlb k) s = .next { s with bsr := k, pc := s.pc + 2 })

/-! ## Table instructions -/

/-- `tblrd` in its four modes (45_table.md R241 to R244): the byte read, the pointer after, and the fault outside the
program (the spec's decision D5, log 29). -/
def Obligations.TableReads : Prop :=
  reads [0x08#8, 0x00#8] .tblrd ∧ reads [0x09#8, 0x00#8] .tblrdPostInc ∧ reads [0x0A#8, 0x00#8] .tblrdPostDec ∧
  reads [0x0B#8, 0x00#8] .tblrdPreInc ∧
  (∀ s : State, inProgram s s.tblptr →
    exec .tblrd s = .next { s with tablat := s.prog.read s.tblptr.toNat, pc := s.pc + 2 } ∧
    exec .tblrdPostInc s =
      .next { s with tablat := s.prog.read s.tblptr.toNat, tblptr := s.tblptr + 1, pc := s.pc + 2 } ∧
    exec .tblrdPostDec s =
      .next { s with tablat := s.prog.read s.tblptr.toNat, tblptr := s.tblptr - 1, pc := s.pc + 2 }) ∧
  (∀ s : State, inProgram s (s.tblptr + 1) →
    exec .tblrdPreInc s =
      .next { s with tablat := s.prog.read (s.tblptr + 1).toNat, tblptr := s.tblptr + 1, pc := s.pc + 2 }) ∧
  (∀ s : State, ¬ inProgram s s.tblptr →
    exec .tblrd s = .fault .tableReadOutsideProgram ∧ exec .tblrdPostInc s = .fault .tableReadOutsideProgram ∧
    exec .tblrdPostDec s = .fault .tableReadOutsideProgram) ∧
  (∀ s : State, ¬ inProgram s (s.tblptr + 1) → exec .tblrdPreInc s = .fault .tableReadOutsideProgram)

/-- `tblwt` in its four modes (R246 to R249): one holding register, chosen by the address mod 8, takes TABLAT.
That nothing else changes, program memory included, is the spec's decision D19 (R245; log 21), and that TBLPTR wraps
mod 2^21 is D9 (log 29). -/
def Obligations.TableWrites : Prop :=
  reads [0x0C#8, 0x00#8] .tblwt ∧ reads [0x0D#8, 0x00#8] .tblwtPostInc ∧ reads [0x0E#8, 0x00#8] .tblwtPostDec ∧
  reads [0x0F#8, 0x00#8] .tblwtPreInc ∧
  ∀ s : State,
    (∃ h : Vector Byte 8,
      (∀ (j : Nat) (hj : j < 8), h[j] = if j = s.tblptr.toNat % 8 then s.tablat else s.hold[j]) ∧
      exec .tblwt s = .next { s with hold := h, pc := s.pc + 2 } ∧
      exec .tblwtPostInc s = .next { s with hold := h, tblptr := s.tblptr + 1, pc := s.pc + 2 } ∧
      exec .tblwtPostDec s = .next { s with hold := h, tblptr := s.tblptr - 1, pc := s.pc + 2 }) ∧
    (∃ h : Vector Byte 8,
      (∀ (j : Nat) (hj : j < 8), h[j] = if j = (s.tblptr + 1).toNat % 8 then s.tablat else s.hold[j]) ∧
      exec .tblwtPreInc s = .next { s with hold := h, tblptr := s.tblptr + 1, pc := s.pc + 2 })

/-! ## Frames -/

/-- No instruction changes a byte of data memory other than the one it stores to; one that stores to no general-purpose byte
changes none. A `reset` does where its `RESET_STATE` has an entry for data memory, which the default has not: `SoftwareReset`
says what it does there. -/
def Obligations.MemoryFrame : Prop :=
  ∀ (i : Instr) (s t : State), exec i s = .next t → (i = .reset → s.cfg.resetState.mclr.ram = .absent) →
    (∀ x, storeAt s i = some x → ∀ m, m ≠ x.toNat → t.ram.read m = s.ram.read m) ∧
    (∀ x, storeAt s i = some x → s.place x ≠ .ram → ∀ m, t.ram.read m = s.ram.read m) ∧
    (storeAt s i = none → ∀ m, t.ram.read m = s.ram.read m)

/-- No instruction changes a register other than those its rule names, those the special-function register it stores to
holds (10_state.md R45), and PCLATH and PCLATU where it reads PCL (R27). PC is not among the registers. -/
def Obligations.RegisterFrame : Prop :=
  ∀ (i : Instr) (s t : State) (r : Reg), exec i s = .next t → r ∉ writes i →
    (∀ x q, storeAt s i = some x → s.place x = .sfr q → r ∉ sfrRegs q) →
    (∀ x, loadAt s i = some x → s.place x = .sfr .pcl → r ≠ .pclath ∧ r ≠ .pclatu) →
    r.same s t

/-- Program memory and the parameters are the same after every step (20_memory.md R78, decision D19; log 21). -/
def Obligations.ProgramNeverChanges : Prop :=
  ∀ s t : State, step s = .next t → t.prog = s.prog ∧ t.cfg = s.cfg

/-! ## The invariant -/

/-- Every step keeps the invariant: PC even (10_state.md R24), both memories canonical, data memory inside the implemented
addresses, the return stack within its depth (R31). -/
def Obligations.StepKeepsTheInvariant : Prop := ∀ s t : State, s.Inv → step s = .next t → t.Inv

/-- The state after power-on meets the invariant, under the default parameters and under any others. -/
def Obligations.ResetMeetsTheInvariant : Prop := State.reset.Inv ∧ ∀ p : Params, (State.powerOn p).Inv

/-- The power-on values that the spec's default table gives (10_state.md R49, 70_reset_and_hazards.md R291, R293), its
general knowledge (D22; log 2). -/
def Obligations.PowerOnValues : Prop :=
  State.reset.pc = 0x000000 ∧ State.reset.stack = [] ∧ State.reset.tos = 0 ∧ State.reset.pclath = 0 ∧ State.reset.pclatu = 0 ∧
  State.reset.bsr = 0 ∧ State.reset.tblptr = 0 ∧ State.reset.tablat = 0 ∧ State.reset.gieh = false ∧
  State.reset.giel = false ∧ State.reset.toBit = true ∧ State.reset.pdBit = true ∧ State.reset.wdt = 0 ∧
  State.reset.wdtPost = 0 ∧ State.reset.mode = .running

/-! ## Events -/

/-- Exactly when a step executes an instruction (60_exceptions.md R264, R265, R267): the gating and the order of events are the
spec's general knowledge (D20; log 14, log 29). -/
def Obligations.WhenInstructionsRun : Prop :=
  ∀ s : State, s.Executes ↔
    (s.cfg.xinst = false ∧ s.mode = .running ∧ noResetEvent s ∧ (s.boundary.intHigh = true → s.gieh = false) ∧
      (s.boundary.intLow = true → ¬ (s.gieh = true ∧ s.giel = true)))

/-- Interrupt entry (R268, the spec's general knowledge, D20; log 29): what is pushed and saved, which
enable is cleared, where PC goes, in either power state; High goes before Low (R267); with the stack full it faults. -/
def Obligations.InterruptEntry : Prop :=
  (∀ s : State, s.cfg.xinst = false → noResetEvent s → s.boundary.intHigh = true → s.gieh = true →
    s.cfg.intVecHigh.getLsbD 0 = false → s.stack.length < s.cfg.stackDepth →
    step s = .next { withSave s.arrive true with
      stack := s.pc :: s.stack, gieh := false, pc := s.cfg.intVecHigh, mode := .running }) ∧
  (∀ s : State, s.cfg.xinst = false → noResetEvent s → s.boundary.intHigh = false → s.boundary.intLow = true →
    s.gieh = true → s.giel = true → s.cfg.intVecLow.getLsbD 0 = false → s.stack.length < s.cfg.stackDepth →
    step s = .next { withSave s.arrive true with
      stack := s.pc :: s.stack, giel := false, pc := s.cfg.intVecLow, mode := .running }) ∧
  (∀ s : State, s.cfg.xinst = false → noResetEvent s →
    (s.boundary.intHigh = true ∨ (s.boundary.intLow = true ∧ s.giel = true)) → s.gieh = true →
    s.cfg.stackDepth ≤ s.stack.length → step s = .fault .stackOverflow)

/-- The MCLR reset (R266): at any boundary, in either power state, whatever else is asserted; by the MCLR column of
`RESET_STATE`, whose default is the spec's general knowledge (D22; log 2). -/
def Obligations.MclrReset : Prop :=
  ∀ s : State, s.cfg.xinst = false → s.boundary.mclr = true →
    ∃ t, step s = .next t ∧ AfterReset s.cfg.resetState.mclr s.arrive t ∧
      (s.cfg.resetState = defaultResetState → AfterDefaultReset s.arrive t s.toBit)

/-- The watchdog overflow (R272, decision D25; log 15, log 29): it wakes a sleeping core and resets a running one by the
watchdog column of `RESET_STATE`; TO becomes 0, unless that column gives it another value. -/
def Obligations.WatchdogOverflow : Prop :=
  ∀ s : State, s.cfg.xinst = false → s.boundary.mclr = false → wdtActs s →
    (s.mode = .sleeping → step s = .next { s.arrive with toBit := false, mode := .running }) ∧
    (s.mode = .running → ∃ t, step s = .next t ∧
      AfterReset s.cfg.resetState.wdt { s.arrive with toBit := false } t ∧
      (s.cfg.resetState = defaultResetState → AfterDefaultReset s.arrive t false))

/-- Sleep (R275, R276; the wake-up rule is the spec's decision D23, log 16): without an event the core
sleeps on; a request that the gating stops wakes it, and it goes on at PC; nothing but `sleep` puts a running core to sleep. -/
def Obligations.SleepAndWakeUp : Prop :=
  (∀ s : State, s.cfg.xinst = false → s.mode = .sleeping → noResetEvent s → s.boundary.intHigh = false →
    s.boundary.intLow = false → step s = .next s.arrive) ∧
  (∀ s : State, s.cfg.xinst = false → s.mode = .sleeping → noResetEvent s →
    (s.boundary.intHigh = true ∨ s.boundary.intLow = true) → (s.boundary.intHigh = true → s.gieh = false) →
    (s.boundary.intLow = true → ¬ (s.gieh = true ∧ s.giel = true)) →
    step s = .next { s.arrive with mode := .running }) ∧
  (∀ s t : State, s.mode = .running → step s = .next t → t.mode = .sleeping → decode s.fetchBytes = .ok .sleep)

/-- `call k,1` and `return 1` are a pair (10_state.md R34): whatever runs between, if it leaves the return stack and the
shadow registers as the call did, PC, W, STATUS, BSR and the return stack are restored. -/
def Obligations.ReturnUndoesCall : Prop :=
  ∀ (s t u : State) (k : BitVec 20), s.pc.getLsbD 0 = false → exec (.call k true) s = .next t →
    u.stack = t.stack → u.ws = t.ws → u.statuss = t.statuss → u.bsrs = t.bsrs →
    ∃ v, exec (.ret true) u = .next v ∧ v.pc = s.pc + 4 ∧ v.w = s.w ∧ v.flags = s.flags ∧ v.bsr = s.bsr ∧ v.stack = s.stack

/-- An interrupt entry and `retfie 1` are a pair under the default RETFIE_POLICY (60_exceptions.md R270): the handler returns to
the interrupted instruction with W, STATUS and BSR restored and the cleared enable set again. -/
def Obligations.RetfieUndoesInterruptEntry : Prop :=
  ∀ (s t u : State) (level : Level), s.pc.getLsbD 0 = false → s.gated level = true → s.interruptEntry level = .next t →
    u.cfg.retfiePolicy = .restoreCleared → u.stack = t.stack → u.ws = t.ws → u.statuss = t.statuss → u.bsrs = t.bsrs →
    u.gieh = t.gieh → u.giel = t.giel →
    ∃ v, exec (.retfie true) u = .next v ∧ v.pc = s.pc ∧ v.w = s.w ∧ v.flags = s.flags ∧ v.bsr = s.bsr ∧
      v.stack = s.stack ∧ v.gieh = s.gieh ∧ v.giel = s.giel

/-- The state after power-on follows the power-on column of `RESET_STATE`, whatever the parameters are
(70_reset_and_hazards.md R291, R292; decision D22, log 2). Where the column gives an element no value nothing is said of
it (log 3). -/
def Obligations.PowerOnFollowsResetState : Prop := ∀ p : Params, AtPowerOn p p.resetState.powerOn (State.powerOn p)
end

