-- ==== Sys2Proof/Laws/Exec.lean ====
section
/-! SUPPORT. `exec` on each instruction is that instruction's meaning, so that no proof unfolds the dispatch. -/

namespace Sys2Proof.Machine

@[simp] theorem exec_addwf (f : Byte) (d : Dst) (a : Acc) (s : State) : exec (.addwf f d a) s = execAddwf f d a s := rfl

@[simp] theorem exec_addwfc (f : Byte) (d : Dst) (a : Acc) (s : State) : exec (.addwfc f d a) s = execAddwfc f d a s := rfl

@[simp] theorem exec_andwf (f : Byte) (d : Dst) (a : Acc) (s : State) : exec (.andwf f d a) s = execAndwf f d a s := rfl

@[simp] theorem exec_clrf (f : Byte) (a : Acc) (s : State) : exec (.clrf f a) s = execClrf f a s := rfl

@[simp] theorem exec_comf (f : Byte) (d : Dst) (a : Acc) (s : State) : exec (.comf f d a) s = execComf f d a s := rfl

@[simp] theorem exec_cpfseq (f : Byte) (a : Acc) (s : State) : exec (.cpfseq f a) s = execCpfseq f a s := rfl

@[simp] theorem exec_cpfsgt (f : Byte) (a : Acc) (s : State) : exec (.cpfsgt f a) s = execCpfsgt f a s := rfl

@[simp] theorem exec_cpfslt (f : Byte) (a : Acc) (s : State) : exec (.cpfslt f a) s = execCpfslt f a s := rfl

@[simp] theorem exec_decf (f : Byte) (d : Dst) (a : Acc) (s : State) : exec (.decf f d a) s = execDecf f d a s := rfl

@[simp] theorem exec_decfsz (f : Byte) (d : Dst) (a : Acc) (s : State) : exec (.decfsz f d a) s = execDecfsz f d a s := rfl

@[simp] theorem exec_dcfsnz (f : Byte) (d : Dst) (a : Acc) (s : State) : exec (.dcfsnz f d a) s = execDcfsnz f d a s := rfl

@[simp] theorem exec_incf (f : Byte) (d : Dst) (a : Acc) (s : State) : exec (.incf f d a) s = execIncf f d a s := rfl

@[simp] theorem exec_incfsz (f : Byte) (d : Dst) (a : Acc) (s : State) : exec (.incfsz f d a) s = execIncfsz f d a s := rfl

@[simp] theorem exec_infsnz (f : Byte) (d : Dst) (a : Acc) (s : State) : exec (.infsnz f d a) s = execInfsnz f d a s := rfl

@[simp] theorem exec_iorwf (f : Byte) (d : Dst) (a : Acc) (s : State) : exec (.iorwf f d a) s = execIorwf f d a s := rfl

@[simp] theorem exec_movf (f : Byte) (d : Dst) (a : Acc) (s : State) : exec (.movf f d a) s = execMovf f d a s := rfl

@[simp] theorem exec_movff (fs fd : DAddr) (s : State) : exec (.movff fs fd) s = execMovff fs fd s := rfl

@[simp] theorem exec_movwf (f : Byte) (a : Acc) (s : State) : exec (.movwf f a) s = execMovwf f a s := rfl

@[simp] theorem exec_mulwf (f : Byte) (a : Acc) (s : State) : exec (.mulwf f a) s = execMulwf f a s := rfl

@[simp] theorem exec_negf (f : Byte) (a : Acc) (s : State) : exec (.negf f a) s = execNegf f a s := rfl

@[simp] theorem exec_rlcf (f : Byte) (d : Dst) (a : Acc) (s : State) : exec (.rlcf f d a) s = execRlcf f d a s := rfl

@[simp] theorem exec_rlncf (f : Byte) (d : Dst) (a : Acc) (s : State) : exec (.rlncf f d a) s = execRlncf f d a s := rfl

@[simp] theorem exec_rrcf (f : Byte) (d : Dst) (a : Acc) (s : State) : exec (.rrcf f d a) s = execRrcf f d a s := rfl

@[simp] theorem exec_rrncf (f : Byte) (d : Dst) (a : Acc) (s : State) : exec (.rrncf f d a) s = execRrncf f d a s := rfl

@[simp] theorem exec_setf (f : Byte) (a : Acc) (s : State) : exec (.setf f a) s = execSetf f a s := rfl

@[simp] theorem exec_subfwb (f : Byte) (d : Dst) (a : Acc) (s : State) : exec (.subfwb f d a) s = execSubfwb f d a s := rfl

@[simp] theorem exec_subwf (f : Byte) (d : Dst) (a : Acc) (s : State) : exec (.subwf f d a) s = execSubwf f d a s := rfl

@[simp] theorem exec_subwfb (f : Byte) (d : Dst) (a : Acc) (s : State) : exec (.subwfb f d a) s = execSubwfb f d a s := rfl

@[simp] theorem exec_swapf (f : Byte) (d : Dst) (a : Acc) (s : State) : exec (.swapf f d a) s = execSwapf f d a s := rfl

@[simp] theorem exec_tstfsz (f : Byte) (a : Acc) (s : State) : exec (.tstfsz f a) s = execTstfsz f a s := rfl

@[simp] theorem exec_xorwf (f : Byte) (d : Dst) (a : Acc) (s : State) : exec (.xorwf f d a) s = execXorwf f d a s := rfl

@[simp] theorem exec_bcf (f : Byte) (b : BitVec 3) (a : Acc) (s : State) : exec (.bcf f b a) s = execBcf f b a s := rfl

@[simp] theorem exec_bsf (f : Byte) (b : BitVec 3) (a : Acc) (s : State) : exec (.bsf f b a) s = execBsf f b a s := rfl

@[simp] theorem exec_btfsc (f : Byte) (b : BitVec 3) (a : Acc) (s : State) : exec (.btfsc f b a) s = execBtfsc f b a s := rfl

@[simp] theorem exec_btfss (f : Byte) (b : BitVec 3) (a : Acc) (s : State) : exec (.btfss f b a) s = execBtfss f b a s := rfl

@[simp] theorem exec_btg (f : Byte) (b : BitVec 3) (a : Acc) (s : State) : exec (.btg f b a) s = execBtg f b a s := rfl

@[simp] theorem exec_bc (n : Byte) (s : State) : exec (.bc n) s = execBc n s := rfl

@[simp] theorem exec_bn (n : Byte) (s : State) : exec (.bn n) s = execBn n s := rfl

@[simp] theorem exec_bnc (n : Byte) (s : State) : exec (.bnc n) s = execBnc n s := rfl

@[simp] theorem exec_bnn (n : Byte) (s : State) : exec (.bnn n) s = execBnn n s := rfl

@[simp] theorem exec_bnov (n : Byte) (s : State) : exec (.bnov n) s = execBnov n s := rfl

@[simp] theorem exec_bnz (n : Byte) (s : State) : exec (.bnz n) s = execBnz n s := rfl

@[simp] theorem exec_bov (n : Byte) (s : State) : exec (.bov n) s = execBov n s := rfl

@[simp] theorem exec_bra (n : BitVec 11) (s : State) : exec (.bra n) s = execBra n s := rfl

@[simp] theorem exec_bz (n : Byte) (s : State) : exec (.bz n) s = execBz n s := rfl

@[simp] theorem exec_call (k : BitVec 20) (fast : Bool) (s : State) : exec (.call k fast) s = execCall k fast s := rfl

@[simp] theorem exec_clrwdt (s : State) : exec .clrwdt s = execClrwdt s := rfl

@[simp] theorem exec_daw (s : State) : exec .daw s = execDaw s := rfl

@[simp] theorem exec_goto (k : BitVec 20) (s : State) : exec (.goto k) s = execGoto k s := rfl

@[simp] theorem exec_nop (s : State) : exec .nop s = execNop s := rfl

@[simp] theorem exec_nopx (x : BitVec 12) (s : State) : exec (.nopx x) s = execNopx x s := rfl

@[simp] theorem exec_pop (s : State) : exec .pop s = execPop s := rfl

@[simp] theorem exec_push (s : State) : exec .push s = execPush s := rfl

@[simp] theorem exec_rcall (n : BitVec 11) (s : State) : exec (.rcall n) s = execRcall n s := rfl

@[simp] theorem exec_reset (s : State) : exec .reset s = execReset s := rfl

@[simp] theorem exec_retfie (fast : Bool) (s : State) : exec (.retfie fast) s = execRetfie fast s := rfl

@[simp] theorem exec_retlw (k : Byte) (s : State) : exec (.retlw k) s = execRetlw k s := rfl

@[simp] theorem exec_ret (fast : Bool) (s : State) : exec (.ret fast) s = execRet fast s := rfl

@[simp] theorem exec_sleep (s : State) : exec .sleep s = execSleep s := rfl

@[simp] theorem exec_addlw (k : Byte) (s : State) : exec (.addlw k) s = execAddlw k s := rfl

@[simp] theorem exec_andlw (k : Byte) (s : State) : exec (.andlw k) s = execAndlw k s := rfl

@[simp] theorem exec_iorlw (k : Byte) (s : State) : exec (.iorlw k) s = execIorlw k s := rfl

@[simp] theorem exec_lfsr (f : BitVec 2) (k : BitVec 12) (s : State) : exec (.lfsr f k) s = execLfsr f k s := rfl

@[simp] theorem exec_movlb (k : Bank) (s : State) : exec (.movlb k) s = execMovlb k s := rfl

@[simp] theorem exec_movlw (k : Byte) (s : State) : exec (.movlw k) s = execMovlw k s := rfl

@[simp] theorem exec_mullw (k : Byte) (s : State) : exec (.mullw k) s = execMullw k s := rfl

@[simp] theorem exec_sublw (k : Byte) (s : State) : exec (.sublw k) s = execSublw k s := rfl

@[simp] theorem exec_xorlw (k : Byte) (s : State) : exec (.xorlw k) s = execXorlw k s := rfl

@[simp] theorem exec_tblrd (s : State) : exec .tblrd s = execTblrd s := rfl

@[simp] theorem exec_tblrdPostInc (s : State) : exec .tblrdPostInc s = execTblrdPostInc s := rfl

@[simp] theorem exec_tblrdPostDec (s : State) : exec .tblrdPostDec s = execTblrdPostDec s := rfl

@[simp] theorem exec_tblrdPreInc (s : State) : exec .tblrdPreInc s = execTblrdPreInc s := rfl

@[simp] theorem exec_tblwt (s : State) : exec .tblwt s = execTblwt s := rfl

@[simp] theorem exec_tblwtPostInc (s : State) : exec .tblwtPostInc s = execTblwtPostInc s := rfl

@[simp] theorem exec_tblwtPostDec (s : State) : exec .tblwtPostDec s = execTblwtPostDec s := rfl

@[simp] theorem exec_tblwtPreInc (s : State) : exec .tblwtPreInc s = execTblwtPreInc s := rfl

end Sys2Proof.Machine
end

