-- ==== Sys2Proof/Laws/Memory.lean ====
section
/-! SUPPORT. Reading after a write, and that a write keeps the canonical form. -/

namespace Sys2Proof.Machine

/-- A canonical memory reads as unlisted below its first address. -/
theorem Memory.read_below {m : Memory} {lo a : Nat} (h : Memory.wfFrom lo m = true) (ha : a < lo) :
    Memory.read m a = unlisted := by
  induction m generalizing lo with
  | nil => rfl
  | cons c m ih =>
    obtain ⟨b, v⟩ := c
    simp only [Memory.wfFrom, Bool.and_eq_true, decide_eq_true_eq] at h
    have hne : a ≠ b := by omega
    simp only [Memory.read, hne, if_false]
    exact ih h.2 (by omega)

/-- A canonical memory is canonical from any lower address. -/
theorem Memory.wfFrom_mono {m : Memory} {lo lo' : Nat} (h : Memory.wfFrom lo m = true) (hl : lo' ≤ lo) :
    Memory.wfFrom lo' m = true := by
  cases m with
  | nil => rfl
  | cons c m =>
    obtain ⟨b, v⟩ := c
    simp only [Memory.wfFrom, Bool.and_eq_true, decide_eq_true_eq] at h ⊢
    exact ⟨⟨by omega, h.1.2⟩, h.2⟩

/-- Reading the address just written gives the value written. -/
theorem Memory.read_write_same {m : Memory} {lo : Nat} (h : Memory.wfFrom lo m = true) (a : Nat) (v : Byte) :
    Memory.read (Memory.write m a v) a = v := by
  induction m generalizing lo with
  | nil =>
    by_cases hv : v = unlisted
    · simp [Memory.write, Memory.read, hv]
    · simp [Memory.write, Memory.read, hv]
  | cons c m ih =>
    obtain ⟨b, u⟩ := c
    have hw := h
    simp only [Memory.wfFrom, Bool.and_eq_true, decide_eq_true_eq] at h
    by_cases hlt : a < b
    · by_cases hv : v = unlisted
      · have hne : a ≠ b := by omega
        simp only [Memory.write, hlt, hv, if_true, Memory.read, hne, if_false]
        exact Memory.read_below h.2 (by omega)
      · simp [Memory.write, hlt, hv, Memory.read]
    · by_cases hab : a = b
      · by_cases hv : v = unlisted
        · simp only [Memory.write, hab, hv, if_true, if_false, Nat.lt_irrefl]
          exact Memory.read_below h.2 (by omega)
        · simp [Memory.write, hab, hv, Memory.read]
      · simp only [Memory.write, hlt, hab, if_false, Memory.read]
        exact ih h.2

/-- A write leaves every other address as it was. -/
theorem Memory.read_write_other (m : Memory) {a c : Nat} (hne : c ≠ a) (v : Byte) :
    Memory.read (Memory.write m a v) c = Memory.read m c := by
  induction m with
  | nil => by_cases hv : v = unlisted <;> simp [Memory.write, Memory.read, hv, hne]
  | cons d m ih =>
    obtain ⟨b, u⟩ := d
    by_cases hlt : a < b
    · by_cases hv : v = unlisted <;> simp [Memory.write, Memory.read, hlt, hv, hne]
    · by_cases hab : a = b
      · subst hab
        by_cases hv : v = unlisted <;> simp [Memory.write, Memory.read, hv, hne]
      · by_cases hcb : c = b <;> simp [Memory.write, Memory.read, hlt, hab, hcb, ih]

/-- A write keeps the canonical form, from any bound the address respects. -/
theorem Memory.write_wfFrom {m : Memory} {lo a : Nat} (h : Memory.wfFrom lo m = true) (ha : lo ≤ a) (v : Byte) :
    Memory.wfFrom lo (Memory.write m a v) = true := by
  induction m generalizing lo with
  | nil => by_cases hv : v = unlisted <;> simp [Memory.write, Memory.wfFrom, hv, ha]
  | cons c m ih =>
    obtain ⟨b, u⟩ := c
    have hw := h
    simp only [Memory.wfFrom, Bool.and_eq_true, decide_eq_true_eq] at h
    by_cases hlt : a < b
    · by_cases hv : v = unlisted
      · simpa [Memory.write, hlt, hv] using hw
      · have hu := h.1.2
        simp only [Memory.write, hlt, hv, if_true, if_false, Memory.wfFrom, Bool.and_eq_true, decide_eq_true_eq]
        exact ⟨⟨ha, by simpa using hv⟩, ⟨by omega, hu⟩, h.2⟩
    · by_cases hab : a = b
      · subst hab
        by_cases hv : v = unlisted
        · simpa [Memory.write, hv] using Memory.wfFrom_mono h.2 (by omega)
        · simp only [Memory.write, hv, if_true, if_false, Nat.lt_irrefl, Memory.wfFrom, Bool.and_eq_true,
            decide_eq_true_eq]
          exact ⟨⟨ha, by simpa using hv⟩, h.2⟩
      · simp only [Memory.write, hlt, hab, if_false, Memory.wfFrom, Bool.and_eq_true, decide_eq_true_eq]
        exact ⟨h.1, ih h.2 (by omega)⟩

/-- Every memory operation keeps the canonical form: `Memory.write` is the only one. -/
theorem Memory.write_wf {m : Memory} (h : m.wf = true) (a : Nat) (v : Byte) : (m.write a v).wf = true :=
  Memory.write_wfFrom h (Nat.zero_le a) v

/-- The entries of a written memory are old ones or the new one. -/
theorem Memory.mem_write {m : Memory} {a : Nat} {v : Byte} {c : Host.Cell} (h : c ∈ m.write a v) :
    c ∈ m ∨ c = (a, v) := by
  induction m with
  | nil =>
    by_cases hv : v = unlisted
    · simp [Memory.write, hv] at h
    · simp only [Memory.write, hv, if_false, List.mem_singleton] at h
      exact .inr h
  | cons d m ih =>
    obtain ⟨b, u⟩ := d
    simp only [Memory.write] at h
    split at h
    · split at h
      · exact .inl h
      · rcases List.mem_cons.1 h with h | h
        · exact .inr h
        · exact .inl h
    · split at h
      · split at h
        · exact .inl (List.mem_cons_of_mem _ h)
        · rcases List.mem_cons.1 h with h | h
          · exact .inr h
          · exact .inl (List.mem_cons_of_mem _ h)
      · rcases List.mem_cons.1 h with h | h
        · exact .inl (h ▸ List.mem_cons_self)
        · rcases ih h with h | h
          · exact .inl (List.mem_cons_of_mem _ h)
          · exact .inr h

end Sys2Proof.Machine
end

