-- ==== Sys2Proof/Laws/State.lean ====
section
/-! SUPPORT. One lemma per field per update of State, true by rfl, so that no proof unfolds a record update. -/

namespace Sys2Proof.Machine

/-! `State.setW` -/

@[simp] theorem State.setW_w (s : State) (v : Byte) : (s.setW v).w = v := rfl
@[simp] theorem State.setW_bsr (s : State) (v : Byte) : (s.setW v).bsr = s.bsr := rfl
@[simp] theorem State.setW_flags (s : State) (v : Byte) : (s.setW v).flags = s.flags := rfl
@[simp] theorem State.setW_pc (s : State) (v : Byte) : (s.setW v).pc = s.pc := rfl
@[simp] theorem State.setW_pclath (s : State) (v : Byte) : (s.setW v).pclath = s.pclath := rfl
@[simp] theorem State.setW_pclatu (s : State) (v : Byte) : (s.setW v).pclatu = s.pclatu := rfl
@[simp] theorem State.setW_stack (s : State) (v : Byte) : (s.setW v).stack = s.stack := rfl
@[simp] theorem State.setW_ws (s : State) (v : Byte) : (s.setW v).ws = s.ws := rfl
@[simp] theorem State.setW_statuss (s : State) (v : Byte) : (s.setW v).statuss = s.statuss := rfl
@[simp] theorem State.setW_bsrs (s : State) (v : Byte) : (s.setW v).bsrs = s.bsrs := rfl
@[simp] theorem State.setW_fsr0 (s : State) (v : Byte) : (s.setW v).fsr0 = s.fsr0 := rfl
@[simp] theorem State.setW_fsr1 (s : State) (v : Byte) : (s.setW v).fsr1 = s.fsr1 := rfl
@[simp] theorem State.setW_fsr2 (s : State) (v : Byte) : (s.setW v).fsr2 = s.fsr2 := rfl
@[simp] theorem State.setW_prodh (s : State) (v : Byte) : (s.setW v).prodh = s.prodh := rfl
@[simp] theorem State.setW_prodl (s : State) (v : Byte) : (s.setW v).prodl = s.prodl := rfl
@[simp] theorem State.setW_tblptr (s : State) (v : Byte) : (s.setW v).tblptr = s.tblptr := rfl
@[simp] theorem State.setW_tablat (s : State) (v : Byte) : (s.setW v).tablat = s.tablat := rfl
@[simp] theorem State.setW_hold (s : State) (v : Byte) : (s.setW v).hold = s.hold := rfl
@[simp] theorem State.setW_gieh (s : State) (v : Byte) : (s.setW v).gieh = s.gieh := rfl
@[simp] theorem State.setW_giel (s : State) (v : Byte) : (s.setW v).giel = s.giel := rfl
@[simp] theorem State.setW_toBit (s : State) (v : Byte) : (s.setW v).toBit = s.toBit := rfl
@[simp] theorem State.setW_pdBit (s : State) (v : Byte) : (s.setW v).pdBit = s.pdBit := rfl
@[simp] theorem State.setW_wdt (s : State) (v : Byte) : (s.setW v).wdt = s.wdt := rfl
@[simp] theorem State.setW_wdtPost (s : State) (v : Byte) : (s.setW v).wdtPost = s.wdtPost := rfl
@[simp] theorem State.setW_mode (s : State) (v : Byte) : (s.setW v).mode = s.mode := rfl
@[simp] theorem State.setW_ram (s : State) (v : Byte) : (s.setW v).ram = s.ram := rfl
@[simp] theorem State.setW_prog (s : State) (v : Byte) : (s.setW v).prog = s.prog := rfl
@[simp] theorem State.setW_cfg (s : State) (v : Byte) : (s.setW v).cfg = s.cfg := rfl
@[simp] theorem State.setW_inputs (s : State) (v : Byte) : (s.setW v).inputs = s.inputs := rfl
@[simp] theorem State.setW_freeIx (s : State) (v : Byte) : (s.setW v).freeIx = s.freeIx := rfl

/-! `State.setBsr` -/

@[simp] theorem State.setBsr_w (s : State) (v : Bank) : (s.setBsr v).w = s.w := rfl
@[simp] theorem State.setBsr_bsr (s : State) (v : Bank) : (s.setBsr v).bsr = v := rfl
@[simp] theorem State.setBsr_flags (s : State) (v : Bank) : (s.setBsr v).flags = s.flags := rfl
@[simp] theorem State.setBsr_pc (s : State) (v : Bank) : (s.setBsr v).pc = s.pc := rfl
@[simp] theorem State.setBsr_pclath (s : State) (v : Bank) : (s.setBsr v).pclath = s.pclath := rfl
@[simp] theorem State.setBsr_pclatu (s : State) (v : Bank) : (s.setBsr v).pclatu = s.pclatu := rfl
@[simp] theorem State.setBsr_stack (s : State) (v : Bank) : (s.setBsr v).stack = s.stack := rfl
@[simp] theorem State.setBsr_ws (s : State) (v : Bank) : (s.setBsr v).ws = s.ws := rfl
@[simp] theorem State.setBsr_statuss (s : State) (v : Bank) : (s.setBsr v).statuss = s.statuss := rfl
@[simp] theorem State.setBsr_bsrs (s : State) (v : Bank) : (s.setBsr v).bsrs = s.bsrs := rfl
@[simp] theorem State.setBsr_fsr0 (s : State) (v : Bank) : (s.setBsr v).fsr0 = s.fsr0 := rfl
@[simp] theorem State.setBsr_fsr1 (s : State) (v : Bank) : (s.setBsr v).fsr1 = s.fsr1 := rfl
@[simp] theorem State.setBsr_fsr2 (s : State) (v : Bank) : (s.setBsr v).fsr2 = s.fsr2 := rfl
@[simp] theorem State.setBsr_prodh (s : State) (v : Bank) : (s.setBsr v).prodh = s.prodh := rfl
@[simp] theorem State.setBsr_prodl (s : State) (v : Bank) : (s.setBsr v).prodl = s.prodl := rfl
@[simp] theorem State.setBsr_tblptr (s : State) (v : Bank) : (s.setBsr v).tblptr = s.tblptr := rfl
@[simp] theorem State.setBsr_tablat (s : State) (v : Bank) : (s.setBsr v).tablat = s.tablat := rfl
@[simp] theorem State.setBsr_hold (s : State) (v : Bank) : (s.setBsr v).hold = s.hold := rfl
@[simp] theorem State.setBsr_gieh (s : State) (v : Bank) : (s.setBsr v).gieh = s.gieh := rfl
@[simp] theorem State.setBsr_giel (s : State) (v : Bank) : (s.setBsr v).giel = s.giel := rfl
@[simp] theorem State.setBsr_toBit (s : State) (v : Bank) : (s.setBsr v).toBit = s.toBit := rfl
@[simp] theorem State.setBsr_pdBit (s : State) (v : Bank) : (s.setBsr v).pdBit = s.pdBit := rfl
@[simp] theorem State.setBsr_wdt (s : State) (v : Bank) : (s.setBsr v).wdt = s.wdt := rfl
@[simp] theorem State.setBsr_wdtPost (s : State) (v : Bank) : (s.setBsr v).wdtPost = s.wdtPost := rfl
@[simp] theorem State.setBsr_mode (s : State) (v : Bank) : (s.setBsr v).mode = s.mode := rfl
@[simp] theorem State.setBsr_ram (s : State) (v : Bank) : (s.setBsr v).ram = s.ram := rfl
@[simp] theorem State.setBsr_prog (s : State) (v : Bank) : (s.setBsr v).prog = s.prog := rfl
@[simp] theorem State.setBsr_cfg (s : State) (v : Bank) : (s.setBsr v).cfg = s.cfg := rfl
@[simp] theorem State.setBsr_inputs (s : State) (v : Bank) : (s.setBsr v).inputs = s.inputs := rfl
@[simp] theorem State.setBsr_freeIx (s : State) (v : Bank) : (s.setBsr v).freeIx = s.freeIx := rfl

/-! `State.setFlags` -/

@[simp] theorem State.setFlags_w (s : State) (v : Flags) : (s.setFlags v).w = s.w := rfl
@[simp] theorem State.setFlags_bsr (s : State) (v : Flags) : (s.setFlags v).bsr = s.bsr := rfl
@[simp] theorem State.setFlags_flags (s : State) (v : Flags) : (s.setFlags v).flags = v := rfl
@[simp] theorem State.setFlags_pc (s : State) (v : Flags) : (s.setFlags v).pc = s.pc := rfl
@[simp] theorem State.setFlags_pclath (s : State) (v : Flags) : (s.setFlags v).pclath = s.pclath := rfl
@[simp] theorem State.setFlags_pclatu (s : State) (v : Flags) : (s.setFlags v).pclatu = s.pclatu := rfl
@[simp] theorem State.setFlags_stack (s : State) (v : Flags) : (s.setFlags v).stack = s.stack := rfl
@[simp] theorem State.setFlags_ws (s : State) (v : Flags) : (s.setFlags v).ws = s.ws := rfl
@[simp] theorem State.setFlags_statuss (s : State) (v : Flags) : (s.setFlags v).statuss = s.statuss := rfl
@[simp] theorem State.setFlags_bsrs (s : State) (v : Flags) : (s.setFlags v).bsrs = s.bsrs := rfl
@[simp] theorem State.setFlags_fsr0 (s : State) (v : Flags) : (s.setFlags v).fsr0 = s.fsr0 := rfl
@[simp] theorem State.setFlags_fsr1 (s : State) (v : Flags) : (s.setFlags v).fsr1 = s.fsr1 := rfl
@[simp] theorem State.setFlags_fsr2 (s : State) (v : Flags) : (s.setFlags v).fsr2 = s.fsr2 := rfl
@[simp] theorem State.setFlags_prodh (s : State) (v : Flags) : (s.setFlags v).prodh = s.prodh := rfl
@[simp] theorem State.setFlags_prodl (s : State) (v : Flags) : (s.setFlags v).prodl = s.prodl := rfl
@[simp] theorem State.setFlags_tblptr (s : State) (v : Flags) : (s.setFlags v).tblptr = s.tblptr := rfl
@[simp] theorem State.setFlags_tablat (s : State) (v : Flags) : (s.setFlags v).tablat = s.tablat := rfl
@[simp] theorem State.setFlags_hold (s : State) (v : Flags) : (s.setFlags v).hold = s.hold := rfl
@[simp] theorem State.setFlags_gieh (s : State) (v : Flags) : (s.setFlags v).gieh = s.gieh := rfl
@[simp] theorem State.setFlags_giel (s : State) (v : Flags) : (s.setFlags v).giel = s.giel := rfl
@[simp] theorem State.setFlags_toBit (s : State) (v : Flags) : (s.setFlags v).toBit = s.toBit := rfl
@[simp] theorem State.setFlags_pdBit (s : State) (v : Flags) : (s.setFlags v).pdBit = s.pdBit := rfl
@[simp] theorem State.setFlags_wdt (s : State) (v : Flags) : (s.setFlags v).wdt = s.wdt := rfl
@[simp] theorem State.setFlags_wdtPost (s : State) (v : Flags) : (s.setFlags v).wdtPost = s.wdtPost := rfl
@[simp] theorem State.setFlags_mode (s : State) (v : Flags) : (s.setFlags v).mode = s.mode := rfl
@[simp] theorem State.setFlags_ram (s : State) (v : Flags) : (s.setFlags v).ram = s.ram := rfl
@[simp] theorem State.setFlags_prog (s : State) (v : Flags) : (s.setFlags v).prog = s.prog := rfl
@[simp] theorem State.setFlags_cfg (s : State) (v : Flags) : (s.setFlags v).cfg = s.cfg := rfl
@[simp] theorem State.setFlags_inputs (s : State) (v : Flags) : (s.setFlags v).inputs = s.inputs := rfl
@[simp] theorem State.setFlags_freeIx (s : State) (v : Flags) : (s.setFlags v).freeIx = s.freeIx := rfl

/-! `State.setPcRaw` -/

@[simp] theorem State.setPcRaw_w (s : State) (v : PAddr) : (s.setPcRaw v).w = s.w := rfl
@[simp] theorem State.setPcRaw_bsr (s : State) (v : PAddr) : (s.setPcRaw v).bsr = s.bsr := rfl
@[simp] theorem State.setPcRaw_flags (s : State) (v : PAddr) : (s.setPcRaw v).flags = s.flags := rfl
@[simp] theorem State.setPcRaw_pc (s : State) (v : PAddr) : (s.setPcRaw v).pc = v := rfl
@[simp] theorem State.setPcRaw_pclath (s : State) (v : PAddr) : (s.setPcRaw v).pclath = s.pclath := rfl
@[simp] theorem State.setPcRaw_pclatu (s : State) (v : PAddr) : (s.setPcRaw v).pclatu = s.pclatu := rfl
@[simp] theorem State.setPcRaw_stack (s : State) (v : PAddr) : (s.setPcRaw v).stack = s.stack := rfl
@[simp] theorem State.setPcRaw_ws (s : State) (v : PAddr) : (s.setPcRaw v).ws = s.ws := rfl
@[simp] theorem State.setPcRaw_statuss (s : State) (v : PAddr) : (s.setPcRaw v).statuss = s.statuss := rfl
@[simp] theorem State.setPcRaw_bsrs (s : State) (v : PAddr) : (s.setPcRaw v).bsrs = s.bsrs := rfl
@[simp] theorem State.setPcRaw_fsr0 (s : State) (v : PAddr) : (s.setPcRaw v).fsr0 = s.fsr0 := rfl
@[simp] theorem State.setPcRaw_fsr1 (s : State) (v : PAddr) : (s.setPcRaw v).fsr1 = s.fsr1 := rfl
@[simp] theorem State.setPcRaw_fsr2 (s : State) (v : PAddr) : (s.setPcRaw v).fsr2 = s.fsr2 := rfl
@[simp] theorem State.setPcRaw_prodh (s : State) (v : PAddr) : (s.setPcRaw v).prodh = s.prodh := rfl
@[simp] theorem State.setPcRaw_prodl (s : State) (v : PAddr) : (s.setPcRaw v).prodl = s.prodl := rfl
@[simp] theorem State.setPcRaw_tblptr (s : State) (v : PAddr) : (s.setPcRaw v).tblptr = s.tblptr := rfl
@[simp] theorem State.setPcRaw_tablat (s : State) (v : PAddr) : (s.setPcRaw v).tablat = s.tablat := rfl
@[simp] theorem State.setPcRaw_hold (s : State) (v : PAddr) : (s.setPcRaw v).hold = s.hold := rfl
@[simp] theorem State.setPcRaw_gieh (s : State) (v : PAddr) : (s.setPcRaw v).gieh = s.gieh := rfl
@[simp] theorem State.setPcRaw_giel (s : State) (v : PAddr) : (s.setPcRaw v).giel = s.giel := rfl
@[simp] theorem State.setPcRaw_toBit (s : State) (v : PAddr) : (s.setPcRaw v).toBit = s.toBit := rfl
@[simp] theorem State.setPcRaw_pdBit (s : State) (v : PAddr) : (s.setPcRaw v).pdBit = s.pdBit := rfl
@[simp] theorem State.setPcRaw_wdt (s : State) (v : PAddr) : (s.setPcRaw v).wdt = s.wdt := rfl
@[simp] theorem State.setPcRaw_wdtPost (s : State) (v : PAddr) : (s.setPcRaw v).wdtPost = s.wdtPost := rfl
@[simp] theorem State.setPcRaw_mode (s : State) (v : PAddr) : (s.setPcRaw v).mode = s.mode := rfl
@[simp] theorem State.setPcRaw_ram (s : State) (v : PAddr) : (s.setPcRaw v).ram = s.ram := rfl
@[simp] theorem State.setPcRaw_prog (s : State) (v : PAddr) : (s.setPcRaw v).prog = s.prog := rfl
@[simp] theorem State.setPcRaw_cfg (s : State) (v : PAddr) : (s.setPcRaw v).cfg = s.cfg := rfl
@[simp] theorem State.setPcRaw_inputs (s : State) (v : PAddr) : (s.setPcRaw v).inputs = s.inputs := rfl
@[simp] theorem State.setPcRaw_freeIx (s : State) (v : PAddr) : (s.setPcRaw v).freeIx = s.freeIx := rfl

/-! `State.setPclath` -/

@[simp] theorem State.setPclath_w (s : State) (v : Byte) : (s.setPclath v).w = s.w := rfl
@[simp] theorem State.setPclath_bsr (s : State) (v : Byte) : (s.setPclath v).bsr = s.bsr := rfl
@[simp] theorem State.setPclath_flags (s : State) (v : Byte) : (s.setPclath v).flags = s.flags := rfl
@[simp] theorem State.setPclath_pc (s : State) (v : Byte) : (s.setPclath v).pc = s.pc := rfl
@[simp] theorem State.setPclath_pclath (s : State) (v : Byte) : (s.setPclath v).pclath = v := rfl
@[simp] theorem State.setPclath_pclatu (s : State) (v : Byte) : (s.setPclath v).pclatu = s.pclatu := rfl
@[simp] theorem State.setPclath_stack (s : State) (v : Byte) : (s.setPclath v).stack = s.stack := rfl
@[simp] theorem State.setPclath_ws (s : State) (v : Byte) : (s.setPclath v).ws = s.ws := rfl
@[simp] theorem State.setPclath_statuss (s : State) (v : Byte) : (s.setPclath v).statuss = s.statuss := rfl
@[simp] theorem State.setPclath_bsrs (s : State) (v : Byte) : (s.setPclath v).bsrs = s.bsrs := rfl
@[simp] theorem State.setPclath_fsr0 (s : State) (v : Byte) : (s.setPclath v).fsr0 = s.fsr0 := rfl
@[simp] theorem State.setPclath_fsr1 (s : State) (v : Byte) : (s.setPclath v).fsr1 = s.fsr1 := rfl
@[simp] theorem State.setPclath_fsr2 (s : State) (v : Byte) : (s.setPclath v).fsr2 = s.fsr2 := rfl
@[simp] theorem State.setPclath_prodh (s : State) (v : Byte) : (s.setPclath v).prodh = s.prodh := rfl
@[simp] theorem State.setPclath_prodl (s : State) (v : Byte) : (s.setPclath v).prodl = s.prodl := rfl
@[simp] theorem State.setPclath_tblptr (s : State) (v : Byte) : (s.setPclath v).tblptr = s.tblptr := rfl
@[simp] theorem State.setPclath_tablat (s : State) (v : Byte) : (s.setPclath v).tablat = s.tablat := rfl
@[simp] theorem State.setPclath_hold (s : State) (v : Byte) : (s.setPclath v).hold = s.hold := rfl
@[simp] theorem State.setPclath_gieh (s : State) (v : Byte) : (s.setPclath v).gieh = s.gieh := rfl
@[simp] theorem State.setPclath_giel (s : State) (v : Byte) : (s.setPclath v).giel = s.giel := rfl
@[simp] theorem State.setPclath_toBit (s : State) (v : Byte) : (s.setPclath v).toBit = s.toBit := rfl
@[simp] theorem State.setPclath_pdBit (s : State) (v : Byte) : (s.setPclath v).pdBit = s.pdBit := rfl
@[simp] theorem State.setPclath_wdt (s : State) (v : Byte) : (s.setPclath v).wdt = s.wdt := rfl
@[simp] theorem State.setPclath_wdtPost (s : State) (v : Byte) : (s.setPclath v).wdtPost = s.wdtPost := rfl
@[simp] theorem State.setPclath_mode (s : State) (v : Byte) : (s.setPclath v).mode = s.mode := rfl
@[simp] theorem State.setPclath_ram (s : State) (v : Byte) : (s.setPclath v).ram = s.ram := rfl
@[simp] theorem State.setPclath_prog (s : State) (v : Byte) : (s.setPclath v).prog = s.prog := rfl
@[simp] theorem State.setPclath_cfg (s : State) (v : Byte) : (s.setPclath v).cfg = s.cfg := rfl
@[simp] theorem State.setPclath_inputs (s : State) (v : Byte) : (s.setPclath v).inputs = s.inputs := rfl
@[simp] theorem State.setPclath_freeIx (s : State) (v : Byte) : (s.setPclath v).freeIx = s.freeIx := rfl

/-! `State.setPclatu` -/

@[simp] theorem State.setPclatu_w (s : State) (v : BitVec 5) : (s.setPclatu v).w = s.w := rfl
@[simp] theorem State.setPclatu_bsr (s : State) (v : BitVec 5) : (s.setPclatu v).bsr = s.bsr := rfl
@[simp] theorem State.setPclatu_flags (s : State) (v : BitVec 5) : (s.setPclatu v).flags = s.flags := rfl
@[simp] theorem State.setPclatu_pc (s : State) (v : BitVec 5) : (s.setPclatu v).pc = s.pc := rfl
@[simp] theorem State.setPclatu_pclath (s : State) (v : BitVec 5) : (s.setPclatu v).pclath = s.pclath := rfl
@[simp] theorem State.setPclatu_pclatu (s : State) (v : BitVec 5) : (s.setPclatu v).pclatu = v := rfl
@[simp] theorem State.setPclatu_stack (s : State) (v : BitVec 5) : (s.setPclatu v).stack = s.stack := rfl
@[simp] theorem State.setPclatu_ws (s : State) (v : BitVec 5) : (s.setPclatu v).ws = s.ws := rfl
@[simp] theorem State.setPclatu_statuss (s : State) (v : BitVec 5) : (s.setPclatu v).statuss = s.statuss := rfl
@[simp] theorem State.setPclatu_bsrs (s : State) (v : BitVec 5) : (s.setPclatu v).bsrs = s.bsrs := rfl
@[simp] theorem State.setPclatu_fsr0 (s : State) (v : BitVec 5) : (s.setPclatu v).fsr0 = s.fsr0 := rfl
@[simp] theorem State.setPclatu_fsr1 (s : State) (v : BitVec 5) : (s.setPclatu v).fsr1 = s.fsr1 := rfl
@[simp] theorem State.setPclatu_fsr2 (s : State) (v : BitVec 5) : (s.setPclatu v).fsr2 = s.fsr2 := rfl
@[simp] theorem State.setPclatu_prodh (s : State) (v : BitVec 5) : (s.setPclatu v).prodh = s.prodh := rfl
@[simp] theorem State.setPclatu_prodl (s : State) (v : BitVec 5) : (s.setPclatu v).prodl = s.prodl := rfl
@[simp] theorem State.setPclatu_tblptr (s : State) (v : BitVec 5) : (s.setPclatu v).tblptr = s.tblptr := rfl
@[simp] theorem State.setPclatu_tablat (s : State) (v : BitVec 5) : (s.setPclatu v).tablat = s.tablat := rfl
@[simp] theorem State.setPclatu_hold (s : State) (v : BitVec 5) : (s.setPclatu v).hold = s.hold := rfl
@[simp] theorem State.setPclatu_gieh (s : State) (v : BitVec 5) : (s.setPclatu v).gieh = s.gieh := rfl
@[simp] theorem State.setPclatu_giel (s : State) (v : BitVec 5) : (s.setPclatu v).giel = s.giel := rfl
@[simp] theorem State.setPclatu_toBit (s : State) (v : BitVec 5) : (s.setPclatu v).toBit = s.toBit := rfl
@[simp] theorem State.setPclatu_pdBit (s : State) (v : BitVec 5) : (s.setPclatu v).pdBit = s.pdBit := rfl
@[simp] theorem State.setPclatu_wdt (s : State) (v : BitVec 5) : (s.setPclatu v).wdt = s.wdt := rfl
@[simp] theorem State.setPclatu_wdtPost (s : State) (v : BitVec 5) : (s.setPclatu v).wdtPost = s.wdtPost := rfl
@[simp] theorem State.setPclatu_mode (s : State) (v : BitVec 5) : (s.setPclatu v).mode = s.mode := rfl
@[simp] theorem State.setPclatu_ram (s : State) (v : BitVec 5) : (s.setPclatu v).ram = s.ram := rfl
@[simp] theorem State.setPclatu_prog (s : State) (v : BitVec 5) : (s.setPclatu v).prog = s.prog := rfl
@[simp] theorem State.setPclatu_cfg (s : State) (v : BitVec 5) : (s.setPclatu v).cfg = s.cfg := rfl
@[simp] theorem State.setPclatu_inputs (s : State) (v : BitVec 5) : (s.setPclatu v).inputs = s.inputs := rfl
@[simp] theorem State.setPclatu_freeIx (s : State) (v : BitVec 5) : (s.setPclatu v).freeIx = s.freeIx := rfl

/-! `State.setStack` -/

@[simp] theorem State.setStack_w (s : State) (v : List PAddr) : (s.setStack v).w = s.w := rfl
@[simp] theorem State.setStack_bsr (s : State) (v : List PAddr) : (s.setStack v).bsr = s.bsr := rfl
@[simp] theorem State.setStack_flags (s : State) (v : List PAddr) : (s.setStack v).flags = s.flags := rfl
@[simp] theorem State.setStack_pc (s : State) (v : List PAddr) : (s.setStack v).pc = s.pc := rfl
@[simp] theorem State.setStack_pclath (s : State) (v : List PAddr) : (s.setStack v).pclath = s.pclath := rfl
@[simp] theorem State.setStack_pclatu (s : State) (v : List PAddr) : (s.setStack v).pclatu = s.pclatu := rfl
@[simp] theorem State.setStack_stack (s : State) (v : List PAddr) : (s.setStack v).stack = v := rfl
@[simp] theorem State.setStack_ws (s : State) (v : List PAddr) : (s.setStack v).ws = s.ws := rfl
@[simp] theorem State.setStack_statuss (s : State) (v : List PAddr) : (s.setStack v).statuss = s.statuss := rfl
@[simp] theorem State.setStack_bsrs (s : State) (v : List PAddr) : (s.setStack v).bsrs = s.bsrs := rfl
@[simp] theorem State.setStack_fsr0 (s : State) (v : List PAddr) : (s.setStack v).fsr0 = s.fsr0 := rfl
@[simp] theorem State.setStack_fsr1 (s : State) (v : List PAddr) : (s.setStack v).fsr1 = s.fsr1 := rfl
@[simp] theorem State.setStack_fsr2 (s : State) (v : List PAddr) : (s.setStack v).fsr2 = s.fsr2 := rfl
@[simp] theorem State.setStack_prodh (s : State) (v : List PAddr) : (s.setStack v).prodh = s.prodh := rfl
@[simp] theorem State.setStack_prodl (s : State) (v : List PAddr) : (s.setStack v).prodl = s.prodl := rfl
@[simp] theorem State.setStack_tblptr (s : State) (v : List PAddr) : (s.setStack v).tblptr = s.tblptr := rfl
@[simp] theorem State.setStack_tablat (s : State) (v : List PAddr) : (s.setStack v).tablat = s.tablat := rfl
@[simp] theorem State.setStack_hold (s : State) (v : List PAddr) : (s.setStack v).hold = s.hold := rfl
@[simp] theorem State.setStack_gieh (s : State) (v : List PAddr) : (s.setStack v).gieh = s.gieh := rfl
@[simp] theorem State.setStack_giel (s : State) (v : List PAddr) : (s.setStack v).giel = s.giel := rfl
@[simp] theorem State.setStack_toBit (s : State) (v : List PAddr) : (s.setStack v).toBit = s.toBit := rfl
@[simp] theorem State.setStack_pdBit (s : State) (v : List PAddr) : (s.setStack v).pdBit = s.pdBit := rfl
@[simp] theorem State.setStack_wdt (s : State) (v : List PAddr) : (s.setStack v).wdt = s.wdt := rfl
@[simp] theorem State.setStack_wdtPost (s : State) (v : List PAddr) : (s.setStack v).wdtPost = s.wdtPost := rfl
@[simp] theorem State.setStack_mode (s : State) (v : List PAddr) : (s.setStack v).mode = s.mode := rfl
@[simp] theorem State.setStack_ram (s : State) (v : List PAddr) : (s.setStack v).ram = s.ram := rfl
@[simp] theorem State.setStack_prog (s : State) (v : List PAddr) : (s.setStack v).prog = s.prog := rfl
@[simp] theorem State.setStack_cfg (s : State) (v : List PAddr) : (s.setStack v).cfg = s.cfg := rfl
@[simp] theorem State.setStack_inputs (s : State) (v : List PAddr) : (s.setStack v).inputs = s.inputs := rfl
@[simp] theorem State.setStack_freeIx (s : State) (v : List PAddr) : (s.setStack v).freeIx = s.freeIx := rfl

/-! `State.setShadow` -/

@[simp] theorem State.setShadow_w (s : State) (w : Byte) (fl : Flags) (b : Bank) : (s.setShadow w fl b).w = s.w := rfl
@[simp] theorem State.setShadow_bsr (s : State) (w : Byte) (fl : Flags) (b : Bank) : (s.setShadow w fl b).bsr = s.bsr := rfl
@[simp] theorem State.setShadow_flags (s : State) (w : Byte) (fl : Flags) (b : Bank) : (s.setShadow w fl b).flags = s.flags := rfl
@[simp] theorem State.setShadow_pc (s : State) (w : Byte) (fl : Flags) (b : Bank) : (s.setShadow w fl b).pc = s.pc := rfl
@[simp] theorem State.setShadow_pclath (s : State) (w : Byte) (fl : Flags) (b : Bank) : (s.setShadow w fl b).pclath = s.pclath := rfl
@[simp] theorem State.setShadow_pclatu (s : State) (w : Byte) (fl : Flags) (b : Bank) : (s.setShadow w fl b).pclatu = s.pclatu := rfl
@[simp] theorem State.setShadow_stack (s : State) (w : Byte) (fl : Flags) (b : Bank) : (s.setShadow w fl b).stack = s.stack := rfl
@[simp] theorem State.setShadow_ws (s : State) (w : Byte) (fl : Flags) (b : Bank) : (s.setShadow w fl b).ws = w := rfl
@[simp] theorem State.setShadow_statuss (s : State) (w : Byte) (fl : Flags) (b : Bank) : (s.setShadow w fl b).statuss = fl := rfl
@[simp] theorem State.setShadow_bsrs (s : State) (w : Byte) (fl : Flags) (b : Bank) : (s.setShadow w fl b).bsrs = b := rfl
@[simp] theorem State.setShadow_fsr0 (s : State) (w : Byte) (fl : Flags) (b : Bank) : (s.setShadow w fl b).fsr0 = s.fsr0 := rfl
@[simp] theorem State.setShadow_fsr1 (s : State) (w : Byte) (fl : Flags) (b : Bank) : (s.setShadow w fl b).fsr1 = s.fsr1 := rfl
@[simp] theorem State.setShadow_fsr2 (s : State) (w : Byte) (fl : Flags) (b : Bank) : (s.setShadow w fl b).fsr2 = s.fsr2 := rfl
@[simp] theorem State.setShadow_prodh (s : State) (w : Byte) (fl : Flags) (b : Bank) : (s.setShadow w fl b).prodh = s.prodh := rfl
@[simp] theorem State.setShadow_prodl (s : State) (w : Byte) (fl : Flags) (b : Bank) : (s.setShadow w fl b).prodl = s.prodl := rfl
@[simp] theorem State.setShadow_tblptr (s : State) (w : Byte) (fl : Flags) (b : Bank) : (s.setShadow w fl b).tblptr = s.tblptr := rfl
@[simp] theorem State.setShadow_tablat (s : State) (w : Byte) (fl : Flags) (b : Bank) : (s.setShadow w fl b).tablat = s.tablat := rfl
@[simp] theorem State.setShadow_hold (s : State) (w : Byte) (fl : Flags) (b : Bank) : (s.setShadow w fl b).hold = s.hold := rfl
@[simp] theorem State.setShadow_gieh (s : State) (w : Byte) (fl : Flags) (b : Bank) : (s.setShadow w fl b).gieh = s.gieh := rfl
@[simp] theorem State.setShadow_giel (s : State) (w : Byte) (fl : Flags) (b : Bank) : (s.setShadow w fl b).giel = s.giel := rfl
@[simp] theorem State.setShadow_toBit (s : State) (w : Byte) (fl : Flags) (b : Bank) : (s.setShadow w fl b).toBit = s.toBit := rfl
@[simp] theorem State.setShadow_pdBit (s : State) (w : Byte) (fl : Flags) (b : Bank) : (s.setShadow w fl b).pdBit = s.pdBit := rfl
@[simp] theorem State.setShadow_wdt (s : State) (w : Byte) (fl : Flags) (b : Bank) : (s.setShadow w fl b).wdt = s.wdt := rfl
@[simp] theorem State.setShadow_wdtPost (s : State) (w : Byte) (fl : Flags) (b : Bank) : (s.setShadow w fl b).wdtPost = s.wdtPost := rfl
@[simp] theorem State.setShadow_mode (s : State) (w : Byte) (fl : Flags) (b : Bank) : (s.setShadow w fl b).mode = s.mode := rfl
@[simp] theorem State.setShadow_ram (s : State) (w : Byte) (fl : Flags) (b : Bank) : (s.setShadow w fl b).ram = s.ram := rfl
@[simp] theorem State.setShadow_prog (s : State) (w : Byte) (fl : Flags) (b : Bank) : (s.setShadow w fl b).prog = s.prog := rfl
@[simp] theorem State.setShadow_cfg (s : State) (w : Byte) (fl : Flags) (b : Bank) : (s.setShadow w fl b).cfg = s.cfg := rfl
@[simp] theorem State.setShadow_inputs (s : State) (w : Byte) (fl : Flags) (b : Bank) : (s.setShadow w fl b).inputs = s.inputs := rfl
@[simp] theorem State.setShadow_freeIx (s : State) (w : Byte) (fl : Flags) (b : Bank) : (s.setShadow w fl b).freeIx = s.freeIx := rfl

/-! `State.setFsr0` -/

@[simp] theorem State.setFsr0_w (s : State) (v : BitVec 12) : (s.setFsr0 v).w = s.w := rfl
@[simp] theorem State.setFsr0_bsr (s : State) (v : BitVec 12) : (s.setFsr0 v).bsr = s.bsr := rfl
@[simp] theorem State.setFsr0_flags (s : State) (v : BitVec 12) : (s.setFsr0 v).flags = s.flags := rfl
@[simp] theorem State.setFsr0_pc (s : State) (v : BitVec 12) : (s.setFsr0 v).pc = s.pc := rfl
@[simp] theorem State.setFsr0_pclath (s : State) (v : BitVec 12) : (s.setFsr0 v).pclath = s.pclath := rfl
@[simp] theorem State.setFsr0_pclatu (s : State) (v : BitVec 12) : (s.setFsr0 v).pclatu = s.pclatu := rfl
@[simp] theorem State.setFsr0_stack (s : State) (v : BitVec 12) : (s.setFsr0 v).stack = s.stack := rfl
@[simp] theorem State.setFsr0_ws (s : State) (v : BitVec 12) : (s.setFsr0 v).ws = s.ws := rfl
@[simp] theorem State.setFsr0_statuss (s : State) (v : BitVec 12) : (s.setFsr0 v).statuss = s.statuss := rfl
@[simp] theorem State.setFsr0_bsrs (s : State) (v : BitVec 12) : (s.setFsr0 v).bsrs = s.bsrs := rfl
@[simp] theorem State.setFsr0_fsr0 (s : State) (v : BitVec 12) : (s.setFsr0 v).fsr0 = v := rfl
@[simp] theorem State.setFsr0_fsr1 (s : State) (v : BitVec 12) : (s.setFsr0 v).fsr1 = s.fsr1 := rfl
@[simp] theorem State.setFsr0_fsr2 (s : State) (v : BitVec 12) : (s.setFsr0 v).fsr2 = s.fsr2 := rfl
@[simp] theorem State.setFsr0_prodh (s : State) (v : BitVec 12) : (s.setFsr0 v).prodh = s.prodh := rfl
@[simp] theorem State.setFsr0_prodl (s : State) (v : BitVec 12) : (s.setFsr0 v).prodl = s.prodl := rfl
@[simp] theorem State.setFsr0_tblptr (s : State) (v : BitVec 12) : (s.setFsr0 v).tblptr = s.tblptr := rfl
@[simp] theorem State.setFsr0_tablat (s : State) (v : BitVec 12) : (s.setFsr0 v).tablat = s.tablat := rfl
@[simp] theorem State.setFsr0_hold (s : State) (v : BitVec 12) : (s.setFsr0 v).hold = s.hold := rfl
@[simp] theorem State.setFsr0_gieh (s : State) (v : BitVec 12) : (s.setFsr0 v).gieh = s.gieh := rfl
@[simp] theorem State.setFsr0_giel (s : State) (v : BitVec 12) : (s.setFsr0 v).giel = s.giel := rfl
@[simp] theorem State.setFsr0_toBit (s : State) (v : BitVec 12) : (s.setFsr0 v).toBit = s.toBit := rfl
@[simp] theorem State.setFsr0_pdBit (s : State) (v : BitVec 12) : (s.setFsr0 v).pdBit = s.pdBit := rfl
@[simp] theorem State.setFsr0_wdt (s : State) (v : BitVec 12) : (s.setFsr0 v).wdt = s.wdt := rfl
@[simp] theorem State.setFsr0_wdtPost (s : State) (v : BitVec 12) : (s.setFsr0 v).wdtPost = s.wdtPost := rfl
@[simp] theorem State.setFsr0_mode (s : State) (v : BitVec 12) : (s.setFsr0 v).mode = s.mode := rfl
@[simp] theorem State.setFsr0_ram (s : State) (v : BitVec 12) : (s.setFsr0 v).ram = s.ram := rfl
@[simp] theorem State.setFsr0_prog (s : State) (v : BitVec 12) : (s.setFsr0 v).prog = s.prog := rfl
@[simp] theorem State.setFsr0_cfg (s : State) (v : BitVec 12) : (s.setFsr0 v).cfg = s.cfg := rfl
@[simp] theorem State.setFsr0_inputs (s : State) (v : BitVec 12) : (s.setFsr0 v).inputs = s.inputs := rfl
@[simp] theorem State.setFsr0_freeIx (s : State) (v : BitVec 12) : (s.setFsr0 v).freeIx = s.freeIx := rfl

/-! `State.setFsr1` -/

@[simp] theorem State.setFsr1_w (s : State) (v : BitVec 12) : (s.setFsr1 v).w = s.w := rfl
@[simp] theorem State.setFsr1_bsr (s : State) (v : BitVec 12) : (s.setFsr1 v).bsr = s.bsr := rfl
@[simp] theorem State.setFsr1_flags (s : State) (v : BitVec 12) : (s.setFsr1 v).flags = s.flags := rfl
@[simp] theorem State.setFsr1_pc (s : State) (v : BitVec 12) : (s.setFsr1 v).pc = s.pc := rfl
@[simp] theorem State.setFsr1_pclath (s : State) (v : BitVec 12) : (s.setFsr1 v).pclath = s.pclath := rfl
@[simp] theorem State.setFsr1_pclatu (s : State) (v : BitVec 12) : (s.setFsr1 v).pclatu = s.pclatu := rfl
@[simp] theorem State.setFsr1_stack (s : State) (v : BitVec 12) : (s.setFsr1 v).stack = s.stack := rfl
@[simp] theorem State.setFsr1_ws (s : State) (v : BitVec 12) : (s.setFsr1 v).ws = s.ws := rfl
@[simp] theorem State.setFsr1_statuss (s : State) (v : BitVec 12) : (s.setFsr1 v).statuss = s.statuss := rfl
@[simp] theorem State.setFsr1_bsrs (s : State) (v : BitVec 12) : (s.setFsr1 v).bsrs = s.bsrs := rfl
@[simp] theorem State.setFsr1_fsr0 (s : State) (v : BitVec 12) : (s.setFsr1 v).fsr0 = s.fsr0 := rfl
@[simp] theorem State.setFsr1_fsr1 (s : State) (v : BitVec 12) : (s.setFsr1 v).fsr1 = v := rfl
@[simp] theorem State.setFsr1_fsr2 (s : State) (v : BitVec 12) : (s.setFsr1 v).fsr2 = s.fsr2 := rfl
@[simp] theorem State.setFsr1_prodh (s : State) (v : BitVec 12) : (s.setFsr1 v).prodh = s.prodh := rfl
@[simp] theorem State.setFsr1_prodl (s : State) (v : BitVec 12) : (s.setFsr1 v).prodl = s.prodl := rfl
@[simp] theorem State.setFsr1_tblptr (s : State) (v : BitVec 12) : (s.setFsr1 v).tblptr = s.tblptr := rfl
@[simp] theorem State.setFsr1_tablat (s : State) (v : BitVec 12) : (s.setFsr1 v).tablat = s.tablat := rfl
@[simp] theorem State.setFsr1_hold (s : State) (v : BitVec 12) : (s.setFsr1 v).hold = s.hold := rfl
@[simp] theorem State.setFsr1_gieh (s : State) (v : BitVec 12) : (s.setFsr1 v).gieh = s.gieh := rfl
@[simp] theorem State.setFsr1_giel (s : State) (v : BitVec 12) : (s.setFsr1 v).giel = s.giel := rfl
@[simp] theorem State.setFsr1_toBit (s : State) (v : BitVec 12) : (s.setFsr1 v).toBit = s.toBit := rfl
@[simp] theorem State.setFsr1_pdBit (s : State) (v : BitVec 12) : (s.setFsr1 v).pdBit = s.pdBit := rfl
@[simp] theorem State.setFsr1_wdt (s : State) (v : BitVec 12) : (s.setFsr1 v).wdt = s.wdt := rfl
@[simp] theorem State.setFsr1_wdtPost (s : State) (v : BitVec 12) : (s.setFsr1 v).wdtPost = s.wdtPost := rfl
@[simp] theorem State.setFsr1_mode (s : State) (v : BitVec 12) : (s.setFsr1 v).mode = s.mode := rfl
@[simp] theorem State.setFsr1_ram (s : State) (v : BitVec 12) : (s.setFsr1 v).ram = s.ram := rfl
@[simp] theorem State.setFsr1_prog (s : State) (v : BitVec 12) : (s.setFsr1 v).prog = s.prog := rfl
@[simp] theorem State.setFsr1_cfg (s : State) (v : BitVec 12) : (s.setFsr1 v).cfg = s.cfg := rfl
@[simp] theorem State.setFsr1_inputs (s : State) (v : BitVec 12) : (s.setFsr1 v).inputs = s.inputs := rfl
@[simp] theorem State.setFsr1_freeIx (s : State) (v : BitVec 12) : (s.setFsr1 v).freeIx = s.freeIx := rfl

/-! `State.setFsr2` -/

@[simp] theorem State.setFsr2_w (s : State) (v : BitVec 12) : (s.setFsr2 v).w = s.w := rfl
@[simp] theorem State.setFsr2_bsr (s : State) (v : BitVec 12) : (s.setFsr2 v).bsr = s.bsr := rfl
@[simp] theorem State.setFsr2_flags (s : State) (v : BitVec 12) : (s.setFsr2 v).flags = s.flags := rfl
@[simp] theorem State.setFsr2_pc (s : State) (v : BitVec 12) : (s.setFsr2 v).pc = s.pc := rfl
@[simp] theorem State.setFsr2_pclath (s : State) (v : BitVec 12) : (s.setFsr2 v).pclath = s.pclath := rfl
@[simp] theorem State.setFsr2_pclatu (s : State) (v : BitVec 12) : (s.setFsr2 v).pclatu = s.pclatu := rfl
@[simp] theorem State.setFsr2_stack (s : State) (v : BitVec 12) : (s.setFsr2 v).stack = s.stack := rfl
@[simp] theorem State.setFsr2_ws (s : State) (v : BitVec 12) : (s.setFsr2 v).ws = s.ws := rfl
@[simp] theorem State.setFsr2_statuss (s : State) (v : BitVec 12) : (s.setFsr2 v).statuss = s.statuss := rfl
@[simp] theorem State.setFsr2_bsrs (s : State) (v : BitVec 12) : (s.setFsr2 v).bsrs = s.bsrs := rfl
@[simp] theorem State.setFsr2_fsr0 (s : State) (v : BitVec 12) : (s.setFsr2 v).fsr0 = s.fsr0 := rfl
@[simp] theorem State.setFsr2_fsr1 (s : State) (v : BitVec 12) : (s.setFsr2 v).fsr1 = s.fsr1 := rfl
@[simp] theorem State.setFsr2_fsr2 (s : State) (v : BitVec 12) : (s.setFsr2 v).fsr2 = v := rfl
@[simp] theorem State.setFsr2_prodh (s : State) (v : BitVec 12) : (s.setFsr2 v).prodh = s.prodh := rfl
@[simp] theorem State.setFsr2_prodl (s : State) (v : BitVec 12) : (s.setFsr2 v).prodl = s.prodl := rfl
@[simp] theorem State.setFsr2_tblptr (s : State) (v : BitVec 12) : (s.setFsr2 v).tblptr = s.tblptr := rfl
@[simp] theorem State.setFsr2_tablat (s : State) (v : BitVec 12) : (s.setFsr2 v).tablat = s.tablat := rfl
@[simp] theorem State.setFsr2_hold (s : State) (v : BitVec 12) : (s.setFsr2 v).hold = s.hold := rfl
@[simp] theorem State.setFsr2_gieh (s : State) (v : BitVec 12) : (s.setFsr2 v).gieh = s.gieh := rfl
@[simp] theorem State.setFsr2_giel (s : State) (v : BitVec 12) : (s.setFsr2 v).giel = s.giel := rfl
@[simp] theorem State.setFsr2_toBit (s : State) (v : BitVec 12) : (s.setFsr2 v).toBit = s.toBit := rfl
@[simp] theorem State.setFsr2_pdBit (s : State) (v : BitVec 12) : (s.setFsr2 v).pdBit = s.pdBit := rfl
@[simp] theorem State.setFsr2_wdt (s : State) (v : BitVec 12) : (s.setFsr2 v).wdt = s.wdt := rfl
@[simp] theorem State.setFsr2_wdtPost (s : State) (v : BitVec 12) : (s.setFsr2 v).wdtPost = s.wdtPost := rfl
@[simp] theorem State.setFsr2_mode (s : State) (v : BitVec 12) : (s.setFsr2 v).mode = s.mode := rfl
@[simp] theorem State.setFsr2_ram (s : State) (v : BitVec 12) : (s.setFsr2 v).ram = s.ram := rfl
@[simp] theorem State.setFsr2_prog (s : State) (v : BitVec 12) : (s.setFsr2 v).prog = s.prog := rfl
@[simp] theorem State.setFsr2_cfg (s : State) (v : BitVec 12) : (s.setFsr2 v).cfg = s.cfg := rfl
@[simp] theorem State.setFsr2_inputs (s : State) (v : BitVec 12) : (s.setFsr2 v).inputs = s.inputs := rfl
@[simp] theorem State.setFsr2_freeIx (s : State) (v : BitVec 12) : (s.setFsr2 v).freeIx = s.freeIx := rfl

/-! `State.setProd` -/

@[simp] theorem State.setProd_w (s : State) (h l : Byte) : (s.setProd h l).w = s.w := rfl
@[simp] theorem State.setProd_bsr (s : State) (h l : Byte) : (s.setProd h l).bsr = s.bsr := rfl
@[simp] theorem State.setProd_flags (s : State) (h l : Byte) : (s.setProd h l).flags = s.flags := rfl
@[simp] theorem State.setProd_pc (s : State) (h l : Byte) : (s.setProd h l).pc = s.pc := rfl
@[simp] theorem State.setProd_pclath (s : State) (h l : Byte) : (s.setProd h l).pclath = s.pclath := rfl
@[simp] theorem State.setProd_pclatu (s : State) (h l : Byte) : (s.setProd h l).pclatu = s.pclatu := rfl
@[simp] theorem State.setProd_stack (s : State) (h l : Byte) : (s.setProd h l).stack = s.stack := rfl
@[simp] theorem State.setProd_ws (s : State) (h l : Byte) : (s.setProd h l).ws = s.ws := rfl
@[simp] theorem State.setProd_statuss (s : State) (h l : Byte) : (s.setProd h l).statuss = s.statuss := rfl
@[simp] theorem State.setProd_bsrs (s : State) (h l : Byte) : (s.setProd h l).bsrs = s.bsrs := rfl
@[simp] theorem State.setProd_fsr0 (s : State) (h l : Byte) : (s.setProd h l).fsr0 = s.fsr0 := rfl
@[simp] theorem State.setProd_fsr1 (s : State) (h l : Byte) : (s.setProd h l).fsr1 = s.fsr1 := rfl
@[simp] theorem State.setProd_fsr2 (s : State) (h l : Byte) : (s.setProd h l).fsr2 = s.fsr2 := rfl
@[simp] theorem State.setProd_prodh (s : State) (h l : Byte) : (s.setProd h l).prodh = h := rfl
@[simp] theorem State.setProd_prodl (s : State) (h l : Byte) : (s.setProd h l).prodl = l := rfl
@[simp] theorem State.setProd_tblptr (s : State) (h l : Byte) : (s.setProd h l).tblptr = s.tblptr := rfl
@[simp] theorem State.setProd_tablat (s : State) (h l : Byte) : (s.setProd h l).tablat = s.tablat := rfl
@[simp] theorem State.setProd_hold (s : State) (h l : Byte) : (s.setProd h l).hold = s.hold := rfl
@[simp] theorem State.setProd_gieh (s : State) (h l : Byte) : (s.setProd h l).gieh = s.gieh := rfl
@[simp] theorem State.setProd_giel (s : State) (h l : Byte) : (s.setProd h l).giel = s.giel := rfl
@[simp] theorem State.setProd_toBit (s : State) (h l : Byte) : (s.setProd h l).toBit = s.toBit := rfl
@[simp] theorem State.setProd_pdBit (s : State) (h l : Byte) : (s.setProd h l).pdBit = s.pdBit := rfl
@[simp] theorem State.setProd_wdt (s : State) (h l : Byte) : (s.setProd h l).wdt = s.wdt := rfl
@[simp] theorem State.setProd_wdtPost (s : State) (h l : Byte) : (s.setProd h l).wdtPost = s.wdtPost := rfl
@[simp] theorem State.setProd_mode (s : State) (h l : Byte) : (s.setProd h l).mode = s.mode := rfl
@[simp] theorem State.setProd_ram (s : State) (h l : Byte) : (s.setProd h l).ram = s.ram := rfl
@[simp] theorem State.setProd_prog (s : State) (h l : Byte) : (s.setProd h l).prog = s.prog := rfl
@[simp] theorem State.setProd_cfg (s : State) (h l : Byte) : (s.setProd h l).cfg = s.cfg := rfl
@[simp] theorem State.setProd_inputs (s : State) (h l : Byte) : (s.setProd h l).inputs = s.inputs := rfl
@[simp] theorem State.setProd_freeIx (s : State) (h l : Byte) : (s.setProd h l).freeIx = s.freeIx := rfl

/-! `State.setTblptr` -/

@[simp] theorem State.setTblptr_w (s : State) (v : PAddr) : (s.setTblptr v).w = s.w := rfl
@[simp] theorem State.setTblptr_bsr (s : State) (v : PAddr) : (s.setTblptr v).bsr = s.bsr := rfl
@[simp] theorem State.setTblptr_flags (s : State) (v : PAddr) : (s.setTblptr v).flags = s.flags := rfl
@[simp] theorem State.setTblptr_pc (s : State) (v : PAddr) : (s.setTblptr v).pc = s.pc := rfl
@[simp] theorem State.setTblptr_pclath (s : State) (v : PAddr) : (s.setTblptr v).pclath = s.pclath := rfl
@[simp] theorem State.setTblptr_pclatu (s : State) (v : PAddr) : (s.setTblptr v).pclatu = s.pclatu := rfl
@[simp] theorem State.setTblptr_stack (s : State) (v : PAddr) : (s.setTblptr v).stack = s.stack := rfl
@[simp] theorem State.setTblptr_ws (s : State) (v : PAddr) : (s.setTblptr v).ws = s.ws := rfl
@[simp] theorem State.setTblptr_statuss (s : State) (v : PAddr) : (s.setTblptr v).statuss = s.statuss := rfl
@[simp] theorem State.setTblptr_bsrs (s : State) (v : PAddr) : (s.setTblptr v).bsrs = s.bsrs := rfl
@[simp] theorem State.setTblptr_fsr0 (s : State) (v : PAddr) : (s.setTblptr v).fsr0 = s.fsr0 := rfl
@[simp] theorem State.setTblptr_fsr1 (s : State) (v : PAddr) : (s.setTblptr v).fsr1 = s.fsr1 := rfl
@[simp] theorem State.setTblptr_fsr2 (s : State) (v : PAddr) : (s.setTblptr v).fsr2 = s.fsr2 := rfl
@[simp] theorem State.setTblptr_prodh (s : State) (v : PAddr) : (s.setTblptr v).prodh = s.prodh := rfl
@[simp] theorem State.setTblptr_prodl (s : State) (v : PAddr) : (s.setTblptr v).prodl = s.prodl := rfl
@[simp] theorem State.setTblptr_tblptr (s : State) (v : PAddr) : (s.setTblptr v).tblptr = v := rfl
@[simp] theorem State.setTblptr_tablat (s : State) (v : PAddr) : (s.setTblptr v).tablat = s.tablat := rfl
@[simp] theorem State.setTblptr_hold (s : State) (v : PAddr) : (s.setTblptr v).hold = s.hold := rfl
@[simp] theorem State.setTblptr_gieh (s : State) (v : PAddr) : (s.setTblptr v).gieh = s.gieh := rfl
@[simp] theorem State.setTblptr_giel (s : State) (v : PAddr) : (s.setTblptr v).giel = s.giel := rfl
@[simp] theorem State.setTblptr_toBit (s : State) (v : PAddr) : (s.setTblptr v).toBit = s.toBit := rfl
@[simp] theorem State.setTblptr_pdBit (s : State) (v : PAddr) : (s.setTblptr v).pdBit = s.pdBit := rfl
@[simp] theorem State.setTblptr_wdt (s : State) (v : PAddr) : (s.setTblptr v).wdt = s.wdt := rfl
@[simp] theorem State.setTblptr_wdtPost (s : State) (v : PAddr) : (s.setTblptr v).wdtPost = s.wdtPost := rfl
@[simp] theorem State.setTblptr_mode (s : State) (v : PAddr) : (s.setTblptr v).mode = s.mode := rfl
@[simp] theorem State.setTblptr_ram (s : State) (v : PAddr) : (s.setTblptr v).ram = s.ram := rfl
@[simp] theorem State.setTblptr_prog (s : State) (v : PAddr) : (s.setTblptr v).prog = s.prog := rfl
@[simp] theorem State.setTblptr_cfg (s : State) (v : PAddr) : (s.setTblptr v).cfg = s.cfg := rfl
@[simp] theorem State.setTblptr_inputs (s : State) (v : PAddr) : (s.setTblptr v).inputs = s.inputs := rfl
@[simp] theorem State.setTblptr_freeIx (s : State) (v : PAddr) : (s.setTblptr v).freeIx = s.freeIx := rfl

/-! `State.setTablat` -/

@[simp] theorem State.setTablat_w (s : State) (v : Byte) : (s.setTablat v).w = s.w := rfl
@[simp] theorem State.setTablat_bsr (s : State) (v : Byte) : (s.setTablat v).bsr = s.bsr := rfl
@[simp] theorem State.setTablat_flags (s : State) (v : Byte) : (s.setTablat v).flags = s.flags := rfl
@[simp] theorem State.setTablat_pc (s : State) (v : Byte) : (s.setTablat v).pc = s.pc := rfl
@[simp] theorem State.setTablat_pclath (s : State) (v : Byte) : (s.setTablat v).pclath = s.pclath := rfl
@[simp] theorem State.setTablat_pclatu (s : State) (v : Byte) : (s.setTablat v).pclatu = s.pclatu := rfl
@[simp] theorem State.setTablat_stack (s : State) (v : Byte) : (s.setTablat v).stack = s.stack := rfl
@[simp] theorem State.setTablat_ws (s : State) (v : Byte) : (s.setTablat v).ws = s.ws := rfl
@[simp] theorem State.setTablat_statuss (s : State) (v : Byte) : (s.setTablat v).statuss = s.statuss := rfl
@[simp] theorem State.setTablat_bsrs (s : State) (v : Byte) : (s.setTablat v).bsrs = s.bsrs := rfl
@[simp] theorem State.setTablat_fsr0 (s : State) (v : Byte) : (s.setTablat v).fsr0 = s.fsr0 := rfl
@[simp] theorem State.setTablat_fsr1 (s : State) (v : Byte) : (s.setTablat v).fsr1 = s.fsr1 := rfl
@[simp] theorem State.setTablat_fsr2 (s : State) (v : Byte) : (s.setTablat v).fsr2 = s.fsr2 := rfl
@[simp] theorem State.setTablat_prodh (s : State) (v : Byte) : (s.setTablat v).prodh = s.prodh := rfl
@[simp] theorem State.setTablat_prodl (s : State) (v : Byte) : (s.setTablat v).prodl = s.prodl := rfl
@[simp] theorem State.setTablat_tblptr (s : State) (v : Byte) : (s.setTablat v).tblptr = s.tblptr := rfl
@[simp] theorem State.setTablat_tablat (s : State) (v : Byte) : (s.setTablat v).tablat = v := rfl
@[simp] theorem State.setTablat_hold (s : State) (v : Byte) : (s.setTablat v).hold = s.hold := rfl
@[simp] theorem State.setTablat_gieh (s : State) (v : Byte) : (s.setTablat v).gieh = s.gieh := rfl
@[simp] theorem State.setTablat_giel (s : State) (v : Byte) : (s.setTablat v).giel = s.giel := rfl
@[simp] theorem State.setTablat_toBit (s : State) (v : Byte) : (s.setTablat v).toBit = s.toBit := rfl
@[simp] theorem State.setTablat_pdBit (s : State) (v : Byte) : (s.setTablat v).pdBit = s.pdBit := rfl
@[simp] theorem State.setTablat_wdt (s : State) (v : Byte) : (s.setTablat v).wdt = s.wdt := rfl
@[simp] theorem State.setTablat_wdtPost (s : State) (v : Byte) : (s.setTablat v).wdtPost = s.wdtPost := rfl
@[simp] theorem State.setTablat_mode (s : State) (v : Byte) : (s.setTablat v).mode = s.mode := rfl
@[simp] theorem State.setTablat_ram (s : State) (v : Byte) : (s.setTablat v).ram = s.ram := rfl
@[simp] theorem State.setTablat_prog (s : State) (v : Byte) : (s.setTablat v).prog = s.prog := rfl
@[simp] theorem State.setTablat_cfg (s : State) (v : Byte) : (s.setTablat v).cfg = s.cfg := rfl
@[simp] theorem State.setTablat_inputs (s : State) (v : Byte) : (s.setTablat v).inputs = s.inputs := rfl
@[simp] theorem State.setTablat_freeIx (s : State) (v : Byte) : (s.setTablat v).freeIx = s.freeIx := rfl

/-! `State.setHold` -/

@[simp] theorem State.setHold_w (s : State) (v : Vector Byte 8) : (s.setHold v).w = s.w := rfl
@[simp] theorem State.setHold_bsr (s : State) (v : Vector Byte 8) : (s.setHold v).bsr = s.bsr := rfl
@[simp] theorem State.setHold_flags (s : State) (v : Vector Byte 8) : (s.setHold v).flags = s.flags := rfl
@[simp] theorem State.setHold_pc (s : State) (v : Vector Byte 8) : (s.setHold v).pc = s.pc := rfl
@[simp] theorem State.setHold_pclath (s : State) (v : Vector Byte 8) : (s.setHold v).pclath = s.pclath := rfl
@[simp] theorem State.setHold_pclatu (s : State) (v : Vector Byte 8) : (s.setHold v).pclatu = s.pclatu := rfl
@[simp] theorem State.setHold_stack (s : State) (v : Vector Byte 8) : (s.setHold v).stack = s.stack := rfl
@[simp] theorem State.setHold_ws (s : State) (v : Vector Byte 8) : (s.setHold v).ws = s.ws := rfl
@[simp] theorem State.setHold_statuss (s : State) (v : Vector Byte 8) : (s.setHold v).statuss = s.statuss := rfl
@[simp] theorem State.setHold_bsrs (s : State) (v : Vector Byte 8) : (s.setHold v).bsrs = s.bsrs := rfl
@[simp] theorem State.setHold_fsr0 (s : State) (v : Vector Byte 8) : (s.setHold v).fsr0 = s.fsr0 := rfl
@[simp] theorem State.setHold_fsr1 (s : State) (v : Vector Byte 8) : (s.setHold v).fsr1 = s.fsr1 := rfl
@[simp] theorem State.setHold_fsr2 (s : State) (v : Vector Byte 8) : (s.setHold v).fsr2 = s.fsr2 := rfl
@[simp] theorem State.setHold_prodh (s : State) (v : Vector Byte 8) : (s.setHold v).prodh = s.prodh := rfl
@[simp] theorem State.setHold_prodl (s : State) (v : Vector Byte 8) : (s.setHold v).prodl = s.prodl := rfl
@[simp] theorem State.setHold_tblptr (s : State) (v : Vector Byte 8) : (s.setHold v).tblptr = s.tblptr := rfl
@[simp] theorem State.setHold_tablat (s : State) (v : Vector Byte 8) : (s.setHold v).tablat = s.tablat := rfl
@[simp] theorem State.setHold_hold (s : State) (v : Vector Byte 8) : (s.setHold v).hold = v := rfl
@[simp] theorem State.setHold_gieh (s : State) (v : Vector Byte 8) : (s.setHold v).gieh = s.gieh := rfl
@[simp] theorem State.setHold_giel (s : State) (v : Vector Byte 8) : (s.setHold v).giel = s.giel := rfl
@[simp] theorem State.setHold_toBit (s : State) (v : Vector Byte 8) : (s.setHold v).toBit = s.toBit := rfl
@[simp] theorem State.setHold_pdBit (s : State) (v : Vector Byte 8) : (s.setHold v).pdBit = s.pdBit := rfl
@[simp] theorem State.setHold_wdt (s : State) (v : Vector Byte 8) : (s.setHold v).wdt = s.wdt := rfl
@[simp] theorem State.setHold_wdtPost (s : State) (v : Vector Byte 8) : (s.setHold v).wdtPost = s.wdtPost := rfl
@[simp] theorem State.setHold_mode (s : State) (v : Vector Byte 8) : (s.setHold v).mode = s.mode := rfl
@[simp] theorem State.setHold_ram (s : State) (v : Vector Byte 8) : (s.setHold v).ram = s.ram := rfl
@[simp] theorem State.setHold_prog (s : State) (v : Vector Byte 8) : (s.setHold v).prog = s.prog := rfl
@[simp] theorem State.setHold_cfg (s : State) (v : Vector Byte 8) : (s.setHold v).cfg = s.cfg := rfl
@[simp] theorem State.setHold_inputs (s : State) (v : Vector Byte 8) : (s.setHold v).inputs = s.inputs := rfl
@[simp] theorem State.setHold_freeIx (s : State) (v : Vector Byte 8) : (s.setHold v).freeIx = s.freeIx := rfl

/-! `State.setGie` -/

@[simp] theorem State.setGie_w (s : State) (h l : Bool) : (s.setGie h l).w = s.w := rfl
@[simp] theorem State.setGie_bsr (s : State) (h l : Bool) : (s.setGie h l).bsr = s.bsr := rfl
@[simp] theorem State.setGie_flags (s : State) (h l : Bool) : (s.setGie h l).flags = s.flags := rfl
@[simp] theorem State.setGie_pc (s : State) (h l : Bool) : (s.setGie h l).pc = s.pc := rfl
@[simp] theorem State.setGie_pclath (s : State) (h l : Bool) : (s.setGie h l).pclath = s.pclath := rfl
@[simp] theorem State.setGie_pclatu (s : State) (h l : Bool) : (s.setGie h l).pclatu = s.pclatu := rfl
@[simp] theorem State.setGie_stack (s : State) (h l : Bool) : (s.setGie h l).stack = s.stack := rfl
@[simp] theorem State.setGie_ws (s : State) (h l : Bool) : (s.setGie h l).ws = s.ws := rfl
@[simp] theorem State.setGie_statuss (s : State) (h l : Bool) : (s.setGie h l).statuss = s.statuss := rfl
@[simp] theorem State.setGie_bsrs (s : State) (h l : Bool) : (s.setGie h l).bsrs = s.bsrs := rfl
@[simp] theorem State.setGie_fsr0 (s : State) (h l : Bool) : (s.setGie h l).fsr0 = s.fsr0 := rfl
@[simp] theorem State.setGie_fsr1 (s : State) (h l : Bool) : (s.setGie h l).fsr1 = s.fsr1 := rfl
@[simp] theorem State.setGie_fsr2 (s : State) (h l : Bool) : (s.setGie h l).fsr2 = s.fsr2 := rfl
@[simp] theorem State.setGie_prodh (s : State) (h l : Bool) : (s.setGie h l).prodh = s.prodh := rfl
@[simp] theorem State.setGie_prodl (s : State) (h l : Bool) : (s.setGie h l).prodl = s.prodl := rfl
@[simp] theorem State.setGie_tblptr (s : State) (h l : Bool) : (s.setGie h l).tblptr = s.tblptr := rfl
@[simp] theorem State.setGie_tablat (s : State) (h l : Bool) : (s.setGie h l).tablat = s.tablat := rfl
@[simp] theorem State.setGie_hold (s : State) (h l : Bool) : (s.setGie h l).hold = s.hold := rfl
@[simp] theorem State.setGie_gieh (s : State) (h l : Bool) : (s.setGie h l).gieh = h := rfl
@[simp] theorem State.setGie_giel (s : State) (h l : Bool) : (s.setGie h l).giel = l := rfl
@[simp] theorem State.setGie_toBit (s : State) (h l : Bool) : (s.setGie h l).toBit = s.toBit := rfl
@[simp] theorem State.setGie_pdBit (s : State) (h l : Bool) : (s.setGie h l).pdBit = s.pdBit := rfl
@[simp] theorem State.setGie_wdt (s : State) (h l : Bool) : (s.setGie h l).wdt = s.wdt := rfl
@[simp] theorem State.setGie_wdtPost (s : State) (h l : Bool) : (s.setGie h l).wdtPost = s.wdtPost := rfl
@[simp] theorem State.setGie_mode (s : State) (h l : Bool) : (s.setGie h l).mode = s.mode := rfl
@[simp] theorem State.setGie_ram (s : State) (h l : Bool) : (s.setGie h l).ram = s.ram := rfl
@[simp] theorem State.setGie_prog (s : State) (h l : Bool) : (s.setGie h l).prog = s.prog := rfl
@[simp] theorem State.setGie_cfg (s : State) (h l : Bool) : (s.setGie h l).cfg = s.cfg := rfl
@[simp] theorem State.setGie_inputs (s : State) (h l : Bool) : (s.setGie h l).inputs = s.inputs := rfl
@[simp] theorem State.setGie_freeIx (s : State) (h l : Bool) : (s.setGie h l).freeIx = s.freeIx := rfl

/-! `State.setToPd` -/

@[simp] theorem State.setToPd_w (s : State) (t p : Bool) : (s.setToPd t p).w = s.w := rfl
@[simp] theorem State.setToPd_bsr (s : State) (t p : Bool) : (s.setToPd t p).bsr = s.bsr := rfl
@[simp] theorem State.setToPd_flags (s : State) (t p : Bool) : (s.setToPd t p).flags = s.flags := rfl
@[simp] theorem State.setToPd_pc (s : State) (t p : Bool) : (s.setToPd t p).pc = s.pc := rfl
@[simp] theorem State.setToPd_pclath (s : State) (t p : Bool) : (s.setToPd t p).pclath = s.pclath := rfl
@[simp] theorem State.setToPd_pclatu (s : State) (t p : Bool) : (s.setToPd t p).pclatu = s.pclatu := rfl
@[simp] theorem State.setToPd_stack (s : State) (t p : Bool) : (s.setToPd t p).stack = s.stack := rfl
@[simp] theorem State.setToPd_ws (s : State) (t p : Bool) : (s.setToPd t p).ws = s.ws := rfl
@[simp] theorem State.setToPd_statuss (s : State) (t p : Bool) : (s.setToPd t p).statuss = s.statuss := rfl
@[simp] theorem State.setToPd_bsrs (s : State) (t p : Bool) : (s.setToPd t p).bsrs = s.bsrs := rfl
@[simp] theorem State.setToPd_fsr0 (s : State) (t p : Bool) : (s.setToPd t p).fsr0 = s.fsr0 := rfl
@[simp] theorem State.setToPd_fsr1 (s : State) (t p : Bool) : (s.setToPd t p).fsr1 = s.fsr1 := rfl
@[simp] theorem State.setToPd_fsr2 (s : State) (t p : Bool) : (s.setToPd t p).fsr2 = s.fsr2 := rfl
@[simp] theorem State.setToPd_prodh (s : State) (t p : Bool) : (s.setToPd t p).prodh = s.prodh := rfl
@[simp] theorem State.setToPd_prodl (s : State) (t p : Bool) : (s.setToPd t p).prodl = s.prodl := rfl
@[simp] theorem State.setToPd_tblptr (s : State) (t p : Bool) : (s.setToPd t p).tblptr = s.tblptr := rfl
@[simp] theorem State.setToPd_tablat (s : State) (t p : Bool) : (s.setToPd t p).tablat = s.tablat := rfl
@[simp] theorem State.setToPd_hold (s : State) (t p : Bool) : (s.setToPd t p).hold = s.hold := rfl
@[simp] theorem State.setToPd_gieh (s : State) (t p : Bool) : (s.setToPd t p).gieh = s.gieh := rfl
@[simp] theorem State.setToPd_giel (s : State) (t p : Bool) : (s.setToPd t p).giel = s.giel := rfl
@[simp] theorem State.setToPd_toBit (s : State) (t p : Bool) : (s.setToPd t p).toBit = t := rfl
@[simp] theorem State.setToPd_pdBit (s : State) (t p : Bool) : (s.setToPd t p).pdBit = p := rfl
@[simp] theorem State.setToPd_wdt (s : State) (t p : Bool) : (s.setToPd t p).wdt = s.wdt := rfl
@[simp] theorem State.setToPd_wdtPost (s : State) (t p : Bool) : (s.setToPd t p).wdtPost = s.wdtPost := rfl
@[simp] theorem State.setToPd_mode (s : State) (t p : Bool) : (s.setToPd t p).mode = s.mode := rfl
@[simp] theorem State.setToPd_ram (s : State) (t p : Bool) : (s.setToPd t p).ram = s.ram := rfl
@[simp] theorem State.setToPd_prog (s : State) (t p : Bool) : (s.setToPd t p).prog = s.prog := rfl
@[simp] theorem State.setToPd_cfg (s : State) (t p : Bool) : (s.setToPd t p).cfg = s.cfg := rfl
@[simp] theorem State.setToPd_inputs (s : State) (t p : Bool) : (s.setToPd t p).inputs = s.inputs := rfl
@[simp] theorem State.setToPd_freeIx (s : State) (t p : Bool) : (s.setToPd t p).freeIx = s.freeIx := rfl

/-! `State.setWdt` -/

@[simp] theorem State.setWdt_w (s : State) (t p : Nat) : (s.setWdt t p).w = s.w := rfl
@[simp] theorem State.setWdt_bsr (s : State) (t p : Nat) : (s.setWdt t p).bsr = s.bsr := rfl
@[simp] theorem State.setWdt_flags (s : State) (t p : Nat) : (s.setWdt t p).flags = s.flags := rfl
@[simp] theorem State.setWdt_pc (s : State) (t p : Nat) : (s.setWdt t p).pc = s.pc := rfl
@[simp] theorem State.setWdt_pclath (s : State) (t p : Nat) : (s.setWdt t p).pclath = s.pclath := rfl
@[simp] theorem State.setWdt_pclatu (s : State) (t p : Nat) : (s.setWdt t p).pclatu = s.pclatu := rfl
@[simp] theorem State.setWdt_stack (s : State) (t p : Nat) : (s.setWdt t p).stack = s.stack := rfl
@[simp] theorem State.setWdt_ws (s : State) (t p : Nat) : (s.setWdt t p).ws = s.ws := rfl
@[simp] theorem State.setWdt_statuss (s : State) (t p : Nat) : (s.setWdt t p).statuss = s.statuss := rfl
@[simp] theorem State.setWdt_bsrs (s : State) (t p : Nat) : (s.setWdt t p).bsrs = s.bsrs := rfl
@[simp] theorem State.setWdt_fsr0 (s : State) (t p : Nat) : (s.setWdt t p).fsr0 = s.fsr0 := rfl
@[simp] theorem State.setWdt_fsr1 (s : State) (t p : Nat) : (s.setWdt t p).fsr1 = s.fsr1 := rfl
@[simp] theorem State.setWdt_fsr2 (s : State) (t p : Nat) : (s.setWdt t p).fsr2 = s.fsr2 := rfl
@[simp] theorem State.setWdt_prodh (s : State) (t p : Nat) : (s.setWdt t p).prodh = s.prodh := rfl
@[simp] theorem State.setWdt_prodl (s : State) (t p : Nat) : (s.setWdt t p).prodl = s.prodl := rfl
@[simp] theorem State.setWdt_tblptr (s : State) (t p : Nat) : (s.setWdt t p).tblptr = s.tblptr := rfl
@[simp] theorem State.setWdt_tablat (s : State) (t p : Nat) : (s.setWdt t p).tablat = s.tablat := rfl
@[simp] theorem State.setWdt_hold (s : State) (t p : Nat) : (s.setWdt t p).hold = s.hold := rfl
@[simp] theorem State.setWdt_gieh (s : State) (t p : Nat) : (s.setWdt t p).gieh = s.gieh := rfl
@[simp] theorem State.setWdt_giel (s : State) (t p : Nat) : (s.setWdt t p).giel = s.giel := rfl
@[simp] theorem State.setWdt_toBit (s : State) (t p : Nat) : (s.setWdt t p).toBit = s.toBit := rfl
@[simp] theorem State.setWdt_pdBit (s : State) (t p : Nat) : (s.setWdt t p).pdBit = s.pdBit := rfl
@[simp] theorem State.setWdt_wdt (s : State) (t p : Nat) : (s.setWdt t p).wdt = t := rfl
@[simp] theorem State.setWdt_wdtPost (s : State) (t p : Nat) : (s.setWdt t p).wdtPost = p := rfl
@[simp] theorem State.setWdt_mode (s : State) (t p : Nat) : (s.setWdt t p).mode = s.mode := rfl
@[simp] theorem State.setWdt_ram (s : State) (t p : Nat) : (s.setWdt t p).ram = s.ram := rfl
@[simp] theorem State.setWdt_prog (s : State) (t p : Nat) : (s.setWdt t p).prog = s.prog := rfl
@[simp] theorem State.setWdt_cfg (s : State) (t p : Nat) : (s.setWdt t p).cfg = s.cfg := rfl
@[simp] theorem State.setWdt_inputs (s : State) (t p : Nat) : (s.setWdt t p).inputs = s.inputs := rfl
@[simp] theorem State.setWdt_freeIx (s : State) (t p : Nat) : (s.setWdt t p).freeIx = s.freeIx := rfl

/-! `State.setMode` -/

@[simp] theorem State.setMode_w (s : State) (m : Mode) : (s.setMode m).w = s.w := rfl
@[simp] theorem State.setMode_bsr (s : State) (m : Mode) : (s.setMode m).bsr = s.bsr := rfl
@[simp] theorem State.setMode_flags (s : State) (m : Mode) : (s.setMode m).flags = s.flags := rfl
@[simp] theorem State.setMode_pc (s : State) (m : Mode) : (s.setMode m).pc = s.pc := rfl
@[simp] theorem State.setMode_pclath (s : State) (m : Mode) : (s.setMode m).pclath = s.pclath := rfl
@[simp] theorem State.setMode_pclatu (s : State) (m : Mode) : (s.setMode m).pclatu = s.pclatu := rfl
@[simp] theorem State.setMode_stack (s : State) (m : Mode) : (s.setMode m).stack = s.stack := rfl
@[simp] theorem State.setMode_ws (s : State) (m : Mode) : (s.setMode m).ws = s.ws := rfl
@[simp] theorem State.setMode_statuss (s : State) (m : Mode) : (s.setMode m).statuss = s.statuss := rfl
@[simp] theorem State.setMode_bsrs (s : State) (m : Mode) : (s.setMode m).bsrs = s.bsrs := rfl
@[simp] theorem State.setMode_fsr0 (s : State) (m : Mode) : (s.setMode m).fsr0 = s.fsr0 := rfl
@[simp] theorem State.setMode_fsr1 (s : State) (m : Mode) : (s.setMode m).fsr1 = s.fsr1 := rfl
@[simp] theorem State.setMode_fsr2 (s : State) (m : Mode) : (s.setMode m).fsr2 = s.fsr2 := rfl
@[simp] theorem State.setMode_prodh (s : State) (m : Mode) : (s.setMode m).prodh = s.prodh := rfl
@[simp] theorem State.setMode_prodl (s : State) (m : Mode) : (s.setMode m).prodl = s.prodl := rfl
@[simp] theorem State.setMode_tblptr (s : State) (m : Mode) : (s.setMode m).tblptr = s.tblptr := rfl
@[simp] theorem State.setMode_tablat (s : State) (m : Mode) : (s.setMode m).tablat = s.tablat := rfl
@[simp] theorem State.setMode_hold (s : State) (m : Mode) : (s.setMode m).hold = s.hold := rfl
@[simp] theorem State.setMode_gieh (s : State) (m : Mode) : (s.setMode m).gieh = s.gieh := rfl
@[simp] theorem State.setMode_giel (s : State) (m : Mode) : (s.setMode m).giel = s.giel := rfl
@[simp] theorem State.setMode_toBit (s : State) (m : Mode) : (s.setMode m).toBit = s.toBit := rfl
@[simp] theorem State.setMode_pdBit (s : State) (m : Mode) : (s.setMode m).pdBit = s.pdBit := rfl
@[simp] theorem State.setMode_wdt (s : State) (m : Mode) : (s.setMode m).wdt = s.wdt := rfl
@[simp] theorem State.setMode_wdtPost (s : State) (m : Mode) : (s.setMode m).wdtPost = s.wdtPost := rfl
@[simp] theorem State.setMode_mode (s : State) (m : Mode) : (s.setMode m).mode = m := rfl
@[simp] theorem State.setMode_ram (s : State) (m : Mode) : (s.setMode m).ram = s.ram := rfl
@[simp] theorem State.setMode_prog (s : State) (m : Mode) : (s.setMode m).prog = s.prog := rfl
@[simp] theorem State.setMode_cfg (s : State) (m : Mode) : (s.setMode m).cfg = s.cfg := rfl
@[simp] theorem State.setMode_inputs (s : State) (m : Mode) : (s.setMode m).inputs = s.inputs := rfl
@[simp] theorem State.setMode_freeIx (s : State) (m : Mode) : (s.setMode m).freeIx = s.freeIx := rfl

/-! `State.setRam` -/

@[simp] theorem State.setRam_w (s : State) (m : Memory) : (s.setRam m).w = s.w := rfl
@[simp] theorem State.setRam_bsr (s : State) (m : Memory) : (s.setRam m).bsr = s.bsr := rfl
@[simp] theorem State.setRam_flags (s : State) (m : Memory) : (s.setRam m).flags = s.flags := rfl
@[simp] theorem State.setRam_pc (s : State) (m : Memory) : (s.setRam m).pc = s.pc := rfl
@[simp] theorem State.setRam_pclath (s : State) (m : Memory) : (s.setRam m).pclath = s.pclath := rfl
@[simp] theorem State.setRam_pclatu (s : State) (m : Memory) : (s.setRam m).pclatu = s.pclatu := rfl
@[simp] theorem State.setRam_stack (s : State) (m : Memory) : (s.setRam m).stack = s.stack := rfl
@[simp] theorem State.setRam_ws (s : State) (m : Memory) : (s.setRam m).ws = s.ws := rfl
@[simp] theorem State.setRam_statuss (s : State) (m : Memory) : (s.setRam m).statuss = s.statuss := rfl
@[simp] theorem State.setRam_bsrs (s : State) (m : Memory) : (s.setRam m).bsrs = s.bsrs := rfl
@[simp] theorem State.setRam_fsr0 (s : State) (m : Memory) : (s.setRam m).fsr0 = s.fsr0 := rfl
@[simp] theorem State.setRam_fsr1 (s : State) (m : Memory) : (s.setRam m).fsr1 = s.fsr1 := rfl
@[simp] theorem State.setRam_fsr2 (s : State) (m : Memory) : (s.setRam m).fsr2 = s.fsr2 := rfl
@[simp] theorem State.setRam_prodh (s : State) (m : Memory) : (s.setRam m).prodh = s.prodh := rfl
@[simp] theorem State.setRam_prodl (s : State) (m : Memory) : (s.setRam m).prodl = s.prodl := rfl
@[simp] theorem State.setRam_tblptr (s : State) (m : Memory) : (s.setRam m).tblptr = s.tblptr := rfl
@[simp] theorem State.setRam_tablat (s : State) (m : Memory) : (s.setRam m).tablat = s.tablat := rfl
@[simp] theorem State.setRam_hold (s : State) (m : Memory) : (s.setRam m).hold = s.hold := rfl
@[simp] theorem State.setRam_gieh (s : State) (m : Memory) : (s.setRam m).gieh = s.gieh := rfl
@[simp] theorem State.setRam_giel (s : State) (m : Memory) : (s.setRam m).giel = s.giel := rfl
@[simp] theorem State.setRam_toBit (s : State) (m : Memory) : (s.setRam m).toBit = s.toBit := rfl
@[simp] theorem State.setRam_pdBit (s : State) (m : Memory) : (s.setRam m).pdBit = s.pdBit := rfl
@[simp] theorem State.setRam_wdt (s : State) (m : Memory) : (s.setRam m).wdt = s.wdt := rfl
@[simp] theorem State.setRam_wdtPost (s : State) (m : Memory) : (s.setRam m).wdtPost = s.wdtPost := rfl
@[simp] theorem State.setRam_mode (s : State) (m : Memory) : (s.setRam m).mode = s.mode := rfl
@[simp] theorem State.setRam_ram (s : State) (m : Memory) : (s.setRam m).ram = m := rfl
@[simp] theorem State.setRam_prog (s : State) (m : Memory) : (s.setRam m).prog = s.prog := rfl
@[simp] theorem State.setRam_cfg (s : State) (m : Memory) : (s.setRam m).cfg = s.cfg := rfl
@[simp] theorem State.setRam_inputs (s : State) (m : Memory) : (s.setRam m).inputs = s.inputs := rfl
@[simp] theorem State.setRam_freeIx (s : State) (m : Memory) : (s.setRam m).freeIx = s.freeIx := rfl

/-! `State.setProg` -/

@[simp] theorem State.setProg_w (s : State) (m : Memory) : (s.setProg m).w = s.w := rfl
@[simp] theorem State.setProg_bsr (s : State) (m : Memory) : (s.setProg m).bsr = s.bsr := rfl
@[simp] theorem State.setProg_flags (s : State) (m : Memory) : (s.setProg m).flags = s.flags := rfl
@[simp] theorem State.setProg_pc (s : State) (m : Memory) : (s.setProg m).pc = s.pc := rfl
@[simp] theorem State.setProg_pclath (s : State) (m : Memory) : (s.setProg m).pclath = s.pclath := rfl
@[simp] theorem State.setProg_pclatu (s : State) (m : Memory) : (s.setProg m).pclatu = s.pclatu := rfl
@[simp] theorem State.setProg_stack (s : State) (m : Memory) : (s.setProg m).stack = s.stack := rfl
@[simp] theorem State.setProg_ws (s : State) (m : Memory) : (s.setProg m).ws = s.ws := rfl
@[simp] theorem State.setProg_statuss (s : State) (m : Memory) : (s.setProg m).statuss = s.statuss := rfl
@[simp] theorem State.setProg_bsrs (s : State) (m : Memory) : (s.setProg m).bsrs = s.bsrs := rfl
@[simp] theorem State.setProg_fsr0 (s : State) (m : Memory) : (s.setProg m).fsr0 = s.fsr0 := rfl
@[simp] theorem State.setProg_fsr1 (s : State) (m : Memory) : (s.setProg m).fsr1 = s.fsr1 := rfl
@[simp] theorem State.setProg_fsr2 (s : State) (m : Memory) : (s.setProg m).fsr2 = s.fsr2 := rfl
@[simp] theorem State.setProg_prodh (s : State) (m : Memory) : (s.setProg m).prodh = s.prodh := rfl
@[simp] theorem State.setProg_prodl (s : State) (m : Memory) : (s.setProg m).prodl = s.prodl := rfl
@[simp] theorem State.setProg_tblptr (s : State) (m : Memory) : (s.setProg m).tblptr = s.tblptr := rfl
@[simp] theorem State.setProg_tablat (s : State) (m : Memory) : (s.setProg m).tablat = s.tablat := rfl
@[simp] theorem State.setProg_hold (s : State) (m : Memory) : (s.setProg m).hold = s.hold := rfl
@[simp] theorem State.setProg_gieh (s : State) (m : Memory) : (s.setProg m).gieh = s.gieh := rfl
@[simp] theorem State.setProg_giel (s : State) (m : Memory) : (s.setProg m).giel = s.giel := rfl
@[simp] theorem State.setProg_toBit (s : State) (m : Memory) : (s.setProg m).toBit = s.toBit := rfl
@[simp] theorem State.setProg_pdBit (s : State) (m : Memory) : (s.setProg m).pdBit = s.pdBit := rfl
@[simp] theorem State.setProg_wdt (s : State) (m : Memory) : (s.setProg m).wdt = s.wdt := rfl
@[simp] theorem State.setProg_wdtPost (s : State) (m : Memory) : (s.setProg m).wdtPost = s.wdtPost := rfl
@[simp] theorem State.setProg_mode (s : State) (m : Memory) : (s.setProg m).mode = s.mode := rfl
@[simp] theorem State.setProg_ram (s : State) (m : Memory) : (s.setProg m).ram = s.ram := rfl
@[simp] theorem State.setProg_prog (s : State) (m : Memory) : (s.setProg m).prog = m := rfl
@[simp] theorem State.setProg_cfg (s : State) (m : Memory) : (s.setProg m).cfg = s.cfg := rfl
@[simp] theorem State.setProg_inputs (s : State) (m : Memory) : (s.setProg m).inputs = s.inputs := rfl
@[simp] theorem State.setProg_freeIx (s : State) (m : Memory) : (s.setProg m).freeIx = s.freeIx := rfl

/-! `State.setInputs` -/

@[simp] theorem State.setInputs_w (s : State) (l : List EnvInput) : (s.setInputs l).w = s.w := rfl
@[simp] theorem State.setInputs_bsr (s : State) (l : List EnvInput) : (s.setInputs l).bsr = s.bsr := rfl
@[simp] theorem State.setInputs_flags (s : State) (l : List EnvInput) : (s.setInputs l).flags = s.flags := rfl
@[simp] theorem State.setInputs_pc (s : State) (l : List EnvInput) : (s.setInputs l).pc = s.pc := rfl
@[simp] theorem State.setInputs_pclath (s : State) (l : List EnvInput) : (s.setInputs l).pclath = s.pclath := rfl
@[simp] theorem State.setInputs_pclatu (s : State) (l : List EnvInput) : (s.setInputs l).pclatu = s.pclatu := rfl
@[simp] theorem State.setInputs_stack (s : State) (l : List EnvInput) : (s.setInputs l).stack = s.stack := rfl
@[simp] theorem State.setInputs_ws (s : State) (l : List EnvInput) : (s.setInputs l).ws = s.ws := rfl
@[simp] theorem State.setInputs_statuss (s : State) (l : List EnvInput) : (s.setInputs l).statuss = s.statuss := rfl
@[simp] theorem State.setInputs_bsrs (s : State) (l : List EnvInput) : (s.setInputs l).bsrs = s.bsrs := rfl
@[simp] theorem State.setInputs_fsr0 (s : State) (l : List EnvInput) : (s.setInputs l).fsr0 = s.fsr0 := rfl
@[simp] theorem State.setInputs_fsr1 (s : State) (l : List EnvInput) : (s.setInputs l).fsr1 = s.fsr1 := rfl
@[simp] theorem State.setInputs_fsr2 (s : State) (l : List EnvInput) : (s.setInputs l).fsr2 = s.fsr2 := rfl
@[simp] theorem State.setInputs_prodh (s : State) (l : List EnvInput) : (s.setInputs l).prodh = s.prodh := rfl
@[simp] theorem State.setInputs_prodl (s : State) (l : List EnvInput) : (s.setInputs l).prodl = s.prodl := rfl
@[simp] theorem State.setInputs_tblptr (s : State) (l : List EnvInput) : (s.setInputs l).tblptr = s.tblptr := rfl
@[simp] theorem State.setInputs_tablat (s : State) (l : List EnvInput) : (s.setInputs l).tablat = s.tablat := rfl
@[simp] theorem State.setInputs_hold (s : State) (l : List EnvInput) : (s.setInputs l).hold = s.hold := rfl
@[simp] theorem State.setInputs_gieh (s : State) (l : List EnvInput) : (s.setInputs l).gieh = s.gieh := rfl
@[simp] theorem State.setInputs_giel (s : State) (l : List EnvInput) : (s.setInputs l).giel = s.giel := rfl
@[simp] theorem State.setInputs_toBit (s : State) (l : List EnvInput) : (s.setInputs l).toBit = s.toBit := rfl
@[simp] theorem State.setInputs_pdBit (s : State) (l : List EnvInput) : (s.setInputs l).pdBit = s.pdBit := rfl
@[simp] theorem State.setInputs_wdt (s : State) (l : List EnvInput) : (s.setInputs l).wdt = s.wdt := rfl
@[simp] theorem State.setInputs_wdtPost (s : State) (l : List EnvInput) : (s.setInputs l).wdtPost = s.wdtPost := rfl
@[simp] theorem State.setInputs_mode (s : State) (l : List EnvInput) : (s.setInputs l).mode = s.mode := rfl
@[simp] theorem State.setInputs_ram (s : State) (l : List EnvInput) : (s.setInputs l).ram = s.ram := rfl
@[simp] theorem State.setInputs_prog (s : State) (l : List EnvInput) : (s.setInputs l).prog = s.prog := rfl
@[simp] theorem State.setInputs_cfg (s : State) (l : List EnvInput) : (s.setInputs l).cfg = s.cfg := rfl
@[simp] theorem State.setInputs_inputs (s : State) (l : List EnvInput) : (s.setInputs l).inputs = l := rfl
@[simp] theorem State.setInputs_freeIx (s : State) (l : List EnvInput) : (s.setInputs l).freeIx = s.freeIx := rfl

/-! `State.setFreeIx` -/

@[simp] theorem State.setFreeIx_w (s : State) (n : Nat) : (s.setFreeIx n).w = s.w := rfl
@[simp] theorem State.setFreeIx_bsr (s : State) (n : Nat) : (s.setFreeIx n).bsr = s.bsr := rfl
@[simp] theorem State.setFreeIx_flags (s : State) (n : Nat) : (s.setFreeIx n).flags = s.flags := rfl
@[simp] theorem State.setFreeIx_pc (s : State) (n : Nat) : (s.setFreeIx n).pc = s.pc := rfl
@[simp] theorem State.setFreeIx_pclath (s : State) (n : Nat) : (s.setFreeIx n).pclath = s.pclath := rfl
@[simp] theorem State.setFreeIx_pclatu (s : State) (n : Nat) : (s.setFreeIx n).pclatu = s.pclatu := rfl
@[simp] theorem State.setFreeIx_stack (s : State) (n : Nat) : (s.setFreeIx n).stack = s.stack := rfl
@[simp] theorem State.setFreeIx_ws (s : State) (n : Nat) : (s.setFreeIx n).ws = s.ws := rfl
@[simp] theorem State.setFreeIx_statuss (s : State) (n : Nat) : (s.setFreeIx n).statuss = s.statuss := rfl
@[simp] theorem State.setFreeIx_bsrs (s : State) (n : Nat) : (s.setFreeIx n).bsrs = s.bsrs := rfl
@[simp] theorem State.setFreeIx_fsr0 (s : State) (n : Nat) : (s.setFreeIx n).fsr0 = s.fsr0 := rfl
@[simp] theorem State.setFreeIx_fsr1 (s : State) (n : Nat) : (s.setFreeIx n).fsr1 = s.fsr1 := rfl
@[simp] theorem State.setFreeIx_fsr2 (s : State) (n : Nat) : (s.setFreeIx n).fsr2 = s.fsr2 := rfl
@[simp] theorem State.setFreeIx_prodh (s : State) (n : Nat) : (s.setFreeIx n).prodh = s.prodh := rfl
@[simp] theorem State.setFreeIx_prodl (s : State) (n : Nat) : (s.setFreeIx n).prodl = s.prodl := rfl
@[simp] theorem State.setFreeIx_tblptr (s : State) (n : Nat) : (s.setFreeIx n).tblptr = s.tblptr := rfl
@[simp] theorem State.setFreeIx_tablat (s : State) (n : Nat) : (s.setFreeIx n).tablat = s.tablat := rfl
@[simp] theorem State.setFreeIx_hold (s : State) (n : Nat) : (s.setFreeIx n).hold = s.hold := rfl
@[simp] theorem State.setFreeIx_gieh (s : State) (n : Nat) : (s.setFreeIx n).gieh = s.gieh := rfl
@[simp] theorem State.setFreeIx_giel (s : State) (n : Nat) : (s.setFreeIx n).giel = s.giel := rfl
@[simp] theorem State.setFreeIx_toBit (s : State) (n : Nat) : (s.setFreeIx n).toBit = s.toBit := rfl
@[simp] theorem State.setFreeIx_pdBit (s : State) (n : Nat) : (s.setFreeIx n).pdBit = s.pdBit := rfl
@[simp] theorem State.setFreeIx_wdt (s : State) (n : Nat) : (s.setFreeIx n).wdt = s.wdt := rfl
@[simp] theorem State.setFreeIx_wdtPost (s : State) (n : Nat) : (s.setFreeIx n).wdtPost = s.wdtPost := rfl
@[simp] theorem State.setFreeIx_mode (s : State) (n : Nat) : (s.setFreeIx n).mode = s.mode := rfl
@[simp] theorem State.setFreeIx_ram (s : State) (n : Nat) : (s.setFreeIx n).ram = s.ram := rfl
@[simp] theorem State.setFreeIx_prog (s : State) (n : Nat) : (s.setFreeIx n).prog = s.prog := rfl
@[simp] theorem State.setFreeIx_cfg (s : State) (n : Nat) : (s.setFreeIx n).cfg = s.cfg := rfl
@[simp] theorem State.setFreeIx_inputs (s : State) (n : Nat) : (s.setFreeIx n).inputs = s.inputs := rfl
@[simp] theorem State.setFreeIx_freeIx (s : State) (n : Nat) : (s.setFreeIx n).freeIx = n := rfl

/-! The program counter's two other updates: sequential advance and aligned load. -/

@[simp] theorem State.advance_w (s : State) (n : PAddr) : (s.advance n).w = s.w := rfl
@[simp] theorem State.advance_bsr (s : State) (n : PAddr) : (s.advance n).bsr = s.bsr := rfl
@[simp] theorem State.advance_flags (s : State) (n : PAddr) : (s.advance n).flags = s.flags := rfl
@[simp] theorem State.advance_pc (s : State) (n : PAddr) : (s.advance n).pc = s.pc + n := rfl
@[simp] theorem State.advance_pclath (s : State) (n : PAddr) : (s.advance n).pclath = s.pclath := rfl
@[simp] theorem State.advance_pclatu (s : State) (n : PAddr) : (s.advance n).pclatu = s.pclatu := rfl
@[simp] theorem State.advance_stack (s : State) (n : PAddr) : (s.advance n).stack = s.stack := rfl
@[simp] theorem State.advance_ws (s : State) (n : PAddr) : (s.advance n).ws = s.ws := rfl
@[simp] theorem State.advance_statuss (s : State) (n : PAddr) : (s.advance n).statuss = s.statuss := rfl
@[simp] theorem State.advance_bsrs (s : State) (n : PAddr) : (s.advance n).bsrs = s.bsrs := rfl
@[simp] theorem State.advance_fsr0 (s : State) (n : PAddr) : (s.advance n).fsr0 = s.fsr0 := rfl
@[simp] theorem State.advance_fsr1 (s : State) (n : PAddr) : (s.advance n).fsr1 = s.fsr1 := rfl
@[simp] theorem State.advance_fsr2 (s : State) (n : PAddr) : (s.advance n).fsr2 = s.fsr2 := rfl
@[simp] theorem State.advance_prodh (s : State) (n : PAddr) : (s.advance n).prodh = s.prodh := rfl
@[simp] theorem State.advance_prodl (s : State) (n : PAddr) : (s.advance n).prodl = s.prodl := rfl
@[simp] theorem State.advance_tblptr (s : State) (n : PAddr) : (s.advance n).tblptr = s.tblptr := rfl
@[simp] theorem State.advance_tablat (s : State) (n : PAddr) : (s.advance n).tablat = s.tablat := rfl
@[simp] theorem State.advance_hold (s : State) (n : PAddr) : (s.advance n).hold = s.hold := rfl
@[simp] theorem State.advance_gieh (s : State) (n : PAddr) : (s.advance n).gieh = s.gieh := rfl
@[simp] theorem State.advance_giel (s : State) (n : PAddr) : (s.advance n).giel = s.giel := rfl
@[simp] theorem State.advance_toBit (s : State) (n : PAddr) : (s.advance n).toBit = s.toBit := rfl
@[simp] theorem State.advance_pdBit (s : State) (n : PAddr) : (s.advance n).pdBit = s.pdBit := rfl
@[simp] theorem State.advance_wdt (s : State) (n : PAddr) : (s.advance n).wdt = s.wdt := rfl
@[simp] theorem State.advance_wdtPost (s : State) (n : PAddr) : (s.advance n).wdtPost = s.wdtPost := rfl
@[simp] theorem State.advance_mode (s : State) (n : PAddr) : (s.advance n).mode = s.mode := rfl
@[simp] theorem State.advance_ram (s : State) (n : PAddr) : (s.advance n).ram = s.ram := rfl
@[simp] theorem State.advance_prog (s : State) (n : PAddr) : (s.advance n).prog = s.prog := rfl
@[simp] theorem State.advance_cfg (s : State) (n : PAddr) : (s.advance n).cfg = s.cfg := rfl
@[simp] theorem State.advance_inputs (s : State) (n : PAddr) : (s.advance n).inputs = s.inputs := rfl
@[simp] theorem State.advance_freeIx (s : State) (n : PAddr) : (s.advance n).freeIx = s.freeIx := rfl
@[simp] theorem State.setPc_w (s : State) (v : PAddr) : (s.setPc v).w = s.w := rfl
@[simp] theorem State.setPc_bsr (s : State) (v : PAddr) : (s.setPc v).bsr = s.bsr := rfl
@[simp] theorem State.setPc_flags (s : State) (v : PAddr) : (s.setPc v).flags = s.flags := rfl
@[simp] theorem State.setPc_pc (s : State) (v : PAddr) : (s.setPc v).pc = alignPc v := rfl
@[simp] theorem State.setPc_pclath (s : State) (v : PAddr) : (s.setPc v).pclath = s.pclath := rfl
@[simp] theorem State.setPc_pclatu (s : State) (v : PAddr) : (s.setPc v).pclatu = s.pclatu := rfl
@[simp] theorem State.setPc_stack (s : State) (v : PAddr) : (s.setPc v).stack = s.stack := rfl
@[simp] theorem State.setPc_ws (s : State) (v : PAddr) : (s.setPc v).ws = s.ws := rfl
@[simp] theorem State.setPc_statuss (s : State) (v : PAddr) : (s.setPc v).statuss = s.statuss := rfl
@[simp] theorem State.setPc_bsrs (s : State) (v : PAddr) : (s.setPc v).bsrs = s.bsrs := rfl
@[simp] theorem State.setPc_fsr0 (s : State) (v : PAddr) : (s.setPc v).fsr0 = s.fsr0 := rfl
@[simp] theorem State.setPc_fsr1 (s : State) (v : PAddr) : (s.setPc v).fsr1 = s.fsr1 := rfl
@[simp] theorem State.setPc_fsr2 (s : State) (v : PAddr) : (s.setPc v).fsr2 = s.fsr2 := rfl
@[simp] theorem State.setPc_prodh (s : State) (v : PAddr) : (s.setPc v).prodh = s.prodh := rfl
@[simp] theorem State.setPc_prodl (s : State) (v : PAddr) : (s.setPc v).prodl = s.prodl := rfl
@[simp] theorem State.setPc_tblptr (s : State) (v : PAddr) : (s.setPc v).tblptr = s.tblptr := rfl
@[simp] theorem State.setPc_tablat (s : State) (v : PAddr) : (s.setPc v).tablat = s.tablat := rfl
@[simp] theorem State.setPc_hold (s : State) (v : PAddr) : (s.setPc v).hold = s.hold := rfl
@[simp] theorem State.setPc_gieh (s : State) (v : PAddr) : (s.setPc v).gieh = s.gieh := rfl
@[simp] theorem State.setPc_giel (s : State) (v : PAddr) : (s.setPc v).giel = s.giel := rfl
@[simp] theorem State.setPc_toBit (s : State) (v : PAddr) : (s.setPc v).toBit = s.toBit := rfl
@[simp] theorem State.setPc_pdBit (s : State) (v : PAddr) : (s.setPc v).pdBit = s.pdBit := rfl
@[simp] theorem State.setPc_wdt (s : State) (v : PAddr) : (s.setPc v).wdt = s.wdt := rfl
@[simp] theorem State.setPc_wdtPost (s : State) (v : PAddr) : (s.setPc v).wdtPost = s.wdtPost := rfl
@[simp] theorem State.setPc_mode (s : State) (v : PAddr) : (s.setPc v).mode = s.mode := rfl
@[simp] theorem State.setPc_ram (s : State) (v : PAddr) : (s.setPc v).ram = s.ram := rfl
@[simp] theorem State.setPc_prog (s : State) (v : PAddr) : (s.setPc v).prog = s.prog := rfl
@[simp] theorem State.setPc_cfg (s : State) (v : PAddr) : (s.setPc v).cfg = s.cfg := rfl
@[simp] theorem State.setPc_inputs (s : State) (v : PAddr) : (s.setPc v).inputs = s.inputs := rfl
@[simp] theorem State.setPc_freeIx (s : State) (v : PAddr) : (s.setPc v).freeIx = s.freeIx := rfl

/-! The fast register stack. -/

@[simp] theorem State.saveFast_w (s : State) : s.saveFast.w = s.w := rfl
@[simp] theorem State.saveFast_bsr (s : State) : s.saveFast.bsr = s.bsr := rfl
@[simp] theorem State.saveFast_flags (s : State) : s.saveFast.flags = s.flags := rfl
@[simp] theorem State.saveFast_pc (s : State) : s.saveFast.pc = s.pc := rfl
@[simp] theorem State.saveFast_pclath (s : State) : s.saveFast.pclath = s.pclath := rfl
@[simp] theorem State.saveFast_pclatu (s : State) : s.saveFast.pclatu = s.pclatu := rfl
@[simp] theorem State.saveFast_stack (s : State) : s.saveFast.stack = s.stack := rfl
@[simp] theorem State.saveFast_ws (s : State) : s.saveFast.ws = s.w := rfl
@[simp] theorem State.saveFast_statuss (s : State) : s.saveFast.statuss = s.flags := rfl
@[simp] theorem State.saveFast_bsrs (s : State) : s.saveFast.bsrs = s.bsr := rfl
@[simp] theorem State.saveFast_fsr0 (s : State) : s.saveFast.fsr0 = s.fsr0 := rfl
@[simp] theorem State.saveFast_fsr1 (s : State) : s.saveFast.fsr1 = s.fsr1 := rfl
@[simp] theorem State.saveFast_fsr2 (s : State) : s.saveFast.fsr2 = s.fsr2 := rfl
@[simp] theorem State.saveFast_prodh (s : State) : s.saveFast.prodh = s.prodh := rfl
@[simp] theorem State.saveFast_prodl (s : State) : s.saveFast.prodl = s.prodl := rfl
@[simp] theorem State.saveFast_tblptr (s : State) : s.saveFast.tblptr = s.tblptr := rfl
@[simp] theorem State.saveFast_tablat (s : State) : s.saveFast.tablat = s.tablat := rfl
@[simp] theorem State.saveFast_hold (s : State) : s.saveFast.hold = s.hold := rfl
@[simp] theorem State.saveFast_gieh (s : State) : s.saveFast.gieh = s.gieh := rfl
@[simp] theorem State.saveFast_giel (s : State) : s.saveFast.giel = s.giel := rfl
@[simp] theorem State.saveFast_toBit (s : State) : s.saveFast.toBit = s.toBit := rfl
@[simp] theorem State.saveFast_pdBit (s : State) : s.saveFast.pdBit = s.pdBit := rfl
@[simp] theorem State.saveFast_wdt (s : State) : s.saveFast.wdt = s.wdt := rfl
@[simp] theorem State.saveFast_wdtPost (s : State) : s.saveFast.wdtPost = s.wdtPost := rfl
@[simp] theorem State.saveFast_mode (s : State) : s.saveFast.mode = s.mode := rfl
@[simp] theorem State.saveFast_ram (s : State) : s.saveFast.ram = s.ram := rfl
@[simp] theorem State.saveFast_prog (s : State) : s.saveFast.prog = s.prog := rfl
@[simp] theorem State.saveFast_cfg (s : State) : s.saveFast.cfg = s.cfg := rfl
@[simp] theorem State.saveFast_inputs (s : State) : s.saveFast.inputs = s.inputs := rfl
@[simp] theorem State.saveFast_freeIx (s : State) : s.saveFast.freeIx = s.freeIx := rfl
@[simp] theorem State.restoreFast_w (s : State) : s.restoreFast.w = s.ws := rfl
@[simp] theorem State.restoreFast_bsr (s : State) : s.restoreFast.bsr = s.bsrs := rfl
@[simp] theorem State.restoreFast_flags (s : State) : s.restoreFast.flags = s.statuss := rfl
@[simp] theorem State.restoreFast_pc (s : State) : s.restoreFast.pc = s.pc := rfl
@[simp] theorem State.restoreFast_pclath (s : State) : s.restoreFast.pclath = s.pclath := rfl
@[simp] theorem State.restoreFast_pclatu (s : State) : s.restoreFast.pclatu = s.pclatu := rfl
@[simp] theorem State.restoreFast_stack (s : State) : s.restoreFast.stack = s.stack := rfl
@[simp] theorem State.restoreFast_ws (s : State) : s.restoreFast.ws = s.ws := rfl
@[simp] theorem State.restoreFast_statuss (s : State) : s.restoreFast.statuss = s.statuss := rfl
@[simp] theorem State.restoreFast_bsrs (s : State) : s.restoreFast.bsrs = s.bsrs := rfl
@[simp] theorem State.restoreFast_fsr0 (s : State) : s.restoreFast.fsr0 = s.fsr0 := rfl
@[simp] theorem State.restoreFast_fsr1 (s : State) : s.restoreFast.fsr1 = s.fsr1 := rfl
@[simp] theorem State.restoreFast_fsr2 (s : State) : s.restoreFast.fsr2 = s.fsr2 := rfl
@[simp] theorem State.restoreFast_prodh (s : State) : s.restoreFast.prodh = s.prodh := rfl
@[simp] theorem State.restoreFast_prodl (s : State) : s.restoreFast.prodl = s.prodl := rfl
@[simp] theorem State.restoreFast_tblptr (s : State) : s.restoreFast.tblptr = s.tblptr := rfl
@[simp] theorem State.restoreFast_tablat (s : State) : s.restoreFast.tablat = s.tablat := rfl
@[simp] theorem State.restoreFast_hold (s : State) : s.restoreFast.hold = s.hold := rfl
@[simp] theorem State.restoreFast_gieh (s : State) : s.restoreFast.gieh = s.gieh := rfl
@[simp] theorem State.restoreFast_giel (s : State) : s.restoreFast.giel = s.giel := rfl
@[simp] theorem State.restoreFast_toBit (s : State) : s.restoreFast.toBit = s.toBit := rfl
@[simp] theorem State.restoreFast_pdBit (s : State) : s.restoreFast.pdBit = s.pdBit := rfl
@[simp] theorem State.restoreFast_wdt (s : State) : s.restoreFast.wdt = s.wdt := rfl
@[simp] theorem State.restoreFast_wdtPost (s : State) : s.restoreFast.wdtPost = s.wdtPost := rfl
@[simp] theorem State.restoreFast_mode (s : State) : s.restoreFast.mode = s.mode := rfl
@[simp] theorem State.restoreFast_ram (s : State) : s.restoreFast.ram = s.ram := rfl
@[simp] theorem State.restoreFast_prog (s : State) : s.restoreFast.prog = s.prog := rfl
@[simp] theorem State.restoreFast_cfg (s : State) : s.restoreFast.cfg = s.cfg := rfl
@[simp] theorem State.restoreFast_inputs (s : State) : s.restoreFast.inputs = s.inputs := rfl
@[simp] theorem State.restoreFast_freeIx (s : State) : s.restoreFast.freeIx = s.freeIx := rfl

end Sys2Proof.Machine
end

