-- ==== Sys2Proof/Laws/Ops.lean ====
section
/-! SUPPORT. One lemma per shared operation: what it can do when it answers a next state, and that it answers one where
its accesses do not stop. Proofs cite these instead of unfolding the operations. -/

namespace Sys2Proof.Machine

@[simp] theorem andThen_next_left {α β : Type} (v : α) (k : α → Res β) : andThen (.next v) k = k v := rfl

@[simp] theorem andThen_fault_left {α β : Type} (r : Fault) (k : α → Res β) : andThen (.fault r) k = .fault r := rfl

@[simp] theorem andThen_refused_left {α β : Type} (r : Refusal) (k : α → Res β) : andThen (.refused r) k = .refused r := rfl

/-- If a sequence answers, both parts did. -/
theorem andThen_next {α β : Type} {x : Res α} {k : α → Res β} {t : β} (h : andThen x k = .next t) :
    ∃ v, x = .next v ∧ k v = .next t := by
  cases x with
  | next v => exact ⟨v, rfl, h⟩
  | fault r => cases h
  | refused r => cases h

/-- A stop is no next state. -/
theorem stop_out_ne_next {α : Type} (e : Stop) (v : α) : (e.out : Res α) ≠ .next v := by
  cases e <;> simp [Stop.out]

/-! ### Program addresses -/

/-- `k : 0` is twice the word address. -/
theorem absTarget_toNat (k : BitVec 20) : (absTarget k).toNat = 2 * k.toNat := by
  have h : (absTarget k).toNat = k.toNat <<< 1 ||| (0#1).toNat := BitVec.toNat_append k 0#1
  simpa [Nat.shiftLeft_eq, Nat.mul_comm] using h

/-- Alignment clears bit 0. -/
theorem alignPc_toNat (x : PAddr) : (alignPc x).toNat = 2 * (x.toNat / 2) := by
  have h : (alignPc x).toNat = (x.extractLsb' 1 20).toNat <<< 1 ||| (0#1).toNat := BitVec.toNat_append _ 0#1
  have hx := x.isLt
  rw [h]; simp [Nat.shiftLeft_eq, BitVec.extractLsb'_toNat, Nat.shiftRight_eq_div_pow]; omega

/-- Bit 0 of an address, in integers. -/
theorem bitZero_eq (x : PAddr) : x.getLsbD 0 = decide (x.toNat % 2 = 1) := by
  simp [BitVec.getLsbD, Nat.testBit_zero]

/-- An aligned address is even. -/
theorem alignPc_bitZero (x : PAddr) : (alignPc x).getLsbD 0 = false := by
  rw [bitZero_eq, alignPc_toNat]; simp

/-- An even address is aligned. -/
theorem alignPc_of_even {x : PAddr} (h : x.getLsbD 0 = false) : alignPc x = x := by
  apply BitVec.eq_of_toNat_eq
  rw [bitZero_eq] at h
  simp at h
  rw [alignPc_toNat]; omega

/-! ### Data memory -/

/-- Whether an access stops depends on the parameters and on the stack's being empty alone. -/
theorem accessStop_congr {s t : State} (hc : t.cfg = s.cfg) (hs : t.stack = [] ↔ s.stack = []) (d : Dir) (p : BytePart)
    (a : DAddr) : t.accessStop d p a = s.accessStop d p a := by
  simp only [State.accessStop, State.place, State.sfrStop, hc, hs]

/-- Whether an access stops does not depend on which way it goes. -/
theorem accessStop_dir (s : State) (d e : Dir) (p : BytePart) (a : DAddr) : s.accessStop d p a = s.accessStop e p a := rfl

/-- Any access to TOS with the stack empty is a stack underflow (60_exceptions.md R261). -/
theorem accessStop_empty_tos {s : State} {a : DAddr} {r : Sfr} (hr : r ∈ [Sfr.tosu, Sfr.tosh, Sfr.tosl])
    (ha : s.place a = .sfr r) (hs : s.stack = []) (d : Dir) (p : BytePart) :
    s.accessStop d p a = some (.fault .stackUnderflow) := by
  simp only [List.mem_cons, List.not_mem_nil, or_false] at hr
  obtain rfl | rfl | rfl := hr <;> simp [State.accessStop, State.sfrStop, ha, hs]

/-- What may be written may be read. -/
theorem accessible_read_of_write {s : State} {p : BytePart} {a : DAddr} (h : s.Accessible .write p a) : s.Accessible .read p a :=
  (accessStop_dir s .read .write p a).trans h

/-- What an instruction with a destination bit may access it may read. -/
theorem accessible_read_of_dir {s : State} {d : Dst} {p : BytePart} {a : DAddr} (h : s.Accessible d.dir p a) :
    s.Accessible .read p a := by
  cases d
  · exact h
  · exact accessible_read_of_write h

/-- A read does nothing but latch PCLATH and PCLATU. -/
theorem afterRead_cases (s : State) (a : DAddr) :
    s.afterRead a = s ∨
    (s.place a = .sfr .pcl ∧
      s.afterRead a = (s.setPclath (s.pcNext.extractLsb' 8 8)).setPclatu (s.pcNext.extractLsb' 16 5)) := by
  simp only [State.afterRead]
  split
  · rename_i h
    exact .inr ⟨h, rfl⟩
  · exact .inl rfl

/-- A read of general-purpose memory changes nothing. -/
theorem afterRead_ram {s : State} {a : DAddr} (h : s.place a = .ram) : s.afterRead a = s := by
  simp [State.afterRead, h]

@[simp] theorem afterRead_cfg (s : State) (a : DAddr) : (s.afterRead a).cfg = s.cfg := by
  rcases afterRead_cases s a with h | ⟨-, h⟩ <;> simp [h]

@[simp] theorem afterRead_stack (s : State) (a : DAddr) : (s.afterRead a).stack = s.stack := by
  rcases afterRead_cases s a with h | ⟨-, h⟩ <;> simp [h]

@[simp] theorem afterRead_pc (s : State) (a : DAddr) : (s.afterRead a).pc = s.pc := by
  rcases afterRead_cases s a with h | ⟨-, h⟩ <;> simp [h]

@[simp] theorem afterRead_ram_eq (s : State) (a : DAddr) : (s.afterRead a).ram = s.ram := by
  rcases afterRead_cases s a with h | ⟨-, h⟩ <;> simp [h]

@[simp] theorem afterRead_prog (s : State) (a : DAddr) : (s.afterRead a).prog = s.prog := by
  rcases afterRead_cases s a with h | ⟨-, h⟩ <;> simp [h]

/-- An access after a read stops exactly when it did before. -/
@[simp] theorem afterRead_accessStop (s : State) (a : DAddr) (d : Dir) (p : BytePart) (b : DAddr) :
    (s.afterRead a).accessStop d p b = s.accessStop d p b :=
  accessStop_congr (by simp) (by simp) d p b

/-- An advance does not change what an access meets. -/
@[simp] theorem advance_accessStop (s : State) (n : PAddr) (d : Dir) (p : BytePart) (b : DAddr) :
    (s.advance n).accessStop d p b = s.accessStop d p b :=
  accessStop_congr (by simp) (by simp) d p b

/-- A read of an accessible part answers its byte. -/
theorem readPart_accessible {s : State} {p : BytePart} {a : DAddr} (h : s.Accessible .read p a) :
    s.readPart p a = .next (s.peek a, s.afterRead a) := by
  simp only [State.readPart]
  rw [h]

/-- A read that answers met an accessible part. -/
theorem readPart_next {s : State} {p : BytePart} {a : DAddr} {r : Byte × State} (h : s.readPart p a = .next r) :
    s.Accessible .read p a ∧ r = (s.peek a, s.afterRead a) := by
  simp only [State.readPart] at h
  split at h
  · exact absurd h (stop_out_ne_next _ _)
  · rename_i hn
    exact ⟨hn, by simpa using h.symm⟩

/-- A write to an accessible part answers. -/
theorem writePart_accessible {s : State} {p : BytePart} {a : DAddr} (h : s.Accessible .write p a) (v : Byte) :
    s.writePart p a v = .next (s.poke a v) := by
  simp only [State.writePart]
  rw [h]

/-- A write that answers met an accessible part. -/
theorem writePart_next {s t : State} {p : BytePart} {a : DAddr} {v : Byte} (h : s.writePart p a v = .next t) :
    s.Accessible .write p a ∧ t = s.poke a v := by
  simp only [State.writePart] at h
  split at h
  · exact absurd h (stop_out_ne_next _ _)
  · rename_i hn
    exact ⟨hn, by simpa using h.symm⟩

/-- `MemRead` of an accessible address answers its byte. -/
theorem memRead_accessible {s : State} {a : DAddr} (h : s.Accessible .read .whole a) :
    s.memRead a = .next (s.peek a, s.afterRead a) := readPart_accessible h

/-- A `MemRead` that answers met an accessible address. -/
theorem memRead_next {s : State} {a : DAddr} {r : Byte × State} (h : s.memRead a = .next r) :
    s.Accessible .read .whole a ∧ r = (s.peek a, s.afterRead a) := readPart_next h

/-- `MemWrite` to an accessible address answers. -/
theorem memWrite_accessible {s : State} {a : DAddr} (h : s.Accessible .write .whole a) (v : Byte) :
    s.memWrite a v = .next (s.poke a v) := writePart_accessible h v

/-- A `MemWrite` that answers met an accessible address. -/
theorem memWrite_next {s t : State} {a : DAddr} {v : Byte} (h : s.memWrite a v = .next t) :
    s.Accessible .write .whole a ∧ t = s.poke a v := writePart_next h

/-- Replacing TOS keeps the stack's length. -/
@[simp] theorem setTos_length (s : State) (v : PAddr) : (s.setTos v).stack.length = s.stack.length := by
  cases h : s.stack <;> simp [State.setTos, h]

/-- Replacing TOS changes the stack only. -/
theorem setTos_eq (s : State) (v : PAddr) : ∃ l, l.length = s.stack.length ∧ s.setTos v = s.setStack l := by
  cases h : s.stack with
  | nil => exact ⟨[], by simp, by cases s; simp_all [State.setTos, State.setStack]⟩
  | cons x xs => exact ⟨v :: xs, by simp, by simp [State.setTos, h]⟩

/-- A write to general-purpose memory changes that byte of it and nothing else. -/
theorem poke_ram {s : State} {a : DAddr} (h : s.place a = .ram) (v : Byte) : s.poke a v = s.setRam (s.ram.write a.toNat v) := by
  simp [State.poke, h]

/-- What a write does, by where it leads. -/
theorem poke_cases (s : State) (a : DAddr) (v : Byte) :
    (s.place a = .ram ∧ s.poke a v = s.setRam (s.ram.write a.toNat v)) ∨
    (∃ r, s.place a = .sfr r ∧ s.poke a v = s.pokeSfr r v) ∨ s.poke a v = s := by
  simp only [State.poke]
  split
  · rename_i r h
    exact .inr (.inl ⟨r, h, rfl⟩)
  · rename_i h
    exact .inl ⟨h, rfl⟩
  · exact .inr (.inr rfl)
  · exact .inr (.inr rfl)

/-! ### Resets -/

/-- A filled memory is canonical. -/
theorem fillRam_wf (p : Params) (val : Nat → Byte) (n : Nat) {m : Memory} (h : m.wf = true) :
    (Params.fillRam p val n m).wf = true := by
  induction n generalizing m with
  | zero => exact h
  | succ n ih =>
    apply ih
    split
    · exact Memory.write_wf h _ _
    · exact h

/-- A filled memory lists old entries and implemented general-purpose addresses only. -/
theorem mem_fillRam {p : Params} {val : Nat → Byte} {n : Nat} {m : Memory} {c : Host.Cell}
    (h : c ∈ Params.fillRam p val n m) : c ∈ m ∨ (c.1 < n ∧ Params.place p (BitVec.ofNat 12 c.1) = .ram) := by
  induction n generalizing m with
  | zero => exact .inl h
  | succ n ih =>
    rcases ih h with h | ⟨h, hp⟩
    · split at h
      · rename_i hr
        rcases Memory.mem_write h with h | rfl
        · exact .inl h
        · exact .inr ⟨Nat.lt_succ_self n, hr⟩
      · exact .inl h
    · exact .inr ⟨Nat.lt_succ_of_lt h, hp⟩

/-- Every implemented general-purpose byte below the bound is filled. -/
theorem fillRam_read {p : Params} {val : Nat → Byte} {n : Nat} {m : Memory} (h : m.wf = true) {a : Nat} :
    (Params.fillRam p val n m).read a =
      if a < n ∧ Params.place p (BitVec.ofNat 12 a) = .ram then val a else m.read a := by
  induction n generalizing m with
  | zero => simp [Params.fillRam]
  | succ n ih =>
    simp only [Params.fillRam]
    split
    · rename_i hr
      rw [ih (Memory.write_wf h _ _)]
      by_cases ha : a = n
      · subst ha
        simp [hr, Memory.read_write_same h]
      · simp [Memory.read_write_other m ha, show (a < n + 1 ↔ a < n) by omega]
    · rename_i hr
      rw [ih h]
      by_cases ha : a = n
      · subst ha
        simp [hr]
      · simp [show (a < n + 1 ↔ a < n) by omega]

/-- A reset never leaves more return-stack entries than fit, if there were none too many. -/
theorem stackAfter_length {p : Params} {r : ResetTo (List PAddr)} {old free : List PAddr} (h : old.length ≤ p.stackDepth) :
    (Params.stackAfter p r old free).length ≤ p.stackDepth := by
  cases r with
  | value l => exact List.length_take_le _ _
  | unspecified => exact List.length_take_le _ _
  | absent => exact h

@[simp] theorem resetTo_value {α : Type} (v old free : α) : resetTo (.value v) old free = v := rfl

@[simp] theorem resetTo_absent {α : Type} (old free : α) : resetTo .absent old free = old := rfl

@[simp] theorem resetBy_pc (s : State) (c : ResetCause) : (s.resetBy c).pc = alignPc s.cfg.resetVector := rfl

@[simp] theorem resetBy_mode (s : State) (c : ResetCause) : (s.resetBy c).mode = .running := rfl

@[simp] theorem resetBy_cfg (s : State) (c : ResetCause) : (s.resetBy c).cfg = s.cfg := rfl

@[simp] theorem resetBy_prog (s : State) (c : ResetCause) : (s.resetBy c).prog = s.prog := rfl

@[simp] theorem resetBy_inputs (s : State) (c : ResetCause) : (s.resetBy c).inputs = s.inputs := rfl

@[simp] theorem resetBy_stack (s : State) (c : ResetCause) :
    (s.resetBy c).stack =
      Params.stackAfter s.cfg (ResetState.column s.cfg.resetState c).stack s.stack (Config.freeStack s.freeIx) := rfl

@[simp] theorem resetBy_ram (s : State) (c : ResetCause) :
    (s.resetBy c).ram =
      Params.ramAfter s.cfg (ResetState.column s.cfg.resetState c).ram s.ram
        (fun a => Config.freeByte (s.freeIx + 32 + a)) := rfl

/-! ### Stack -/

/-- A push that answers found room. -/
theorem push_next {s t : State} {v : PAddr} (h : s.push v = .next t) :
    s.stack.length < s.cfg.stackDepth ∧ t = s.setStack (v :: s.stack) := by
  simp only [State.push] at h
  split at h
  · rename_i hl
    exact ⟨hl, by simpa using h.symm⟩
  · cases h

/-- A push with room answers. -/
theorem push_room {s : State} (h : s.stack.length < s.cfg.stackDepth) (v : PAddr) : s.push v = .next (s.setStack (v :: s.stack)) := by
  simp [State.push, h]

/-- A pop that answers found an entry. -/
theorem pop_next {s : State} {p : PAddr × State} (h : s.pop = .next p) :
    ∃ x xs, s.stack = x :: xs ∧ p = (x, s.setStack xs) := by
  simp only [State.pop] at h
  split at h
  · cases h
  · rename_i x xs hs
    exact ⟨x, xs, hs, by simpa using h.symm⟩

/-- A pop of a nonempty stack answers. -/
theorem pop_cons {s : State} {x : PAddr} {xs : List PAddr} (h : s.stack = x :: xs) : s.pop = .next (x, s.setStack xs) := by
  simp [State.pop, h]

/-! ### The shapes of the families -/

/-- `Dest` that answers wrote W or an accessible address. -/
theorem dest_next {s t : State} {d : Dst} {a : DAddr} {v : Byte} (h : s.dest d a v = .next t) :
    (d = .w ∧ t = s.setW v) ∨ (d = .f ∧ s.Accessible .write .whole a ∧ t = s.poke a v) := by
  cases d with
  | w => exact .inl ⟨rfl, by simpa [State.dest] using h.symm⟩
  | f => exact .inr ⟨rfl, writePart_next h⟩

/-- `Dest` to W or an accessible address answers. -/
theorem dest_accessible {s : State} {a : DAddr} {d : Dst} (h : s.Accessible d.dir .whole a) (v : Byte) :
    s.dest d a v = .next (if d = .w then s.setW v else s.poke a v) := by
  cases d with
  | w => rfl
  | f => exact writePart_accessible h v

/-- Where a byte operation on an accessible operand leads. -/
theorem byteOp_accessible {s : State} {f : Byte} {d : Dst} {a : Acc} (h : s.Accessible d.dir .whole (s.ea f a))
    (g : Byte → ByteResult) :
    s.byteOp f d a g =
      let r := g (s.peek (s.ea f a))
      let s1 := (s.afterRead (s.ea f a)).advance (stride r.skip)
      let s2 := if d = .w then s1.setW r.value else s1.poke (s.ea f a) r.value
      .next (s2.setFlags (r.flags s2.flags)) := by
  have hw : ∀ n, ((s.afterRead (s.ea f a)).advance n).Accessible d.dir .whole (s.ea f a) := fun n => by
    simpa [State.Accessible] using h
  simp only [State.byteOp, State.memRead, readPart_accessible (accessible_read_of_dir h), andThen_next_left]
  rw [dest_accessible (hw _)]
  rfl

/-- A byte operation that answers had an accessible operand. -/
theorem byteOp_next {s t : State} {f : Byte} {d : Dst} {a : Acc} {g : Byte → ByteResult} (h : s.byteOp f d a g = .next t) :
    s.Accessible d.dir .whole (s.ea f a) ∧
      ∃ r s1 s2, r = g (s.peek (s.ea f a)) ∧ s1 = (s.afterRead (s.ea f a)).advance (stride r.skip) ∧
        ((d = .w ∧ s2 = s1.setW r.value) ∨ (d = .f ∧ s2 = s1.poke (s.ea f a) r.value)) ∧
        t = s2.setFlags (r.flags s2.flags) := by
  have ha : s.Accessible d.dir .whole (s.ea f a) := by
    obtain ⟨p, hp, hk⟩ := andThen_next h
    obtain ⟨hr, rfl⟩ := readPart_next hp
    cases d with
    | w => exact hr
    | f =>
      obtain ⟨s2, hd, -⟩ := andThen_next hk
      simpa [State.Accessible, Dst.dir] using (writePart_next hd).1
  rw [byteOp_accessible ha] at h
  refine ⟨ha, _, _, _, rfl, rfl, ?_, by simpa using h.symm⟩
  cases d
  · exact .inl ⟨rfl, rfl⟩
  · exact .inr ⟨rfl, rfl⟩

/-- Where a write without a read leads. -/
theorem writeOp_accessible {s : State} {f : Byte} {a : Acc} (h : s.Accessible .write .whole (s.ea f a)) (v : Byte)
    (fl : Flags → Flags) :
    s.writeOp f a v fl =
      .next (((s.advance 2).poke (s.ea f a) v).setFlags (fl ((s.advance 2).poke (s.ea f a) v).flags)) := by
  have hw : (s.advance 2).Accessible .write .whole (s.ea f a) := by simpa [State.Accessible] using h
  simp only [State.writeOp, State.memWrite, writePart_accessible hw, andThen_next_left]

/-- A write without a read that answers had an accessible operand. -/
theorem writeOp_next {s t : State} {f : Byte} {a : Acc} {v : Byte} {fl : Flags → Flags} (h : s.writeOp f a v fl = .next t) :
    s.Accessible .write .whole (s.ea f a) ∧
      t = ((s.advance 2).poke (s.ea f a) v).setFlags (fl ((s.advance 2).poke (s.ea f a) v).flags) := by
  obtain ⟨p, hp, -⟩ := andThen_next h
  obtain ⟨ha, -⟩ := writePart_next hp
  have ha' : s.Accessible .write .whole (s.ea f a) := by simpa [State.Accessible] using ha
  rw [writeOp_accessible ha'] at h
  exact ⟨ha', by simpa using h.symm⟩

/-- Where a test of an accessible operand leads. -/
theorem testOp_accessible {s : State} {f : Byte} {a : Acc} (h : s.Accessible .read .whole (s.ea f a)) (cond : Byte → Bool) :
    s.testOp f a cond = .next ((s.afterRead (s.ea f a)).advance (stride (cond (s.peek (s.ea f a))))) := by
  simp only [State.testOp, State.memRead, readPart_accessible h, andThen_next_left]

/-- A test that answers had an accessible operand. -/
theorem testOp_next {s t : State} {f : Byte} {a : Acc} {cond : Byte → Bool} (h : s.testOp f a cond = .next t) :
    s.Accessible .read .whole (s.ea f a) ∧ t = (s.afterRead (s.ea f a)).advance (stride (cond (s.peek (s.ea f a)))) := by
  obtain ⟨p, hp, -⟩ := andThen_next h
  obtain ⟨ha, -⟩ := readPart_next hp
  rw [testOp_accessible ha] at h
  exact ⟨ha, by simpa using h.symm⟩

/-- Where a bit operation on an accessible bit leads. -/
theorem bitOp_accessible {s : State} {f : Byte} {b : BitVec 3} {a : Acc} (h : s.Accessible .write (.bit b) (s.ea f a))
    (g : Byte → Byte) :
    s.bitOp f b a g = .next (((s.afterRead (s.ea f a)).advance 2).poke (s.ea f a) (g (s.peek (s.ea f a)))) := by
  have hw : ((s.afterRead (s.ea f a)).advance 2).Accessible .write (.bit b) (s.ea f a) := by
    simpa [State.Accessible] using h
  simp only [State.bitOp, readPart_accessible (accessible_read_of_write h), andThen_next_left, writePart_accessible hw]

/-- A bit operation that answers had an accessible bit. -/
theorem bitOp_next {s t : State} {f : Byte} {b : BitVec 3} {a : Acc} {g : Byte → Byte} (h : s.bitOp f b a g = .next t) :
    s.Accessible .write (.bit b) (s.ea f a) ∧
      t = ((s.afterRead (s.ea f a)).advance 2).poke (s.ea f a) (g (s.peek (s.ea f a))) := by
  obtain ⟨p, hp, hk⟩ := andThen_next h
  obtain ⟨-, rfl⟩ := readPart_next hp
  obtain ⟨hw, rfl⟩ := writePart_next hk
  exact ⟨by simpa [State.Accessible] using hw, rfl⟩

/-- Where a test of an accessible bit leads. -/
theorem bitTest_accessible {s : State} {f : Byte} {b : BitVec 3} {a : Acc} (h : s.Accessible .read (.bit b) (s.ea f a))
    (want : Bool) :
    s.bitTest f b a want =
      .next ((s.afterRead (s.ea f a)).advance (stride ((s.peek (s.ea f a)).getLsbD b.toNat == want))) := by
  simp only [State.bitTest, readPart_accessible h, andThen_next_left]

/-- A test of a bit that answers had an accessible bit. -/
theorem bitTest_next {s t : State} {f : Byte} {b : BitVec 3} {a : Acc} {want : Bool} (h : s.bitTest f b a want = .next t) :
    s.Accessible .read (.bit b) (s.ea f a) ∧
      t = (s.afterRead (s.ea f a)).advance (stride ((s.peek (s.ea f a)).getLsbD b.toNat == want)) := by
  obtain ⟨p, hp, -⟩ := andThen_next h
  obtain ⟨ha, -⟩ := readPart_next hp
  rw [bitTest_accessible ha] at h
  exact ⟨ha, by simpa using h.symm⟩

/-- A table read that answers read implemented program memory. -/
theorem tableRead_next {s t : State} {m : TblMode} (h : s.tableRead m = .next t) :
    s.progHas (m.accessed s.tblptr) = true ∧
      t = ((s.advance 2).setTablat (s.progByte (m.accessed s.tblptr))).setTblptr (m.after s.tblptr) := by
  simp only [State.tableRead] at h
  split at h
  · rename_i hp
    exact ⟨hp, by simpa using h.symm⟩
  · cases h

/-- A return that answers popped an entry. -/
theorem returnTo_next {s t : State} {fast : Bool} (h : s.returnTo fast = .next t) :
    ∃ x xs, s.stack = x :: xs ∧
      t = if fast then ((s.setStack xs).setPc x).restoreFast else (s.setStack xs).setPc x := by
  obtain ⟨p, hp, hk⟩ := andThen_next h
  obtain ⟨x, xs, hs, rfl⟩ := pop_next hp
  exact ⟨x, xs, hs, by simpa using hk.symm⟩

/-- Re-enabling interrupts changes GIEH and GIEL only. -/
theorem reenable_eq (s : State) : ∃ h l, s.reenable = s.setGie h l := by
  simp only [State.reenable]
  split
  · split <;> exact ⟨_, _, rfl⟩
  · exact ⟨_, _, rfl⟩
  · exact ⟨_, _, rfl⟩

/-- A return from interrupt that answers popped an entry. -/
theorem interruptReturn_next {s t : State} {fast : Bool} (h : s.interruptReturn fast = .next t) :
    ∃ x xs, s.stack = x :: xs ∧
      t = if fast then ((s.setStack xs).setPc x).reenable.restoreFast else ((s.setStack xs).setPc x).reenable := by
  obtain ⟨p, hp, hk⟩ := andThen_next h
  obtain ⟨x, xs, hs, rfl⟩ := pop_next hp
  exact ⟨x, xs, hs, by simpa using hk.symm⟩

/-- An interrupt entry that answers found room on the stack. -/
theorem interruptEntry_next {s t : State} {level : Level} (h : s.interruptEntry level = .next t) :
    s.stack.length < s.cfg.stackDepth ∧
      t = ((s.setStack (s.pc :: s.stack)).saveFast.setMode .running).vectorTo level := by
  obtain ⟨s1, hp, hk⟩ := andThen_next h
  obtain ⟨hl, rfl⟩ := push_next hp
  exact ⟨hl, by simpa using hk.symm⟩

/-- An interrupt entry with room on the stack answers. -/
theorem interruptEntry_room {s : State} (h : s.stack.length < s.cfg.stackDepth) (level : Level) :
    s.interruptEntry level =
      .next (((s.setStack (s.pc :: s.stack)).saveFast.setMode .running).vectorTo level) := by
  simp only [State.interruptEntry, push_room h, andThen_next_left]

end Sys2Proof.Machine
end

