-- ==== Sys2Proof/Laws/PerInstr.lean ====
section
/-! SUPPORT. Laws stated of every instruction as syntax, one lemma per constructor. -/

namespace Sys2Proof.Laws.EncodedLength

/-- How many words an instruction has (30_encoding.md R90): two for `movff`, `call`, `goto` and `lfsr`, else one. -/
def words : Instr → Nat
  | .movff _ _ | .call _ _ | .goto _ | .lfsr _ _ => 2
  | _ => 1

/-- The encoding of an instruction has the number of bytes its length in words says (R90, R94). -/
def Statement (i : Instr) : Prop := (encode i).length = 2 * words i

theorem addwf f d a : Statement (.addwf f d a) := rfl
theorem addwfc f d a : Statement (.addwfc f d a) := rfl
theorem andwf f d a : Statement (.andwf f d a) := rfl
theorem clrf f a : Statement (.clrf f a) := rfl
theorem comf f d a : Statement (.comf f d a) := rfl
theorem cpfseq f a : Statement (.cpfseq f a) := rfl
theorem cpfsgt f a : Statement (.cpfsgt f a) := rfl
theorem cpfslt f a : Statement (.cpfslt f a) := rfl
theorem decf f d a : Statement (.decf f d a) := rfl
theorem decfsz f d a : Statement (.decfsz f d a) := rfl
theorem dcfsnz f d a : Statement (.dcfsnz f d a) := rfl
theorem incf f d a : Statement (.incf f d a) := rfl
theorem incfsz f d a : Statement (.incfsz f d a) := rfl
theorem infsnz f d a : Statement (.infsnz f d a) := rfl
theorem iorwf f d a : Statement (.iorwf f d a) := rfl
theorem movf f d a : Statement (.movf f d a) := rfl
theorem movff fs fd : Statement (.movff fs fd) := rfl
theorem movwf f a : Statement (.movwf f a) := rfl
theorem mulwf f a : Statement (.mulwf f a) := rfl
theorem negf f a : Statement (.negf f a) := rfl
theorem rlcf f d a : Statement (.rlcf f d a) := rfl
theorem rlncf f d a : Statement (.rlncf f d a) := rfl
theorem rrcf f d a : Statement (.rrcf f d a) := rfl
theorem rrncf f d a : Statement (.rrncf f d a) := rfl
theorem setf f a : Statement (.setf f a) := rfl
theorem subfwb f d a : Statement (.subfwb f d a) := rfl
theorem subwf f d a : Statement (.subwf f d a) := rfl
theorem subwfb f d a : Statement (.subwfb f d a) := rfl
theorem swapf f d a : Statement (.swapf f d a) := rfl
theorem tstfsz f a : Statement (.tstfsz f a) := rfl
theorem xorwf f d a : Statement (.xorwf f d a) := rfl
theorem bcf f b a : Statement (.bcf f b a) := rfl
theorem bsf f b a : Statement (.bsf f b a) := rfl
theorem btfsc f b a : Statement (.btfsc f b a) := rfl
theorem btfss f b a : Statement (.btfss f b a) := rfl
theorem btg f b a : Statement (.btg f b a) := rfl
theorem bc n : Statement (.bc n) := rfl
theorem bn n : Statement (.bn n) := rfl
theorem bnc n : Statement (.bnc n) := rfl
theorem bnn n : Statement (.bnn n) := rfl
theorem bnov n : Statement (.bnov n) := rfl
theorem bnz n : Statement (.bnz n) := rfl
theorem bov n : Statement (.bov n) := rfl
theorem bra n : Statement (.bra n) := rfl
theorem bz n : Statement (.bz n) := rfl
theorem call k s : Statement (.call k s) := rfl
theorem clrwdt : Statement .clrwdt := rfl
theorem daw : Statement .daw := rfl
theorem goto k : Statement (.goto k) := rfl
theorem nop : Statement .nop := rfl
theorem nopx x : Statement (.nopx x) := rfl
theorem pop : Statement .pop := rfl
theorem push : Statement .push := rfl
theorem rcall n : Statement (.rcall n) := rfl
theorem reset : Statement .reset := rfl
theorem retfie s : Statement (.retfie s) := rfl
theorem retlw k : Statement (.retlw k) := rfl
theorem ret s : Statement (.ret s) := rfl
theorem sleep : Statement .sleep := rfl
theorem addlw k : Statement (.addlw k) := rfl
theorem andlw k : Statement (.andlw k) := rfl
theorem iorlw k : Statement (.iorlw k) := rfl
theorem lfsr f k : Statement (.lfsr f k) := rfl
theorem movlb k : Statement (.movlb k) := rfl
theorem movlw k : Statement (.movlw k) := rfl
theorem mullw k : Statement (.mullw k) := rfl
theorem sublw k : Statement (.sublw k) := rfl
theorem xorlw k : Statement (.xorlw k) := rfl
theorem tblrd : Statement .tblrd := rfl
theorem tblrdPostInc : Statement .tblrdPostInc := rfl
theorem tblrdPostDec : Statement .tblrdPostDec := rfl
theorem tblrdPreInc : Statement .tblrdPreInc := rfl
theorem tblwt : Statement .tblwt := rfl
theorem tblwtPostInc : Statement .tblwtPostInc := rfl
theorem tblwtPostDec : Statement .tblwtPostDec := rfl
theorem tblwtPreInc : Statement .tblwtPreInc := rfl

end Sys2Proof.Laws.EncodedLength
end

