-- ==== Sys2Proof/Laws/Step.lean ====
section
/-! SUPPORT. What an event and a step can do, said once: proofs about every step case on these instead of unfolding it. -/

namespace Sys2Proof.Machine

/-- A write to a special-function register changes neither the parameters nor data memory. -/
theorem pokeSfr_cfg_ram (s : State) (r : Sfr) (v : Byte) : (s.pokeSfr r v).cfg = s.cfg ∧ (s.pokeSfr r v).ram = s.ram := by
  cases r <;> simp [State.pokeSfr, State.setPc] <;> (obtain ⟨l, -, hl⟩ := setTos_eq s _; rw [hl]; exact ⟨rfl, rfl⟩)

/-- INTCON's two modelled bits. -/
theorem intconByte_enables (s : State) : s.intconByte.getLsbD 7 = s.gieh ∧ s.intconByte.getLsbD 6 = s.giel := by
  have h : ∀ g l : Bool, (BitVec.ofBool g ++ BitVec.ofBool l ++ 0#6).getLsbD 7 = g ∧
      (BitVec.ofBool g ++ BitVec.ofBool l ++ 0#6).getLsbD 6 = l := by decide
  exact h _ _

/-- RCON's two modelled bits. -/
theorem rconByte_flags (s : State) : s.rconByte.getLsbD 3 = s.toBit ∧ s.rconByte.getLsbD 2 = s.pdBit := by
  have h : ∀ t p : Bool, (0#4 ++ BitVec.ofBool t ++ BitVec.ofBool p ++ 0#2).getLsbD 3 = t ∧
      (0#4 ++ BitVec.ofBool t ++ BitVec.ofBool p ++ 0#2).getLsbD 2 = p := by decide
  exact h _ _

/-- The five things an event can do. -/
inductive EventOutcome (s : State) : Res State → Prop where
  | mclr : EventOutcome s (.next (s.resetBy .mclr))
  | wdtReset : EventOutcome s (.next ((s.setToPd false s.pdBit).resetBy .wdt))
  | wdtWake : EventOutcome s (.next ((s.setToPd false s.pdBit).setMode .running))
  | wake : EventOutcome s (.next (s.setMode .running))
  | entry (level : Level) : EventOutcome s (s.interruptEntry level)

/-- A request that acts enters its handler or wakes the core. -/
theorem request_some {s : State} {level : Level} {o : Res State} (h : s.request level = some o) : EventOutcome s o := by
  unfold State.request at h
  split at h
  · cases h; exact .entry level
  · split at h
    · cases h; exact .wake
    · cases h

/-- An event that acts does one of the five. -/
theorem event_some {s : State} {e : EnvInput} {o : Res State} (h : s.event e = some o) : EventOutcome s o := by
  unfold State.event at h
  split at h
  · cases h; exact .mclr
  · split at h
    · cases h
      unfold State.wdtOverflow
      split
      · exact .wdtWake
      · exact .wdtReset
    · rw [Option.or_eq_some_iff] at h
      rcases h with h | ⟨-, h⟩
      · split at h
        · exact request_some h
        · cases h
      · split at h
        · exact request_some h
        · cases h

/-- The bytes fetched do not depend on the boundary's input. -/
@[simp] theorem arrive_fetchBytes (s : State) : s.arrive.fetchBytes = s.fetchBytes := rfl

/-- A step that answers was an event, a boundary slept through, or one instruction. -/
theorem step_next {s t : State} (h : step s = .next t) :
    (∃ o, EventOutcome s.arrive o ∧ o = .next t) ∨ (s.mode = .sleeping ∧ t = s.arrive) ∨
      (s.mode = .running ∧ ∃ i, decode s.fetchBytes = .ok i ∧ exec i s.arrive = .next t) := by
  unfold step at h
  split at h
  · cases h
  · split at h
    · rename_i o ho
      exact .inl ⟨o, event_some ho, h⟩
    · split at h
      · rename_i hm
        cases h
        exact .inr (.inl ⟨hm, rfl⟩)
      · rename_i hm
        refine .inr (.inr ⟨hm, ?_⟩)
        unfold State.instrStep at h
        rw [arrive_fetchBytes] at h
        split at h
        · rename_i i hi
          exact ⟨i, hi, h⟩
        · cases h

/-- A step that executes runs the decoder's answer. -/
theorem step_of_executes {s : State} (h : s.Executes) : step s = s.arrive.instrStep := by
  unfold step
  simp only [h.standard, h.noEvent, h.running, Bool.false_eq_true, if_false]

end Sys2Proof.Machine
end

