-- ==== Sys2Proof/Tests/Slice0.lean ====
section
/-! SUPPORT. The model's own tests. Expected results come from spec/95_test_vectors.md (the id stands at each test) or from
the encodings of 30_encoding.md R101, never from the model. -/

namespace Sys2Proof.Tests

open Sys2Proof.Machine

/-- The bytes of words in program memory (20_memory.md R68). -/
def bytesOf : List (BitVec 16) → List Byte
  | [] => []
  | w :: ws => w.extractLsb' 0 8 :: w.extractLsb' 8 8 :: bytesOf ws

/-- The next state, if there is one. -/
def nextOf : Host.Outcome State Fault Refusal → Option State
  | .next t => some t
  | .fault _ => none
  | .refused _ => none

/-- The stop, if there is one. -/
def stopOf : Host.Outcome State Fault Refusal → Option Stop
  | .next _ => none
  | .fault r => some (.fault r)
  | .refused r => some (.refused r)

/-- One step with these words at PC. -/
def run (ws : List (BitVec 16)) (s : State) : Option State := nextOf (step (s.placeAtPc (bytesOf ws)))

/-- PC = 0x100, W, the byte at 0x020 and the flags given. -/
def at020 (w f : Byte) (fl : Flags) : State :=
  { State.reset with w := w, ram := State.reset.ram.write 0x20 f, flags := fl, pc := 0x100 }

/-- W, the byte at 0x020, the flags and PC. -/
def look (s : Option State) : Option (Byte × Byte × Flags × PAddr) := s.map fun t => (t.w, t.ram.read 0x20, t.flags, t.pc)

/-- The default parameters with the watchdog enabled. -/
def wdtOn : Params := { defaultParams with wdtEnabled := true }

/-- Do the words decode to the instruction, and does the instruction encode to the words? -/
def decodesTo (l : List (List (BitVec 16) × Instr)) : Bool :=
  l.all fun (ws, i) => decide ((decode (bytesOf ws)).toOption = some i) && decide (encodeWords i = ws)

/-! ### WellFormed: its one check refuses an FSR number that names no register (30_encoding.md R92) -/

theorem test_wellFormed_refuses_fsr3 : Instr.wellFormed (.lfsr 3 0x123) = false := by decide

theorem test_wellFormed_takes_fsr2 : Instr.wellFormed (.lfsr 2 0xFFF) = true := by decide

/-- A row's bits placed by the host's interface run as the first instruction after reset (30_encoding.md R102: `movlw 0x84`). -/
theorem test_withFetchWord_movlw : (nextOf (step (State.reset.withFetchWord 16 0x0E84))).map (·.w) = some 0x84 := by decide

/-! ### Decoding and encoding -/

/-- Words written bit by bit from the patterns of 30_encoding.md R101, format BYTE_DA. -/
theorem test_decode_byte_da : decodesTo
    [([0x26A5], .addwf 0xA5 .f .access),
     ([0x22A5], .addwfc 0xA5 .f .access),
     ([0x16A5], .andwf 0xA5 .f .access),
     ([0x1EA5], .comf 0xA5 .f .access),
     ([0x06A5], .decf 0xA5 .f .access),
     ([0x2EA5], .decfsz 0xA5 .f .access),
     ([0x4EA5], .dcfsnz 0xA5 .f .access),
     ([0x2AA5], .incf 0xA5 .f .access),
     ([0x3EA5], .incfsz 0xA5 .f .access),
     ([0x4AA5], .infsnz 0xA5 .f .access),
     ([0x12A5], .iorwf 0xA5 .f .access),
     ([0x52A5], .movf 0xA5 .f .access),
     ([0x36A5], .rlcf 0xA5 .f .access),
     ([0x46A5], .rlncf 0xA5 .f .access),
     ([0x32A5], .rrcf 0xA5 .f .access),
     ([0x42A5], .rrncf 0xA5 .f .access),
     ([0x56A5], .subfwb 0xA5 .f .access),
     ([0x5EA5], .subwf 0xA5 .f .access),
     ([0x5AA5], .subwfb 0xA5 .f .access),
     ([0x3AA5], .swapf 0xA5 .f .access),
     ([0x1AA5], .xorwf 0xA5 .f .access)] = true := by decide

/-- Words written bit by bit from the patterns of 30_encoding.md R101, format BYTE_A. -/
theorem test_decode_byte_a : decodesTo
    [([0x6BA5], .clrf 0xA5 .banked),
     ([0x63A5], .cpfseq 0xA5 .banked),
     ([0x65A5], .cpfsgt 0xA5 .banked),
     ([0x61A5], .cpfslt 0xA5 .banked),
     ([0x6FA5], .movwf 0xA5 .banked),
     ([0x03A5], .mulwf 0xA5 .banked),
     ([0x6DA5], .negf 0xA5 .banked),
     ([0x69A5], .setf 0xA5 .banked),
     ([0x67A5], .tstfsz 0xA5 .banked)] = true := by decide

/-- Words written bit by bit from the patterns of 30_encoding.md R101, format MOVFF. -/
theorem test_decode_movff : decodesTo
    [([0xC123, 0xF456], .movff 0x123 0x456)] = true := by decide

/-- Words written bit by bit from the patterns of 30_encoding.md R101, format BIT. -/
theorem test_decode_bit : decodesTo
    [([0x9DA5], .bcf 0xA5 6 .banked),
     ([0x8DA5], .bsf 0xA5 6 .banked),
     ([0xBDA5], .btfsc 0xA5 6 .banked),
     ([0xADA5], .btfss 0xA5 6 .banked),
     ([0x7DA5], .btg 0xA5 6 .banked)] = true := by decide

/-- Words written bit by bit from the patterns of 30_encoding.md R101, format REL8. -/
theorem test_decode_rel8 : decodesTo
    [([0xE2FE], .bc 0xFE),
     ([0xE6FE], .bn 0xFE),
     ([0xE3FE], .bnc 0xFE),
     ([0xE7FE], .bnn 0xFE),
     ([0xE5FE], .bnov 0xFE),
     ([0xE1FE], .bnz 0xFE),
     ([0xE4FE], .bov 0xFE),
     ([0xE0FE], .bz 0xFE)] = true := by decide

/-- Words written bit by bit from the patterns of 30_encoding.md R101, format REL11. -/
theorem test_decode_rel11 : decodesTo
    [([0xD5A3], .bra 0x5A3),
     ([0xDDA3], .rcall 0x5A3)] = true := by decide

/-- Words written bit by bit from the patterns of 30_encoding.md R101, format CALL20. -/
theorem test_decode_call : decodesTo
    [([0xED56, 0xF234], .call 0x23456 true)] = true := by decide

/-- Words written bit by bit from the patterns of 30_encoding.md R101, format NOARG. -/
theorem test_decode_no_operand : decodesTo
    [([0x0004], .clrwdt),
     ([0x0007], .daw),
     ([0x0000], .nop),
     ([0x0006], .pop),
     ([0x0005], .push),
     ([0x00FF], .reset),
     ([0x0003], .sleep)] = true := by decide

/-- Words written bit by bit from the patterns of 30_encoding.md R101, format ABS20. -/
theorem test_decode_goto : decodesTo
    [([0xEF56, 0xF234], .goto 0x23456)] = true := by decide

/-- Words written bit by bit from the patterns of 30_encoding.md R101, format NOP2. -/
theorem test_decode_nop2 : decodesTo
    [([0xFABC], .nopx 0xABC)] = true := by decide

/-- Words written bit by bit from the patterns of 30_encoding.md R101, format SBIT. -/
theorem test_decode_sbit : decodesTo
    [([0x0011], .retfie true),
     ([0x0013], .ret true)] = true := by decide

/-- Words written bit by bit from the patterns of 30_encoding.md R101, format LIT8. -/
theorem test_decode_lit8 : decodesTo
    [([0x0CA5], .retlw 0xA5),
     ([0x0FA5], .addlw 0xA5),
     ([0x0BA5], .andlw 0xA5),
     ([0x09A5], .iorlw 0xA5),
     ([0x0EA5], .movlw 0xA5),
     ([0x0DA5], .mullw 0xA5),
     ([0x08A5], .sublw 0xA5),
     ([0x0AA5], .xorlw 0xA5)] = true := by decide

/-- Words written bit by bit from the patterns of 30_encoding.md R101, format LFSR. -/
theorem test_decode_lfsr : decodesTo
    [([0xEE23, 0xF0AB], .lfsr 2 0x3AB)] = true := by decide

/-- Words written bit by bit from the patterns of 30_encoding.md R101, format LIT4. -/
theorem test_decode_movlb : decodesTo
    [([0x0109], .movlb 9)] = true := by decide

/-- Words written bit by bit from the patterns of 30_encoding.md R101, format TBL. -/
theorem test_decode_table : decodesTo
    [([0x0008], .tblrd),
     ([0x0009], .tblrdPostInc),
     ([0x000A], .tblrdPostDec),
     ([0x000B], .tblrdPreInc),
     ([0x000C], .tblwt),
     ([0x000D], .tblwtPostInc),
     ([0x000E], .tblwtPostDec),
     ([0x000F], .tblwtPreInc)] = true := by decide

/-! ### One step each -/

/-- 95_test_vectors.md B1. -/
theorem test_addwf_carry : look (run [0x2420] (at020 0xFF 0x01 ⟨false, false, false, false, false⟩)) =
    some (0x00, 0x01, ⟨true, true, true, false, false⟩, 0x102) := by decide

/-- 95_test_vectors.md B2. -/
theorem test_addwf_overflow : look (run [0x2620] (at020 0x7F 0x01 ⟨false, false, false, false, false⟩)) =
    some (0x7F, 0x80, ⟨false, true, false, true, true⟩, 0x102) := by decide

/-- 95_test_vectors.md B5. -/
theorem test_addwfc_carry_in : look (run [0x2020] (at020 0xFF 0x00 ⟨true, false, false, false, false⟩)) =
    some (0x00, 0x00, ⟨true, true, true, false, false⟩, 0x102) := by decide

/-- 95_test_vectors.md B6. -/
theorem test_addwfc_to_f : look (run [0x2220] (at020 0x7F 0x00 ⟨true, false, false, false, false⟩)) =
    some (0x7F, 0x80, ⟨false, true, false, true, true⟩, 0x102) := by decide

/-- 95_test_vectors.md B34. -/
theorem test_andwf : look (run [0x1620] (at020 0x80 0xFF ⟨true, true, false, true, false⟩)) =
    some (0x80, 0x80, ⟨true, true, false, true, true⟩, 0x102) := by decide

/-- 95_test_vectors.md B46. -/
theorem test_clrf : look (run [0x6A20] (at020 0x11 0x5A ⟨false, false, false, false, true⟩)) =
    some (0x11, 0x00, ⟨false, false, true, false, true⟩, 0x102) := by decide

/-- 95_test_vectors.md B31. -/
theorem test_comf : look (run [0x1E20] (at020 0x11 0xFF ⟨false, false, false, false, true⟩)) =
    some (0x11, 0x00, ⟨false, false, true, false, false⟩, 0x102) := by decide

/-- 95_test_vectors.md B49. -/
theorem test_cpfseq_equal : look (run [0x6220] (at020 0x10 0x10 ⟨false, false, false, false, false⟩)) =
    some (0x10, 0x10, ⟨false, false, false, false, false⟩, 0x104) := by decide

/-- 95_test_vectors.md B50. -/
theorem test_cpfseq_unequal : look (run [0x6220] (at020 0x10 0x11 ⟨false, false, false, false, false⟩)) =
    some (0x10, 0x11, ⟨false, false, false, false, false⟩, 0x102) := by decide

/-- 95_test_vectors.md B51. -/
theorem test_cpfsgt_unsigned : look (run [0x6420] (at020 0x7F 0x80 ⟨false, false, false, false, false⟩)) =
    some (0x7F, 0x80, ⟨false, false, false, false, false⟩, 0x104) := by decide

/-- 95_test_vectors.md B52. -/
theorem test_cpfsgt_equal : look (run [0x6420] (at020 0x80 0x80 ⟨false, false, false, false, false⟩)) =
    some (0x80, 0x80, ⟨false, false, false, false, false⟩, 0x102) := by decide

/-- 95_test_vectors.md B54. -/
theorem test_cpfslt_unsigned : look (run [0x6020] (at020 0x80 0x7F ⟨false, false, false, false, false⟩)) =
    some (0x80, 0x7F, ⟨false, false, false, false, false⟩, 0x104) := by decide

/-- 95_test_vectors.md B55. -/
theorem test_cpfslt_equal : look (run [0x6020] (at020 0x7F 0x7F ⟨false, false, false, false, false⟩)) =
    some (0x7F, 0x7F, ⟨false, false, false, false, false⟩, 0x102) := by decide

/-- 95_test_vectors.md B7. -/
theorem test_decf_borrow : look (run [0x0620] (at020 0x11 0x00 ⟨false, false, false, false, false⟩)) =
    some (0x11, 0xFF, ⟨false, false, false, false, true⟩, 0x102) := by decide

/-- 95_test_vectors.md B8. -/
theorem test_decf_overflow : look (run [0x0620] (at020 0x11 0x80 ⟨false, false, false, false, false⟩)) =
    some (0x11, 0x7F, ⟨true, false, false, true, false⟩, 0x102) := by decide

/-- 95_test_vectors.md B59. -/
theorem test_decfsz_skip : look (run [0x2E20] (at020 0x11 0x01 ⟨true, false, false, false, false⟩)) =
    some (0x11, 0x00, ⟨true, false, false, false, false⟩, 0x104) := by decide

/-- 95_test_vectors.md B61. -/
theorem test_decfsz_to_w : look (run [0x2C20] (at020 0x99 0x02 ⟨false, false, false, false, false⟩)) =
    some (0x01, 0x02, ⟨false, false, false, false, false⟩, 0x102) := by decide

/-- 95_test_vectors.md B62. -/
theorem test_dcfsnz_no_skip : look (run [0x4E20] (at020 0x11 0x01 ⟨false, false, false, false, false⟩)) =
    some (0x11, 0x00, ⟨false, false, false, false, false⟩, 0x102) := by decide

/-- 95_test_vectors.md B63. -/
theorem test_dcfsnz_skip : look (run [0x4E20] (at020 0x11 0x02 ⟨false, false, false, false, false⟩)) =
    some (0x11, 0x01, ⟨false, false, false, false, false⟩, 0x104) := by decide

/-- 95_test_vectors.md B11. -/
theorem test_incf : look (run [0x2A20] (at020 0x11 0x7F ⟨false, false, false, false, false⟩)) =
    some (0x11, 0x80, ⟨false, true, false, true, true⟩, 0x102) := by decide

/-- 95_test_vectors.md B64. -/
theorem test_incfsz_skip : look (run [0x3E20] (at020 0x11 0xFF ⟨false, false, false, false, false⟩)) =
    some (0x11, 0x00, ⟨false, false, false, false, false⟩, 0x104) := by decide

/-- 95_test_vectors.md B65. -/
theorem test_incfsz_no_skip : look (run [0x3E20] (at020 0x11 0x00 ⟨false, false, false, false, false⟩)) =
    some (0x11, 0x01, ⟨false, false, false, false, false⟩, 0x102) := by decide

/-- 95_test_vectors.md B66. -/
theorem test_infsnz_no_skip : look (run [0x4A20] (at020 0x11 0xFF ⟨false, false, false, false, false⟩)) =
    some (0x11, 0x00, ⟨false, false, false, false, false⟩, 0x102) := by decide

/-- 95_test_vectors.md B67. -/
theorem test_infsnz_skip : look (run [0x4A20] (at020 0x11 0x00 ⟨false, false, false, false, false⟩)) =
    some (0x11, 0x01, ⟨false, false, false, false, false⟩, 0x104) := by decide

/-- 95_test_vectors.md B36. -/
theorem test_iorwf : look (run [0x1220] (at020 0x80 0x01 ⟨true, false, false, false, false⟩)) =
    some (0x80, 0x81, ⟨true, false, false, false, true⟩, 0x102) := by decide

/-- 95_test_vectors.md B40. -/
theorem test_movf_to_w : look (run [0x5020] (at020 0x55 0x80 ⟨false, false, true, false, false⟩)) =
    some (0x80, 0x80, ⟨false, false, false, false, true⟩, 0x102) := by decide

/-- 95_test_vectors.md B41. -/
theorem test_movf_to_f : look (run [0x5220] (at020 0x55 0x7F ⟨false, false, true, false, true⟩)) =
    some (0x55, 0x7F, ⟨false, false, false, false, false⟩, 0x102) := by decide

/-- 95_test_vectors.md B48. -/
theorem test_movwf : look (run [0x6E20] (at020 0x4F 0xFF ⟨false, false, true, false, false⟩)) =
    some (0x4F, 0x4F, ⟨false, false, true, false, false⟩, 0x102) := by decide

/-- 95_test_vectors.md B14. -/
theorem test_negf_min : look (run [0x6C20] (at020 0x11 0x80 ⟨false, false, false, false, false⟩)) =
    some (0x11, 0x80, ⟨false, true, false, true, true⟩, 0x102) := by decide

/-- 95_test_vectors.md B13. -/
theorem test_negf_zero : look (run [0x6C20] (at020 0x11 0x00 ⟨false, false, false, false, false⟩)) =
    some (0x11, 0x00, ⟨true, true, true, false, false⟩, 0x102) := by decide

/-- 95_test_vectors.md B23. -/
theorem test_rlcf_out : look (run [0x3620] (at020 0x11 0x80 ⟨false, false, false, false, false⟩)) =
    some (0x11, 0x00, ⟨true, false, true, false, false⟩, 0x102) := by decide

/-- 95_test_vectors.md B24. -/
theorem test_rlcf_in : look (run [0x3620] (at020 0x11 0x00 ⟨true, true, false, true, false⟩)) =
    some (0x11, 0x01, ⟨false, true, false, true, false⟩, 0x102) := by decide

/-- 95_test_vectors.md B27. -/
theorem test_rlncf : look (run [0x4620] (at020 0x11 0x80 ⟨true, false, false, false, false⟩)) =
    some (0x11, 0x01, ⟨true, false, false, false, false⟩, 0x102) := by decide

/-- 95_test_vectors.md B25. -/
theorem test_rrcf_out : look (run [0x3220] (at020 0x11 0x01 ⟨false, false, false, false, false⟩)) =
    some (0x11, 0x00, ⟨true, false, true, false, false⟩, 0x102) := by decide

/-- 95_test_vectors.md B26. -/
theorem test_rrcf_in : look (run [0x3220] (at020 0x11 0x00 ⟨true, false, false, false, false⟩)) =
    some (0x11, 0x80, ⟨false, false, false, false, true⟩, 0x102) := by decide

/-- 95_test_vectors.md B29. -/
theorem test_rrncf : look (run [0x4220] (at020 0x11 0x01 ⟨true, false, false, false, false⟩)) =
    some (0x11, 0x80, ⟨true, false, false, false, true⟩, 0x102) := by decide

/-- 95_test_vectors.md B47. -/
theorem test_setf : look (run [0x6820] (at020 0x11 0x00 ⟨false, false, true, false, false⟩)) =
    some (0x11, 0xFF, ⟨false, false, true, false, false⟩, 0x102) := by decide

/-- 95_test_vectors.md B21. -/
theorem test_subfwb_borrow : look (run [0x5420] (at020 0x00 0xFF ⟨false, false, false, false, false⟩)) =
    some (0x00, 0xFF, ⟨false, false, true, false, false⟩, 0x102) := by decide

/-- 95_test_vectors.md B22. -/
theorem test_subfwb_overflow : look (run [0x5420] (at020 0x80 0x00 ⟨false, false, false, false, false⟩)) =
    some (0x7F, 0x00, ⟨true, false, false, true, false⟩, 0x102) := by decide

/-- 95_test_vectors.md B17. -/
theorem test_subwf_overflow : look (run [0x5C20] (at020 0x80 0x00 ⟨false, false, false, false, false⟩)) =
    some (0x80, 0x00, ⟨false, true, false, true, true⟩, 0x102) := by decide

/-- 95_test_vectors.md B18. -/
theorem test_subwf_digit_borrow : look (run [0x5C20] (at020 0x01 0x10 ⟨false, false, false, false, false⟩)) =
    some (0x0F, 0x10, ⟨true, false, false, false, false⟩, 0x102) := by decide

/-- 95_test_vectors.md B19. -/
theorem test_subwfb_borrow : look (run [0x5820] (at020 0x00 0x00 ⟨false, false, false, false, false⟩)) =
    some (0xFF, 0x00, ⟨false, false, false, false, true⟩, 0x102) := by decide

/-- 95_test_vectors.md B20. -/
theorem test_subwfb_zero : look (run [0x5820] (at020 0xFF 0x00 ⟨false, false, false, false, false⟩)) =
    some (0x00, 0x00, ⟨false, false, true, false, false⟩, 0x102) := by decide

/-- 95_test_vectors.md B43. -/
theorem test_swapf : look (run [0x3A20] (at020 0x00 0xF0 ⟨false, false, false, false, true⟩)) =
    some (0x00, 0x0F, ⟨false, false, false, false, true⟩, 0x102) := by decide

/-- 95_test_vectors.md B57. -/
theorem test_tstfsz_zero : look (run [0x6620] (at020 0x11 0x00 ⟨false, false, false, false, false⟩)) =
    some (0x11, 0x00, ⟨false, false, false, false, false⟩, 0x104) := by decide

/-- 95_test_vectors.md B58. -/
theorem test_tstfsz_nonzero : look (run [0x6620] (at020 0x11 0x01 ⟨false, false, false, false, false⟩)) =
    some (0x11, 0x01, ⟨false, false, false, false, false⟩, 0x102) := by decide

/-- 95_test_vectors.md B38. -/
theorem test_xorwf : look (run [0x1A20] (at020 0xFF 0x7F ⟨false, false, false, false, false⟩)) =
    some (0xFF, 0x80, ⟨false, false, false, false, true⟩, 0x102) := by decide

/-- 95_test_vectors.md T1. -/
theorem test_bcf : look (run [0x9E20] (at020 0x11 0xFF ⟨false, false, true, false, false⟩)) =
    some (0x11, 0x7F, ⟨false, false, true, false, false⟩, 0x102) := by decide

/-- 95_test_vectors.md T3. -/
theorem test_bsf : look (run [0x8020] (at020 0x11 0x00 ⟨false, false, true, false, false⟩)) =
    some (0x11, 0x01, ⟨false, false, true, false, false⟩, 0x102) := by decide

/-- 95_test_vectors.md T7. -/
theorem test_btfsc_clear : look (run [0xB220] (at020 0x11 0xFD ⟨false, false, false, false, false⟩)) =
    some (0x11, 0xFD, ⟨false, false, false, false, false⟩, 0x104) := by decide

/-- 95_test_vectors.md T8. -/
theorem test_btfsc_set : look (run [0xB220] (at020 0x11 0x02 ⟨false, false, false, false, false⟩)) =
    some (0x11, 0x02, ⟨false, false, false, false, false⟩, 0x102) := by decide

/-- 95_test_vectors.md T9. -/
theorem test_btfss_clear : look (run [0xAE20] (at020 0x11 0x7F ⟨false, false, false, false, false⟩)) =
    some (0x11, 0x7F, ⟨false, false, false, false, false⟩, 0x102) := by decide

/-- 95_test_vectors.md T10. -/
theorem test_btfss_set : look (run [0xAE20] (at020 0x11 0x80 ⟨false, false, false, false, false⟩)) =
    some (0x11, 0x80, ⟨false, false, false, false, false⟩, 0x104) := by decide

/-- 95_test_vectors.md T5. -/
theorem test_btg : look (run [0x7820] (at020 0x11 0x75 ⟨false, false, false, false, false⟩)) =
    some (0x11, 0x65, ⟨false, false, false, false, false⟩, 0x102) := by decide

/-- 95_test_vectors.md L2. -/
theorem test_addlw : look (run [0x0F01] (at020 0x7F 0x00 ⟨false, false, false, false, false⟩)) =
    some (0x80, 0x00, ⟨false, true, false, true, true⟩, 0x102) := by decide

/-- 95_test_vectors.md L5. -/
theorem test_andlw : look (run [0x0BFF] (at020 0x80 0x00 ⟨true, false, true, false, false⟩)) =
    some (0x80, 0x00, ⟨true, false, false, false, true⟩, 0x102) := by decide

/-- 95_test_vectors.md L6. -/
theorem test_iorlw : look (run [0x0900] (at020 0x00 0x00 ⟨false, false, false, false, true⟩)) =
    some (0x00, 0x00, ⟨false, false, true, false, false⟩, 0x102) := by decide

/-- 95_test_vectors.md L9. -/
theorem test_movlw : look (run [0x0E00] (at020 0x55 0x00 ⟨false, false, false, false, false⟩)) =
    some (0x00, 0x00, ⟨false, false, false, false, false⟩, 0x102) := by decide

/-- 95_test_vectors.md L16. -/
theorem test_sublw_overflow : look (run [0x0800] (at020 0x80 0x00 ⟨false, false, false, false, false⟩)) =
    some (0x80, 0x00, ⟨false, true, false, true, true⟩, 0x102) := by decide

/-- 95_test_vectors.md L17. -/
theorem test_sublw_digit_borrow : look (run [0x0810] (at020 0x01 0x00 ⟨false, false, false, false, false⟩)) =
    some (0x0F, 0x00, ⟨true, false, false, false, false⟩, 0x102) := by decide

/-- 95_test_vectors.md L8. -/
theorem test_xorlw : look (run [0x0AFF] (at020 0x7F 0x00 ⟨false, false, false, false, false⟩)) =
    some (0x80, 0x00, ⟨false, false, false, false, true⟩, 0x102) := by decide

/-- 95_test_vectors.md K41 (source example S64). -/
theorem test_daw_second_example : look (run [0x0007] (at020 0xCE 0x00 ⟨false, false, false, false, false⟩)) =
    some (0x34, 0x00, ⟨true, false, false, false, false⟩, 0x102) := by decide

/-- 95_test_vectors.md K48. -/
theorem test_daw_digit_carry : look (run [0x0007] (at020 0x3C 0x00 ⟨false, true, false, false, false⟩)) =
    some (0x42, 0x00, ⟨false, true, false, false, false⟩, 0x102) := by decide

/-- 95_test_vectors.md K1, at 0x100. -/
theorem test_bc_taken : look (run [0xE205] (at020 0x00 0x00 ⟨true, false, false, false, false⟩)) =
    some (0x00, 0x00, ⟨true, false, false, false, false⟩, 0x10C) := by decide

/-- 95_test_vectors.md K2. -/
theorem test_bn_taken : look (run [0xE6FE] (at020 0x00 0x00 ⟨false, false, false, false, true⟩)) =
    some (0x00, 0x00, ⟨false, false, false, false, true⟩, 0xFE) := by decide

/-- 95_test_vectors.md K3 at 0x100. -/
theorem test_bnc_not_taken : look (run [0xE37F] (at020 0x00 0x00 ⟨true, false, false, false, false⟩)) =
    some (0x00, 0x00, ⟨true, false, false, false, false⟩, 0x102) := by decide

/-- 95_test_vectors.md K4 at 0x100. -/
theorem test_bnn_taken : look (run [0xE780] (at020 0x00 0x00 ⟨false, false, false, false, false⟩)) =
    some (0x00, 0x00, ⟨false, false, false, false, false⟩, 0x2) := by decide

/-- rule R185, n = 1. -/
theorem test_bnov_not_taken : look (run [0xE501] (at020 0x00 0x00 ⟨false, false, false, true, false⟩)) =
    some (0x00, 0x00, ⟨false, false, false, true, false⟩, 0x102) := by decide

/-- 95_test_vectors.md K6 at 0x100. -/
theorem test_bnz_taken : look (run [0xE1FD] (at020 0x00 0x00 ⟨false, false, false, false, false⟩)) =
    some (0x00, 0x00, ⟨false, false, false, false, false⟩, 0xFC) := by decide

/-- 95_test_vectors.md K7 at 0x100. -/
theorem test_bov_taken : look (run [0xE401] (at020 0x00 0x00 ⟨false, false, false, true, false⟩)) =
    some (0x00, 0x00, ⟨false, false, false, true, false⟩, 0x104) := by decide

/-- 95_test_vectors.md K8. -/
theorem test_bz_taken : look (run [0xE002] (at020 0x00 0x00 ⟨false, false, true, false, false⟩)) =
    some (0x00, 0x00, ⟨false, false, true, false, false⟩, 0x106) := by decide

/-- 95_test_vectors.md K9 at 0x100. -/
theorem test_bra_to_itself : look (run [0xD7FF] (at020 0x00 0x00 ⟨false, false, false, false, false⟩)) =
    some (0x00, 0x00, ⟨false, false, false, false, false⟩, 0x100) := by decide

/-- 95_test_vectors.md K12 at 0x100: n = -130. -/
theorem test_bra_wraps : look (run [0xD77E] (at020 0x00 0x00 ⟨false, false, false, false, false⟩)) =
    some (0x00, 0x00, ⟨false, false, false, false, false⟩, 0x1FFFFE) := by decide

/-- 95_test_vectors.md K30. -/
theorem test_nop : look (run [0x0000] (at020 0x00 0x00 ⟨false, false, false, false, false⟩)) =
    some (0x00, 0x00, ⟨false, false, false, false, false⟩, 0x102) := by decide

/-- 95_test_vectors.md K31. -/
theorem test_nopx : look (run [0xF123] (at020 0x00 0x00 ⟨false, false, false, false, false⟩)) =
    some (0x00, 0x00, ⟨false, false, false, false, false⟩, 0x102) := by decide

/-- 95_test_vectors.md S25. -/
theorem test_movff : (run [0xC020, 0xF021] (at020 0 0x33 ⟨true, false, false, false, false⟩)).map (fun t => (t.ram.read 0x20, t.ram.read 0x21, t.flags.c, t.pc)) = some (0x33, 0x33, true, 0x104) := by decide

/-- 95_test_vectors.md D14. -/
theorem test_movff_from_wreg : (run [0xCFE8, 0xF030] (at020 0x66 0 ⟨false, false, false, false, false⟩)).map (fun t => t.ram.read 0x30) = some 0x66 := by decide

/-- 95_test_vectors.md S27. -/
theorem test_mulwf : (run [0x0220] (at020 0xC4 0xB5 ⟨false, false, true, false, false⟩)).map (fun t => (t.prodh, t.prodl, t.w, t.flags.z)) = some (0x8A, 0x94, 0xC4, true) := by decide

/-- 95_test_vectors.md S86. -/
theorem test_mullw : (run [0x0DC4] (at020 0xE2 0 ⟨false, false, false, false, false⟩)).map (fun t => (t.prodh, t.prodl, t.w)) = some (0xAD, 0x08, 0xE2) := by decide

/-- 95_test_vectors.md S83. -/
theorem test_lfsr : (run [0xEE23, 0xF0AB] State.reset).map (fun t => (t.fsr0, t.fsr1, t.fsr2, t.pc)) = some (0, 0, 0x3AB, 4) := by decide

/-- 95_test_vectors.md L10. -/
theorem test_movlb : (run [0x010F] { State.reset with bsr := 2 }).map (fun t => t.bsr) = some 0xF := by decide

/-- 95_test_vectors.md K21. -/
theorem test_call_fast : (run [0xED00, 0xF001] { State.reset with pc := 0x100, w := 0x5A, bsr := 3, flags := ⟨true, false, false, false, true⟩ }).map (fun t => (t.stack, t.ws, t.statuss.toByte, t.bsrs, t.pc)) = some ([0x104], 0x5A, 0x11, 3, 0x200) := by decide

/-- 95_test_vectors.md K20. -/
theorem test_call_plain : (run [0xEC00, 0xF001] { State.reset with pc := 0x100, w := 0x5A }).map (fun t => (t.stack, t.ws, t.pc)) = some ([0x104], 0, 0x200) := by decide

/-- 95_test_vectors.md K36. -/
theorem test_clrwdt : (run [0x0004] { State.reset with toBit := false, pdBit := false, wdt := 7, wdtPost := 3 }).map (fun t => (t.toBit, t.pdBit, t.wdt, t.wdtPost)) = some (true, true, 0, 0) := by decide

/-- 95_test_vectors.md K29. -/
theorem test_goto : (run [0xEFFF, 0xFFFF] { State.reset with pc := 0x10 }).map (fun t => (t.pc, t.stack)) = some (0x1FFFFE, []) := by decide

/-- 95_test_vectors.md K27. -/
theorem test_pop : (run [0x0006] { State.reset with pc := 0x124, stack := [0x0031A2, 0x014332] }).map (fun t => (t.stack, t.pc)) = some ([0x014332], 0x126) := by decide

/-- 95_test_vectors.md K26. -/
theorem test_push : (run [0x0005] { State.reset with pc := 0x124, stack := [0x00345A] }).map (fun t => (t.stack, t.pc)) = some ([0x000126, 0x00345A], 0x126) := by decide

/-- 95_test_vectors.md K25. -/
theorem test_rcall : (run [0xDFFD] { State.reset with pc := 0x40 }).map (fun t => (t.stack, t.pc)) = some ([0x42], 0x3C) := by decide

/-- 95_test_vectors.md K37. -/
theorem test_reset : (run [0x00FF] { State.reset with pc := 0x40, w := 9, bsr := 2, stack := [4], tblptr := 6, gieh := true, toBit := false }).map (fun t => (t.pc, t.stack, t.bsr, t.gieh, t.toBit, t.w)) = some (0, [], 0, false, false, 9) := by decide

/-- 95_test_vectors.md K32. -/
theorem test_retfie_high : (run [0x0010] { State.reset with pc := 0x8, stack := [0x26] }).map (fun t => (t.pc, t.stack, t.gieh, t.giel)) = some (0x26, [], true, false) := by decide

/-- 95_test_vectors.md K33. -/
theorem test_retfie_low : (run [0x0010] { State.reset with pc := 0x18, stack := [0x26], gieh := true }).map (fun t => (t.pc, t.stack, t.gieh, t.giel)) = some (0x26, [], true, true) := by decide

/-- 95_test_vectors.md L21. -/
theorem test_retlw : (run [0x0C5A] { State.reset with pc := 0x200, stack := [0x104] }).map (fun t => (t.w, t.pc, t.stack)) = some (0x5A, 0x104, []) := by decide

/-- 95_test_vectors.md K22. -/
theorem test_ret_plain : (run [0x0012] { State.reset with pc := 0x200, stack := [0x104], w := 9, ws := 0x5A, bsrs := 3 }).map (fun t => (t.w, t.bsr, t.pc)) = some (9, 0, 0x104) := by decide

/-- 95_test_vectors.md K23. -/
theorem test_ret_fast : (run [0x0013] { State.reset with pc := 0x200, stack := [0x104], w := 9, ws := 0x5A, bsrs := 3, statuss := ⟨true, false, false, false, true⟩ }).map (fun t => (t.w, t.bsr, t.flags.toByte, t.pc)) = some (0x5A, 3, 0x11, 0x104) := by decide

/-- 95_test_vectors.md K35. -/
theorem test_sleep : (run [0x0003] { State.reset with pc := 0x30, toBit := false, wdt := 5 }).map (fun t => (t.toBit, t.pdBit, t.wdt, t.mode, t.pc)) = some (true, false, 0, .sleeping, 0x32) := by decide

/-- A state whose program memory holds the byte `v` at `b`, with TBLPTR and TABLAT given. -/
def tableAt (p : PAddr) (v : Byte) (b : Nat) (lat : Byte) : State :=
  { State.reset with tblptr := p, tablat := lat, prog := State.reset.prog.write b v }

/-- 95_test_vectors.md T20. -/
theorem test_tblrd : (run [0x0008] (tableAt 0x100 0x34 0x100 0)).map (fun t => (t.tablat, t.tblptr)) = some (0x34, 0x100) := by decide

/-- 95_test_vectors.md T21. -/
theorem test_tblrd_post_inc : (run [0x0009] (tableAt 0x100 0x34 0x100 0)).map (fun t => (t.tablat, t.tblptr)) = some (0x34, 0x101) := by decide

/-- 95_test_vectors.md T22. -/
theorem test_tblrd_post_dec : (run [0x000A] (tableAt 0x101 0x12 0x101 0)).map (fun t => (t.tablat, t.tblptr)) = some (0x12, 0x100) := by decide

/-- 95_test_vectors.md T23. -/
theorem test_tblrd_pre_inc : (run [0x000B] (tableAt 0x100 0x12 0x101 0)).map (fun t => (t.tablat, t.tblptr)) = some (0x12, 0x101) := by decide

/-- 95_test_vectors.md T27. -/
theorem test_tblwt : (run [0x000C] (tableAt 0x205 0 0 0xA5)).map (fun t => (t.hold[5], t.tblptr)) = some (0xA5, 0x205) := by decide

/-- 95_test_vectors.md T28. -/
theorem test_tblwt_post_inc : (run [0x000D] (tableAt 0x207 0 0 0x11)).map (fun t => (t.hold[7], t.tblptr)) = some (0x11, 0x208) := by decide

/-- 95_test_vectors.md T29. -/
theorem test_tblwt_post_dec : (run [0x000E] (tableAt 0x200 0 0 0x0F)).map (fun t => (t.hold[0], t.tblptr)) = some (0x0F, 0x1FF) := by decide

/-- 95_test_vectors.md S98 and T31. -/
theorem test_tblwt_pre_inc : (run [0x000F] (tableAt 0x1FFFFF 0 0 0x99)).map (fun t => (t.hold[0], t.hold[7], t.tblptr)) = some (0x99, 0, 0) := by decide

/-- 95_test_vectors.md D2. -/
theorem test_ea_banked : (run [0x6F20] { State.reset with w := 0x22, bsr := 5 }).map (fun t => (t.ram.read 0x520, t.ram.read 0x20)) = some (0x22, 0) := by decide

/-- 95_test_vectors.md D9. -/
theorem test_pcl_computed_jump : (run [0x26F9] { State.reset with pc := 0x100, w := 4, pclath := 0x7F }).map (fun t => (t.pc, t.pclath, t.pclatu, t.flags.toByte)) = some (0x106, 1, 0, 0) := by decide

/-- 95_test_vectors.md D11. -/
theorem test_pcl_write : (run [0x6EF9] { State.reset with pc := 0x100, w := 0x41, pclath := 2 }).map (fun t => t.pc) = some 0x240 := by decide

/-- 95_test_vectors.md D12. -/
theorem test_status_destination : (run [0x12D8] { State.reset with w := 1 }).map (fun t => t.flags.toByte) = some 0x01 := by decide

/-- 95_test_vectors.md D7. -/
theorem test_status_source : (run [0x50D8] { State.reset with flags := ⟨true, false, true, false, false⟩ }).map (fun t => (t.w, t.flags.toByte)) = some (0x05, 0x01) := by decide

/-- 95_test_vectors.md D18. -/
theorem test_fsr_high_width : (run [0x68E2] { State.reset with fsr1 := 0x0BC }).map (fun t => t.fsr1) = some 0xFBC := by decide

/-- 95_test_vectors.md D19. -/
theorem test_tblptru_width : (run [0x68F8] State.reset).map (fun t => t.tblptr) = some 0x1F0000 := by decide

/-- 95_test_vectors.md P6: `bsf 0xF2,7,0` sets GIEH (10_state.md R45). -/
theorem test_intcon_sets_gie : (run [0x8EF2] State.reset).map (fun t => (t.gieh, t.giel)) = some (true, false) := by decide

/-- 10_state.md R45: bit 2 of RCON is PD; `btfss 0xD0,2,0` skips when it is set. -/
theorem test_rcon_tests_pd : (run [0xA4D0] State.reset).map (fun t => t.pc) = some 4 := by decide

/-- 10_state.md R45, decision D7: bit 0 of INTCON is not modelled, and so no whole byte of it is. -/
theorem test_refuse_unmodelled_bits :
    [stopOf (step (State.reset.placeAtPc (bytesOf [0x80F2]))), stopOf (step (State.reset.placeAtPc (bytesOf [0x6EF2]))),
      stopOf (step (State.reset.placeAtPc (bytesOf [0x50D0])))] =
    [some (.refused .unmodelledBits), some (.refused .unmodelledBits), some (.refused .unmodelledBits)] := by decide

/-- 10_state.md R49: after reset the stack is empty and TOS has the value 0. -/
theorem test_empty_tos_is_zero : State.reset.stack = [] ∧ State.reset.tos = 0 := by decide

/-- 60_exceptions.md R261: an access to TOS with the stack empty is a stack underflow, be it a read (`movf TOSL,W`,
`btfsc TOSH,0`, `movff TOSU,0`) or a write (`movwf TOSU`). -/
theorem test_fault_empty_tos :
    [[0x50FD#16], [0xB0FE], [0xCFFF, 0xF000], [0x6EFF]].map (fun ws => stopOf (step (State.reset.placeAtPc (bytesOf ws)))) =
    List.replicate 4 (some (.fault .stackUnderflow)) := by decide

/-- A RESET_STATE without an entry for anything (70_reset_and_hazards.md R291: the source-only map). -/
def sourceOnly : ResetColumn where
  stack := .absent
  pclath := .absent
  pclatu := .absent
  bsr := .absent
  tblptr := .absent
  tablat := .absent
  gieh := .absent
  giel := .absent
  toBit := .absent
  pdBit := .absent
  wdt := .absent
  wdtPost := .absent
  w := .absent
  c := .absent
  dc := .absent
  z := .absent
  ov := .absent
  n := .absent
  fsr0 := .absent
  fsr1 := .absent
  fsr2 := .absent
  prodh := .absent
  prodl := .absent
  ram := .absent
  ws := .absent
  statuss := .absent
  bsrs := .absent
  hold := .absent

/-- 70_reset_and_hazards.md R291, R292: with that map `reset` sets PC and leaves BSR and the stack. -/
theorem test_reset_source_only :
    (run [0x00FF] { State.reset with
      bsr := 3, stack := [2], cfg := { defaultParams with resetState := ⟨sourceOnly, sourceOnly, sourceOnly, none⟩ } }).map
      (fun t => (t.pc, t.bsr, t.stack)) = some (0, 3, [2]) := by decide

/-- 95_test_vectors.md F1. -/
theorem test_fault_unassigned : stopOf (step ((State.reset).placeAtPc (bytesOf [0x0001]))) = some (.fault .unassignedEncoding) := by decide

/-- 95_test_vectors.md F2. -/
theorem test_fault_reserved : stopOf (step ((State.reset).placeAtPc (bytesOf [0xEE30, 0xF000]))) = some (.fault .reservedEncoding) := by decide

/-- 95_test_vectors.md F3. -/
theorem test_fault_bad_second_word : stopOf (step ((State.reset).placeAtPc (bytesOf [0xEF00, 0x0000]))) = some (.fault .badSecondWord) := by decide

/-- 95_test_vectors.md F4. -/
theorem test_fault_movff_pcl : stopOf (step ((State.reset).placeAtPc (bytesOf [0xC020, 0xFFF9]))) = some (.fault .movffForbiddenDest) := by decide

/-- 95_test_vectors.md F5. -/
theorem test_fault_stack_underflow : stopOf (step ((State.reset).placeAtPc (bytesOf [0x0012]))) = some (.fault .stackUnderflow) := by decide

/-- 95_test_vectors.md F6. -/
theorem test_fault_stack_overflow : stopOf (step (({ State.reset with stack := List.replicate 31 0 }).placeAtPc (bytesOf [0x0005]))) = some (.fault .stackOverflow) := by decide

/-- 95_test_vectors.md F7. -/
theorem test_fault_fetch_outside : stopOf (step (({ State.reset with pc := 0x8000 }).placeAtPc (bytesOf [0x0000]))) = some (.fault .fetchOutsideProgram) := by decide

/-- 95_test_vectors.md F7. -/
theorem test_fault_second_word_outside : stopOf (step (({ State.reset with pc := 0x7FFE }).placeAtPc (bytesOf [0xEF00, 0xF000]))) = some (.fault .fetchOutsideProgram) := by decide

/-- 95_test_vectors.md F8. -/
theorem test_fault_table_read : stopOf (step (({ State.reset with tblptr := 0x8000 }).placeAtPc (bytesOf [0x0008]))) = some (.fault .tableReadOutsideProgram) := by decide

/-- 95_test_vectors.md D22. -/
theorem test_fault_unimplemented_data : stopOf (step (({ State.reset with bsr := 6 }).placeAtPc (bytesOf [0x5100]))) = some (.fault .unimplementedData) := by decide

/-- 95_test_vectors.md D23. -/
theorem test_refuse_peripheral : stopOf (step (State.reset.placeAtPc (bytesOf [0x5080]))) = some (.refused .peripheralRegister) := by
  decide

/-- 95_test_vectors.md E1. -/
theorem test_event_high : (nextOf (step { State.reset with pc := 0x26, w := 8, gieh := true, inputs := [{ EnvInput.quiet with intHigh := true }] })).map (fun t => (t.stack, t.ws, t.gieh, t.pc)) = some ([0x26], 8, false, 0x8) := by decide

/-- 95_test_vectors.md E2. -/
theorem test_event_low : (nextOf (step { State.reset with pc := 0x26, w := 8, gieh := true, giel := true, inputs := [{ EnvInput.quiet with intLow := true }] })).map (fun t => (t.stack, t.ws, t.gieh, t.giel, t.pc)) = some ([0x26], 8, true, false, 0x18) := by decide

/-- 95_test_vectors.md E4 (the step is then the nop at 0x26). -/
theorem test_event_not_taken : (nextOf (step { State.reset with pc := 0x26, gieh := true, inputs := [{ EnvInput.quiet with intLow := true }] })).map (fun t => (t.stack, t.pc)) = some ([], 0x28) := by decide

/-- 95_test_vectors.md E5. -/
theorem test_event_wakes_and_enters : (nextOf (step { State.reset with mode := .sleeping, pc := 0x2A, gieh := true, pdBit := false, inputs := [{ EnvInput.quiet with intHigh := true }] })).map (fun t => (t.mode, t.stack, t.pc, t.toBit, t.pdBit)) = some (.running, [0x2A], 0x8, true, false) := by decide

/-- 95_test_vectors.md E6. -/
theorem test_event_wakes_only : (nextOf (step { State.reset with mode := .sleeping, pc := 0x2A, inputs := [{ EnvInput.quiet with intHigh := true }] })).map (fun t => (t.mode, t.stack, t.pc)) = some (.running, [], 0x2A) := by decide

/-- 95_test_vectors.md E7. -/
theorem test_event_wdt_wakes : (nextOf (step { State.reset with mode := .sleeping, pc := 0x2A, pdBit := false, cfg := wdtOn, inputs := [{ EnvInput.quiet with wdtOverflow := true, wdtTicks := 1 }] })).map (fun t => (t.mode, t.pc, t.toBit, t.pdBit)) = some (.running, 0x2A, false, false) := by decide

/-- 95_test_vectors.md E8. -/
theorem test_event_wdt_resets : (nextOf (step { State.reset with pc := 0x2A, bsr := 3, cfg := wdtOn, inputs := [{ EnvInput.quiet with wdtOverflow := true, wdtTicks := 1 }] })).map (fun t => (t.pc, t.bsr, t.toBit, t.pdBit)) = some (0, 0, false, true) := by decide

/-- 95_test_vectors.md E9. -/
theorem test_event_mclr : (nextOf (step { State.reset with mode := .sleeping, pc := 0x2A, stack := [2], inputs := [{ EnvInput.quiet with mclr := true, intHigh := true }] })).map (fun t => (t.mode, t.pc, t.stack)) = some (.running, 0, []) := by decide

/-- 95_test_vectors.md E10 (the step is then the nop at 0x2A). -/
theorem test_event_wdt_disabled : (nextOf (step { State.reset with pc := 0x2A, bsr := 3, inputs := [{ EnvInput.quiet with wdtOverflow := true, wdtTicks := 1 }] })).map (fun t => (t.pc, t.bsr, t.toBit)) = some (0x2C, 3, true) := by decide

/-! ### Witnesses: the hypotheses of each statement hold together of a state, at the ends of each clause's range -/

section Witnesses

open Sys2Proof.Claims

/-- The words at PC of the state after reset. -/
def holding (ws : List (BitVec 16)) : State := State.reset.placeAtPc (bytesOf ws)

/-- The last word of program memory is at PC. -/
def atEnd (ws : List (BitVec 16)) : State := { State.reset with pc := 0x7FFE }.placeAtPc (bytesOf ws)

/-- The environment asserts this at the next boundary. -/
def asserting (s : State) (e : EnvInput) : State := { s with inputs := [e] }

theorem executes_of_quiet {s : State} (h : s.cfg.xinst = false ∧ s.mode = .running ∧ s.arrive.event s.boundary = none) :
    s.Executes := ⟨h.1, h.2.1, h.2.2⟩

theorem witness_DecodeEncode : Instr.wellFormed (.lfsr 2 0xFFF) = true ∧ Instr.wellFormed .tblwtPreInc = true := by decide

theorem witness_EncodeDecode : decode [0x2B, 0xEE, 0xCD, 0xF0, 0x00] = .ok (.lfsr 2 0xBCD) := rfl

theorem witness_UnassignedEncodings :
    (∀ w ∈ [0x0001#16, 0x0002, 0x0014, 0x00FE, 0x0110, 0x01FF, 0xE800, 0xEBFF, 0xEE40, 0xEEFF], unassigned w) ∧
    (∀ w ∈ [0x0000#16, 0x0003, 0x0013, 0x00FF, 0x010F, 0x0200, 0xE7FF, 0xEC00, 0xEE3F, 0xEF00], ¬ unassigned w) ∧
    (holding [0x0001]).Executes ∧ inProgram (holding [0x0001]) 0 ∧ unassigned (wordAt (holding [0x0001]) 0) ∧
    (atEnd [0xEEFF]).Executes ∧ inProgram (atEnd [0xEEFF]) 0x7FFE ∧ unassigned (wordAt (atEnd [0xEEFF]) 0x7FFE) := by
  refine ⟨?_, ?_, executes_of_quiet ⟨rfl, rfl, rfl⟩, ?_, ?_, executes_of_quiet ⟨rfl, rfl, rfl⟩, ?_, ?_⟩
  · simp [unassigned]
  · simp [unassigned]
  · unfold inProgram; decide
  · unfold unassigned; decide
  · unfold inProgram; decide
  · unfold unassigned; decide

theorem witness_SecondWords :
    (∀ p ∈ [(0xC000#16, 0x0000#16), (0xEC00, 0xEFFF), (0xEFFF, 0x7FFF), (0xEE00, 0xF100), (0xEE3F, 0xFF00)],
      twoWords p.1 ∧ badSecond p.1 p.2) ∧
    (∀ p ∈ [(0xCFFF#16, 0xFFFF#16), (0xEDFF, 0xF000), (0xEE2F, 0xF0FF)],
      twoWords p.1 ∧ ¬ badSecond p.1 p.2 ∧ ¬ (lfsrWord p.1 ∧ p.1.extractLsb' 4 2 = 3#2)) ∧
    (holding [0xEE00, 0xF100]).Executes ∧ inProgram (holding [0xEE00, 0xF100]) 0 ∧ inProgram (holding [0xEE00, 0xF100]) 2 ∧
    twoWords (wordAt (holding [0xEE00, 0xF100]) 0) ∧
    badSecond (wordAt (holding [0xEE00, 0xF100]) 0) (wordAt (holding [0xEE00, 0xF100]) 2) ∧
    (holding [0xFFFF]).Executes ∧ (wordAt (holding [0xFFFF]) 0).extractLsb' 12 4 = 0xF#4 := by
  refine ⟨?_, ?_, executes_of_quiet ⟨rfl, rfl, rfl⟩, ?_, ?_, ?_, ?_, executes_of_quiet ⟨rfl, rfl, rfl⟩, by decide⟩
  · simp only [List.forall_mem_cons, and_true, List.not_mem_nil, false_imp_iff, implies_true]
    unfold twoWords badSecond lfsrWord
    refine ⟨?_, ?_, ?_, ?_, ?_⟩ <;> decide
  · simp only [List.forall_mem_cons, and_true, List.not_mem_nil, false_imp_iff, implies_true]
    unfold twoWords badSecond lfsrWord
    refine ⟨?_, ?_, ?_⟩ <;> decide
  · unfold inProgram; decide
  · unfold inProgram; decide
  · unfold twoWords; decide
  · unfold badSecond lfsrWord; decide

theorem witness_StepRunsTheDecodedInstruction :
    (holding [0x0E84]).Executes ∧ decode (holding [0x0E84]).fetchBytes = .ok (.movlw 0x84) ∧ State.reset.inputs = [] ∧
    inProgram State.reset 0 ∧ inProgram State.reset 2 ∧ inProgram (atEnd [0]) (atEnd [0]).pc ∧
    ¬ inProgram (atEnd [0]) ((atEnd [0]).pc + 2) := by
  refine ⟨executes_of_quiet ⟨rfl, rfl, rfl⟩, rfl, rfl, ?_, ?_, ?_, ?_⟩ <;> unfold inProgram <;> decide

theorem witness_FetchOutsideProgramFaults :
    (let s : State := { State.reset with pc := 0x8000 }
     s.Executes ∧ ¬ inProgram s s.pc) ∧
    (let s := atEnd [0xEF00]
     s.Executes ∧ inProgram s s.pc ∧ twoWords (wordAt s s.pc) ∧ ¬ inProgram s (s.pc + 2)) := by
  refine ⟨⟨executes_of_quiet ⟨rfl, rfl, rfl⟩, ?_⟩, executes_of_quiet ⟨rfl, rfl, rfl⟩, ?_, ?_, ?_⟩
  · unfold inProgram; decide
  · unfold inProgram; decide
  · unfold twoWords; decide
  · unfold inProgram; decide

theorem witness_ExtendedModeRefused : ({ State.reset with cfg := { defaultParams with xinst := true } } : State).cfg.xinst = true := rfl

theorem witness_EffectiveAddress :
    (0x5F#8).toNat < State.reset.cfg.accessSplit.toNat ∧ State.reset.cfg.accessSplit.toNat ≤ (0x60#8).toNat := by decide

theorem witness_DataAccess :
    State.reset.place 0x5FF = .ram ∧ State.reset.place 0x600 = .unimplemented ∧ State.reset.place 0xF5F = .unimplemented ∧
    State.reset.place 0xF60 = .peripheral ∧ State.reset.place 0xFEF = .sfr .indirect ∧ State.reset.place 0xFFC = .sfr .stkptr ∧
    State.reset.place 0xFFF = .sfr .tosu ∧ State.reset.stack = [] ∧
    (State.place { State.reset with stack := [2] } 0xFFD = .sfr .tosl ∧
      State.Accessible { State.reset with stack := [2] } .read .whole 0xFFD) ∧ State.reset.Accessible .write .whole 0xFD8 ∧
    State.reset.place 0xFF2 = .sfr .intcon ∧ State.reset.place 0xFD0 = .sfr .rcon ∧
    State.reset.place 0xFD8 = .sfr .status := by decide

theorem reset_inv : State.reset.Inv := ⟨by decide, by decide, by decide, by decide, by decide⟩

theorem witness_MemoryReadsBack :
    State.reset.Inv ∧ State.reset.place 0x000 = .ram ∧ State.reset.place 0x5FF = .ram ∧ State.reset.place 0xFE8 = .sfr .wreg :=
  ⟨reset_inv, by decide, by decide, by decide⟩

theorem witness_RegistersReadThroughTheirAddresses :
    ({ State.reset with stack := [0x1FFFFE] } : State).cfg = defaultParams ∧
    ({ State.reset with stack := [0x1FFFFE] } : State).stack = 0x1FFFFE :: [] ∧ State.reset.cfg = defaultParams ∧
    State.reset.stack = [] := ⟨rfl, rfl, rfl, rfl⟩

theorem witness_RegisterWritesReadBack :
    (let s : State := { State.reset with stack := [2] }
     s.place 0xFFF = .sfr .tosu ∧ s.Accessible .write .whole 0xFFF) ∧
    State.reset.place 0xFF2 = .sfr .intcon ∧ State.reset.place 0xFD0 = .sfr .rcon ∧ State.reset.place 0xFE0 = .sfr .bsr ∧
    State.reset.Accessible .write .whole 0xFE0 := by decide

theorem witness_ProgramCounterThroughPcl : State.reset.place 0xFF9 = .sfr .pcl := by decide

theorem witness_OperandStops :
    readsOperand (.addwf 0x80 .w .access) = some (.whole, 0x80, .access) ∧
    State.reset.accessStop .read .whole (State.reset.ea 0x80 .access) = some (.refused .peripheralRegister) ∧
    readsOperand (.btfsc 0xF2 5 .access) = some (.bit 5, 0xF2, .access) ∧
    State.reset.accessStop .read (.bit 5) (State.reset.ea 0xF2 .access) = some (.refused .unmodelledBits) ∧
    writesOperand (.addwf 0xFF .f .access) = some (.whole, 0xFF, .access) ∧
    State.reset.accessStop .write .whole (State.reset.ea 0xFF .access) = some (.fault .stackUnderflow) ∧
    (∀ r ∈ [Sfr.pcl, Sfr.tosu, Sfr.tosh, Sfr.tosl], State.reset.place 0x600 ≠ .sfr r) ∧
    State.reset.accessStop .read .whole 0x600 = some (.fault .unimplementedData) ∧
    State.reset.accessStop .write .whole 0x600 = some (.fault .unimplementedData) ∧ State.reset.Accessible .read .whole 0x000 := by decide

theorem witness_AdditionInstructions : State.reset.Accessible (Dst.dir .w) .whole (State.reset.ea 0x00 .access) ∧
    State.reset.Accessible (Dst.dir .f) .whole (State.reset.ea 0x00 .access) := by decide

theorem witness_SubtractionInstructions : State.reset.Accessible (Dst.dir .w) .whole (State.reset.ea 0x5F .access) ∧
    State.reset.Accessible (Dst.dir .f) .whole (State.reset.ea 0x5F .access) := by decide

theorem witness_LogicInstructions : State.reset.Accessible (Dst.dir .w) .whole (State.reset.ea 0xE8 .access) ∧
    State.reset.Accessible (Dst.dir .f) .whole (State.reset.ea 0xE8 .access) := by decide

theorem witness_RotateInstructions : State.reset.Accessible (Dst.dir .w) .whole (State.reset.ea 0xD8 .access) ∧
    State.reset.Accessible (Dst.dir .f) .whole (State.reset.ea 0xD8 .access) := by decide

theorem witness_CountAndSkipInstructions : State.reset.Accessible (Dst.dir .w) .whole (State.reset.ea 0xF9 .access) ∧
    State.reset.Accessible (Dst.dir .f) .whole (State.reset.ea 0xF9 .access) := by decide

theorem witness_CompareAndSkipInstructions :
    ({ State.reset with bsr := 5 } : State).Accessible .read .whole (State.ea { State.reset with bsr := 5 } 0xFF .banked) := by decide

theorem witness_OverwritingInstructions : State.reset.Accessible .write .whole (State.reset.ea 0xFF .banked) := by decide

theorem witness_SwapNibbles : State.reset.Accessible (Dst.dir .w) .whole (State.reset.ea 0xFB .access) ∧
    State.reset.Accessible (Dst.dir .f) .whole (State.reset.ea 0xFA .access) := by decide

theorem witness_MultiplyInstructions : State.reset.Accessible .read .whole (State.reset.ea 0xF3 .access) := by decide

theorem witness_MoveBetweenRegisters :
    ((∀ r ∈ [Sfr.pcl, Sfr.tosu, Sfr.tosh, Sfr.tosl], State.reset.place 0xFE8 ≠ .sfr r) ∧ State.reset.Accessible .read .whole 0x5FF ∧
      State.reset.Accessible .write .whole 0xFE8) ∧
    Sfr.pcl ∈ [Sfr.pcl, Sfr.tosu, Sfr.tosh, Sfr.tosl] ∧ State.reset.place 0xFF9 = .sfr .pcl := by decide

theorem witness_BitWritingInstructions : State.reset.Accessible .write (.bit 0) (State.reset.ea 0x25 .access) ∧
    State.reset.Accessible .write (.bit 7) (State.reset.ea 0xF2 .access) := by decide

theorem witness_BitTestingInstructions : State.reset.Accessible .read (.bit 7) (State.reset.ea 0x60 .banked) ∧
    State.reset.Accessible .read (.bit 2) (State.reset.ea 0xD0 .access) := by decide

theorem witness_secondWordChecks : notSecond 0x00 ∧ notSecond 0xEF ∧ ¬ notSecond 0xF0 ∧ ¬ notSecond 0xFF := by
  unfold notSecond; decide

theorem witness_JumpCallsAndPush :
    ({ State.reset with stack := List.replicate 30 0 } : State).stack.length < State.reset.cfg.stackDepth ∧
    State.reset.cfg.stackDepth ≤ ({ State.reset with stack := List.replicate 31 0 } : State).stack.length := by decide

theorem witness_ReturnsAndPop :
    ({ State.reset with stack := [0x1FFFFE] } : State).stack = 0x1FFFFE :: [] ∧ (0x1FFFFE#21).getLsbD 0 = false ∧
    State.reset.stack = [] := by decide

theorem witness_ReturnFromInterrupt :
    State.reset.cfg.retfiePolicy = .restoreCleared ∧ ({ State.reset with stack := [2] } : State).stack = 2 :: [] ∧
    (2#21).getLsbD 0 = false ∧ State.reset.stack = [] := by decide

theorem witness_OddTargetsAreAligned :
    (({ State.reset with stack := [3] } : State).stack = 3 :: [] ∧ State.reset.cfg.retfiePolicy = .restoreCleared) ∧
    (let s : State := { State.reset with stack := [3], cfg := { defaultParams with retfiePolicy := .setGieh } }
     s.stack = 3 :: [] ∧ s.cfg.retfiePolicy = .setGieh) ∧
    (let s : State := { State.reset with stack := [3], cfg := { defaultParams with retfiePolicy := .setGiel } }
     s.stack = 3 :: [] ∧ s.cfg.retfiePolicy = .setGiel) := by decide

theorem witness_DecimalAdjustCorrectsBcdSums : isBcd 0x99 ∧ isBcd 0x00 ∧ ¬ isBcd 0x9A ∧ ¬ isBcd 0xA0 := by unfold isBcd; decide

theorem witness_LoadPointerAndBank : (2#2) ≠ 3 ∧ (0x3F#8).extractLsb' 6 2 = 0b00#2 ∧ (0xF1#8) ≠ 0b11110000#8 := by decide

theorem witness_TableReads :
    inProgram { State.reset with tblptr := 0x7FFF } 0x7FFF ∧ ¬ inProgram { State.reset with tblptr := 0x8000 } 0x8000 ∧
    inProgram { State.reset with tblptr := 0x1FFFFF } (0x1FFFFF + 1) ∧
    ¬ inProgram { State.reset with tblptr := 0x7FFF } (0x7FFF + 1) := by
  unfold inProgram; decide

theorem witness_MemoryFrame :
    State.reset.cfg.resetState.mclr.ram = .absent ∧
    (∃ t, exec (.movwf 0x20 .access) State.reset = .next t) ∧ storeAt State.reset (.movwf 0x20 .access) = some 0x020 ∧
    (∃ t, exec (.movwf 0xE8 .access) State.reset = .next t) ∧ storeAt State.reset (.movwf 0xE8 .access) = some 0xFE8 ∧
    State.reset.place 0xFE8 ≠ .ram ∧
    (∃ t, exec (.movf 0x20 .w .access) State.reset = .next t) ∧ storeAt State.reset (.movf 0x20 .w .access) = none :=
  ⟨rfl, ⟨_, rfl⟩, by decide, ⟨_, rfl⟩, by decide, by decide, ⟨_, rfl⟩, by decide⟩

theorem witness_RegisterFrame :
    (∃ t, exec (.addwf 0xE0 .f .access) State.reset = .next t) ∧ Reg.w ∉ writes (.addwf 0xE0 .f .access) ∧
    storeAt State.reset (.addwf 0xE0 .f .access) = some 0xFE0 ∧ State.reset.place 0xFE0 = .sfr .bsr ∧ Reg.w ∉ sfrRegs .bsr ∧
    loadAt State.reset (.addwf 0xE0 .f .access) = some 0xFE0 ∧ State.reset.place 0xFE0 ≠ .sfr .pcl :=
  ⟨⟨_, rfl⟩, by decide, by decide, by decide, by decide, by decide, by decide⟩

theorem witness_ProgramNeverChanges : ∃ t, step State.reset = .next t := ⟨_, rfl⟩

theorem witness_StepKeepsTheInvariant : State.reset.Inv ∧ ∃ t, step State.reset = .next t := ⟨reset_inv, _, rfl⟩

/-- A core whose stack holds `n` entries, with both enables set, in the power state given. -/
def enabled (m : Mode) (n : Nat) : State :=
  { State.reset with gieh := true, giel := true, mode := m, stack := List.replicate n 0 }

theorem noResetEvent_of {s : State} (h : s.boundary.mclr = false ∧ s.boundary.wdtOverflow = false) : noResetEvent s :=
  ⟨h.1, fun hw => by rw [hw.1] at h; exact absurd h.2 (by decide)⟩

theorem witness_InterruptEntry :
    (let s := asserting (enabled .sleeping 30) { EnvInput.quiet with intHigh := true, intLow := true }
     s.cfg.xinst = false ∧ noResetEvent s ∧ s.boundary.intHigh = true ∧ s.gieh = true ∧
     s.cfg.intVecHigh.getLsbD 0 = false ∧ s.stack.length < s.cfg.stackDepth) ∧
    (let s := asserting (enabled .running 30) { EnvInput.quiet with intLow := true }
     noResetEvent s ∧ s.boundary.intHigh = false ∧ s.boundary.intLow = true ∧ s.giel = true ∧
     s.cfg.intVecLow.getLsbD 0 = false ∧ s.stack.length < s.cfg.stackDepth) ∧
    (let s := asserting (enabled .running 31) { EnvInput.quiet with intHigh := true }
     noResetEvent s ∧ s.boundary.intHigh = true ∧ s.gieh = true ∧ s.cfg.stackDepth ≤ s.stack.length) := by
  refine ⟨⟨rfl, noResetEvent_of ⟨rfl, rfl⟩, ?_⟩, ⟨noResetEvent_of ⟨rfl, rfl⟩, ?_⟩, noResetEvent_of ⟨rfl, rfl⟩, ?_⟩ <;> decide

/-- The default power-on column with a byte of data memory beside it. -/
def withRam : ResetColumn := { defaultPowerOn with ram := .value [(5, 7)] }

theorem witness_SoftwareReset :
    State.reset.cfg.resetState = defaultResetState ∧ defaultMclr.stack = .value [] ∧ sourceOnly.stack = .absent ∧
    ([] : List PAddr).length ≤ State.reset.cfg.stackDepth ∧ withRam.ram = .value [(5, 7)] ∧ State.reset.place 5 = .ram ∧
    sourceOnly.ram = .absent ∧ State.reset.cfg.resetVector.getLsbD 0 = false :=
  ⟨rfl, rfl, rfl, by decide, rfl, by decide, rfl, by decide⟩

theorem witness_PowerOnFollowsResetState :
    defaultPowerOn.tblptr = .value 0 ∧ defaultPowerOn.toBit = .value true ∧ defaultPowerOn.stack = .value [] ∧
    ([] : List PAddr).length ≤ defaultParams.stackDepth ∧ withRam.ram = .value [(5, 7)] ∧
    Params.place defaultParams 5 = .ram ∧ defaultParams.resetVector.getLsbD 0 = false :=
  ⟨rfl, rfl, rfl, by decide, rfl, by decide, by decide⟩

theorem witness_MclrReset :
    (asserting (enabled .sleeping 2) { EnvInput.quiet with mclr := true, intHigh := true }).cfg.xinst = false ∧
    (asserting (enabled .sleeping 2) { EnvInput.quiet with mclr := true, intHigh := true }).boundary.mclr = true ∧
    State.reset.cfg.resetState = defaultResetState := ⟨rfl, rfl, rfl⟩

theorem witness_WatchdogOverflow : ∀ m : Mode,
    let s := asserting { enabled m 2 with cfg := wdtOn } { EnvInput.quiet with wdtOverflow := true, wdtTicks := 1 }
    s.cfg.xinst = false ∧ s.boundary.mclr = false ∧ wdtActs s ∧ s.mode = m :=
  fun _ => ⟨rfl, rfl, ⟨rfl, rfl, .inl Nat.one_pos⟩, rfl⟩

theorem witness_SleepAndWakeUp :
    (let s : State := { State.reset with mode := .sleeping }
     s.cfg.xinst = false ∧ noResetEvent s ∧ s.boundary.intHigh = false ∧ s.boundary.intLow = false) ∧
    (let s := asserting { State.reset with mode := .sleeping } { EnvInput.quiet with intHigh := true, intLow := true }
     s.mode = .sleeping ∧ noResetEvent s ∧ s.boundary.intHigh = true ∧ s.gieh = false ∧ ¬ (s.gieh = true ∧ s.giel = true)) ∧
    (∃ t, step (holding [0x0003]) = .next t ∧ (holding [0x0003]).mode = .running ∧ t.mode = .sleeping) := by
  refine ⟨⟨rfl, noResetEvent_of ⟨rfl, rfl⟩, rfl, rfl⟩, ⟨rfl, noResetEvent_of ⟨rfl, rfl⟩, rfl, rfl, by decide⟩, _, rfl, rfl, rfl⟩

theorem witness_ReturnUndoesCall :
    State.reset.pc.getLsbD 0 = false ∧ ∃ t, exec (.call 0x100 true) State.reset = .next t ∧ t.stack = [4] := by
  exact ⟨by decide, _, rfl, rfl⟩

theorem witness_RetfieUndoesInterruptEntry : ∀ level : Level,
    (enabled .running 0).pc.getLsbD 0 = false ∧ (enabled .running 0).gated level = true ∧
    ∃ t, (enabled .running 0).interruptEntry level = .next t ∧ t.cfg.retfiePolicy = .restoreCleared := by
  intro level
  cases level <;> exact ⟨by decide, by decide, _, rfl, rfl⟩

end Witnesses

end Sys2Proof.Tests
end

section
/-! PROOFS of the family 20_memory.md: the effective address of a byte- or bit-oriented operand (R62). -/

namespace Sys2Proof.Machine

/-- A bank before an offset, in integers. -/
theorem bank_append_toNat (b : Bank) (f : Byte) : (b ++ f : DAddr).toNat = 256 * b.toNat + f.toNat := by
  calc (b ++ f : DAddr).toNat
      = b.toNat <<< 8 ||| f.toNat := BitVec.toNat_append b f
    _ = b.toNat <<< 8 + f.toNat := (Nat.shiftLeft_add_eq_or_of_lt f.isLt _).symm
    _ = 256 * b.toNat + f.toNat := by rw [Nat.shiftLeft_eq, Nat.mul_comm]

/-- R62 with `a = 1`: the bank is BSR. -/
theorem ea_banked (s : State) (f : Byte) : s.ea f .banked = s.bsr ++ f := rfl

/-- R62 with `a = 0` below ACCESS_SPLIT: bank 0. -/
theorem ea_access_low {s : State} {f : Byte} (h : f.toNat < s.cfg.accessSplit.toNat) : s.ea f .access = 0#4 ++ f :=
  if_pos h

/-- R62 with `a = 0` from ACCESS_SPLIT on: the bank of the registers. -/
theorem ea_access_high {s : State} {f : Byte} (h : s.cfg.accessSplit.toNat ≤ f.toNat) :
    s.ea f .access = s.cfg.accessSfrBank ++ f :=
  if_neg (Nat.not_lt.mpr h)

/-- Settles O10: each of R62's three cases names a bank, and the address is that bank's number before `f`. -/
theorem effectiveAddress : Obligations.EffectiveAddress := by
  intro s f
  refine ⟨?banked, fun hlow => ?low, fun hhigh => ?high⟩
  case banked => rw [ea_banked, bank_append_toNat]
  case low => simp [ea_access_low hlow, bank_append_toNat]
  case high => rw [ea_access_high hhigh, bank_append_toNat]

end Sys2Proof.Machine
end

section
/-! PROOFS of the family 41_byte_oriented.md: the two multiplications (R143, R227). -/

namespace Sys2Proof.Machine

open Sys2Proof.Claims

/-! ### Decoding -/

/-- A first word that holds a whole instruction is read as that instruction, whatever follows it. -/
theorem reads_of_decodeFirst {hi lo : Byte} {i : Instr} (h : decodeFirst hi lo = .whole i) : reads [lo, hi] i := by
  intro rest
  simp only [List.cons_append, List.nil_append, decode, h]

/-- R96's rows 2 and 3, which the `a` bit tells apart, are `mulwf`. -/
theorem decodeFirst_mulwf (f : Byte) (a : Acc) : decodeFirst (0b0000001#7 ++ a.bit) f = .whole (.mulwf f a) := by
  cases a with
  | access => rfl
  | banked => rfl

/-- R96's row 13 is `mullw`. -/
theorem decodeFirst_mullw (k : Byte) : decodeFirst 0b00001101#8 k = .whole (.mullw k) := rfl

/-! ### The product -/

/-- The product of two bytes fits its 16 bits. -/
theorem mul8_toNat (x y : Byte) : (mul8 x y).toNat = x.toNat * y.toNat := by
  have hfits : x.toNat * y.toNat < 2 ^ 8 * 2 ^ 8 := Nat.mul_lt_mul'' x.isLt y.isLt
  rw [mul8, BitVec.toNat_ofNat]
  exact Nat.mod_eq_of_lt hfits

/-- A 16-bit value is 256 times its high byte and its low byte. -/
theorem high_low_toNat (p : BitVec 16) : 256 * (p.extractLsb' 8 8).toNat + (p.extractLsb' 0 8).toNat = p.toNat := by
  have hp : p.toNat < 2 ^ 16 := p.isLt
  simp only [BitVec.extractLsb'_toNat, Nat.shiftRight_eq_div_pow]
  omega

/-- What the multiplications leave in PRODH and PRODL is the unsigned product. -/
theorem prod_toNat (x y : Byte) :
    256 * ((mul8 x y).extractLsb' 8 8).toNat + ((mul8 x y).extractLsb' 0 8).toNat = x.toNat * y.toNat := by
  rw [high_low_toNat, mul8_toNat]

/-! ### The instructions -/

/-- Where the operand can be read, `mulwf` reads it, moves on and sets the product: nothing else changes. -/
theorem execMulwf_accessible {s : State} {f : Byte} {a : Acc} (h : s.Accessible .read .whole (s.ea f a)) :
    execMulwf f a s = .next ((tested s f a 2).setProd ((mul8 s.w (operand s f a)).extractLsb' 8 8)
      ((mul8 s.w (operand s f a)).extractLsb' 0 8)) := by
  simp only [execMulwf, memRead_accessible h, andThen_next_left, tested, operand]

/-- Settles O27: PRODH and PRODL are the two bytes of a product that fits 16 bits, and setting them is all that the
multiplications do besides reading the operand and moving on. -/
theorem multiplyInstructions : Obligations.MultiplyInstructions := by
  refine ⟨?mulwfReads, ?mullwReads, ?mulwf, ?mullw⟩
  case mulwfReads => exact fun f a => reads_of_decodeFirst (decodeFirst_mulwf f a)
  case mullwReads => exact fun k => reads_of_decodeFirst (decodeFirst_mullw k)
  case mulwf =>
    intro s f a hread
    exact ⟨_, _, prod_toNat s.w (operand s f a), by rw [exec_mulwf, execMulwf_accessible hread]; rfl⟩
  case mullw =>
    intro s k
    exact ⟨_, _, prod_toNat s.w k, by rw [exec_mullw]; rfl⟩

end Sys2Proof.Machine
end

section
/-! PROOFS of the family 43_control.md: the instructions that clear the watchdog (R191, R205). -/

namespace Sys2Proof.Machine

open Sys2Proof.Claims

/-! ### Decoding -/

/-- R98: a word whose high byte is 0 is named by its low byte. -/
theorem decodeFirst_zero_high (lo : Byte) : decodeFirst 0x00#8 lo = decodeSystem lo := rfl

/-- A word of R98's rows is read as its row's instruction, whatever follows it. -/
theorem reads_of_decodeSystem {lo : Byte} {i : Instr} (h : decodeSystem lo = .whole i) : reads [lo, 0x00#8] i :=
  reads_of_decodeFirst ((decodeFirst_zero_high lo).trans h)

/-! ### The instructions -/

/-- What `clrwdt` and `sleep` share: PC moves on, the watchdog and its postscaler are cleared, TO and PD are set. -/
theorem advance_setWdt_setToPd (s : State) (pd : Bool) :
    ((s.advance 2).setWdt 0 0).setToPd true pd =
      { s with wdt := 0, wdtPost := 0, toBit := true, pdBit := pd, pc := s.pc + 2 } := rfl

/-- Settles O37: the two leave the same state but for PD, and `sleep` then sets the power state. -/
theorem watchdogAndSleepInstructions : Obligations.WatchdogAndSleepInstructions := by
  refine ⟨?clrwdtReads, ?sleepReads, fun s => ⟨?clrwdt, ?sleep⟩⟩
  case clrwdtReads => exact reads_of_decodeSystem rfl
  case sleepReads => exact reads_of_decodeSystem rfl
  case clrwdt => rw [exec_clrwdt, execClrwdt, advance_setWdt_setToPd]
  case sleep => rw [exec_sleep, execSleep, advance_setWdt_setToPd, State.setMode]

end Sys2Proof.Machine
end

section
/-! PROOFS of the family 44_literal.md: the bitwise literal instructions (R222, R223, R230) and `movlw` (R226). -/

namespace Sys2Proof.Machine

open Sys2Proof.Claims

/-! ### Decoding -/

/-- A high byte that names an instruction of a literal is read as it with every low byte as the literal. -/
theorem readsLow_of_decodeFirst {op : Byte} {i : Byte → Instr} (h : ∀ k, decodeFirst op k = .whole (i k)) :
    readsLow op i :=
  fun k => reads_of_decodeFirst (h k)

/-- R96's row 11 is `andlw`. -/
theorem decodeFirst_andlw (k : Byte) : decodeFirst 0b00001011#8 k = .whole (.andlw k) := rfl

/-- R96's row 9 is `iorlw`. -/
theorem decodeFirst_iorlw (k : Byte) : decodeFirst 0b00001001#8 k = .whole (.iorlw k) := rfl

/-- R96's row 10 is `xorlw`. -/
theorem decodeFirst_xorlw (k : Byte) : decodeFirst 0b00001010#8 k = .whole (.xorlw k) := rfl

/-- R96's row 14 is `movlw`. -/
theorem decodeFirst_movlw (k : Byte) : decodeFirst 0b00001110#8 k = .whole (.movlw k) := rfl

/-! ### The flags and the next state -/

/-- R29: `withZN` writes Z and N, whose bit 7 says in integers that the result is 128 or more, and keeps C, DC and OV. -/
theorem znOf_withZN (fl : Flags) (r : Byte) : ZnOf fl r (fl.withZN r) := by
  have hz : (fl.withZN r).z = true ↔ r = 0 := beq_iff_eq
  have hn : (fl.withZN r).n = true ↔ 128 ≤ r.toNat := by
    rw [Flags.withZN, BitVec.msb_eq_decide, decide_eq_true_iff]
  exact ⟨hz, hn, rfl, rfl, rfl⟩

/-- What the literal instructions with a result share: W and the flags are set, PC moves on, nothing else changes. -/
theorem literalOp_eq_next (s : State) (r : Byte) (fl : Flags) :
    s.literalOp r fl = .next { s with w := r, flags := fl, pc := s.pc + 2 } := rfl

/-- Settles O41: each bitwise result is given bit by bit by its operator, its flags are `withZN` of it, and all four go
through the one literal operation, `movlw` with the flags as they were. -/
theorem literalLogic : Obligations.LiteralLogic := by
  refine ⟨?andlwReads, ?iorlwReads, ?xorlwReads, ?movlwReads, fun s k => ⟨?andlw, ?iorlw, ?xorlw, ?movlw⟩⟩
  case andlwReads => exact readsLow_of_decodeFirst decodeFirst_andlw
  case iorlwReads => exact readsLow_of_decodeFirst decodeFirst_iorlw
  case xorlwReads => exact readsLow_of_decodeFirst decodeFirst_xorlw
  case movlwReads => exact readsLow_of_decodeFirst decodeFirst_movlw
  case andlw =>
    exact ⟨s.w &&& k, _, fun _ _ => BitVec.getLsbD_and, znOf_withZN s.flags _,
      by rw [exec_andlw, execAndlw, literalOp_eq_next]⟩
  case iorlw =>
    exact ⟨s.w ||| k, _, fun _ _ => BitVec.getLsbD_or, znOf_withZN s.flags _,
      by rw [exec_iorlw, execIorlw, literalOp_eq_next]⟩
  case xorlw =>
    exact ⟨s.w ^^^ k, _, fun _ _ => BitVec.getLsbD_xor, znOf_withZN s.flags _,
      by rw [exec_xorlw, execXorlw, literalOp_eq_next]⟩
  case movlw => rw [exec_movlw, execMovlw, literalOp_eq_next]

end Sys2Proof.Machine
end

section
/-! PROOFS about the encoding (30_encoding.md): bit ranges of words, what the decoder makes of an encoding and of any
bytes, and the table of R101. -/

namespace Sys2Proof

open Sys2Proof.Machine Sys2Proof.Claims

/-! ### Bit ranges -/

/-- A bit range of a bit range. -/
theorem extractLsb'_extractLsb'_of_le {w a l b m : Nat} (x : BitVec w) (h : b + m ≤ l) :
    (x.extractLsb' a l).extractLsb' b m = x.extractLsb' (a + b) m := by
  apply BitVec.eq_of_getLsbD_eq
  intro i hi
  have hl : b + i < l := by omega
  simp [hi, hl, Nat.add_assoc]

/-- A bit vector is a concatenation when its upper and lower ranges are the two parts. -/
theorem eq_append_iff {m n : Nat} (x : BitVec (m + n)) (u : BitVec m) (v : BitVec n) :
    x = u ++ v ↔ x.extractLsb' n m = u ∧ x.extractLsb' 0 n = v := by
  constructor
  · rintro rfl
    exact ⟨BitVec.extractLsb'_append_eq_left, BitVec.extractLsb'_append_eq_right⟩
  · rintro ⟨rfl, rfl⟩
    rw [BitVec.extractLsb'_append_extractLsb'_eq_extractLsb' (Nat.zero_add n).symm]
    exact BitVec.extractLsb'_eq_self.symm

/-- A word masked down to its upper bits has a value exactly when those bits have. -/
theorem and_upper_eq_iff {m n : Nat} (x : BitVec (m + n)) (u : BitVec m) :
    x &&& (BitVec.allOnes m ++ 0#n) = u ++ 0#n ↔ x.extractLsb' n m = u := by
  have hx : x = x.extractLsb' n m ++ x.extractLsb' 0 n := (eq_append_iff x _ _).mpr ⟨rfl, rfl⟩
  conv => lhs; rw [hx]
  rw [BitVec.and_append]
  simp [BitVec.append_left_inj]

/-- A bit range, in integers. -/
theorem toNat_range {w : Nat} (x : BitVec w) (s l : Nat) : (x.extractLsb' s l).toNat = x.toNat / 2 ^ s % 2 ^ l := by
  rw [BitVec.extractLsb'_toNat, Nat.shiftRight_eq_div_pow]

/-- An operand is its two ranges put together again. -/
theorem range_append {m n : Nat} (x : BitVec (m + n)) : x.extractLsb' n m ++ x.extractLsb' 0 n = x :=
  ((eq_append_iff x _ _).mpr ⟨rfl, rfl⟩).symm

/-- A 20-bit operand is its three ranges put together again. -/
theorem range_append_three (k : BitVec 20) : k.extractLsb' 16 4 ++ k.extractLsb' 8 8 ++ k.extractLsb' 0 8 = k := by
  have hupper : k.extractLsb' 16 4 ++ k.extractLsb' 8 8 = k.extractLsb' 8 12 :=
    BitVec.extractLsb'_append_extractLsb'_eq_extractLsb' rfl
  rw [hupper]
  exact range_append (m := 12) (n := 8) k

/-- Bank bits tell bank selections apart. -/
theorem acc_bit_inj {a b : Acc} : a.bit = b.bit ↔ a = b := by
  cases a <;> cases b <;> simp [Acc.bit]

/-- `d` is bit 1 of a high byte (R92). -/
theorem bit_dField (hi : Byte) : (dField hi).bit = hi.extractLsb' 1 1 := by
  revert hi; decide

/-- `a` is bit 0 of a high byte (R92). -/
theorem bit_aField (hi : Byte) : (aField hi).bit = hi.extractLsb' 0 1 := by
  revert hi; decide

/-! ### Decoding what was encoded -/

/-- A first word of two is completed by the second. -/
theorem decode_half {hi lo : Byte} {h : Half} (hf : decodeFirst hi lo = .half h) (lo2 hi2 : Byte) (rest : List Byte) :
    decode (lo :: hi :: lo2 :: hi2 :: rest) = decodeSecond h hi2 lo2 := by
  simp only [decode, hf]

/-- The opcode of a byte written as a nibble and what follows it. -/
theorem nibble_toNat (u v : BitVec 4) : ((u ++ v).extractLsb' 4 4).toNat = u.toNat :=
  congrArg BitVec.toNat BitVec.extractLsb'_append_eq_left

/-- The lower nibble of a byte written as two nibbles. -/
theorem lower_nibble (u v : BitVec 4) : (u ++ v).extractLsb' 0 4 = v := BitVec.extractLsb'_append_eq_right

/-- The three parts of a bit instruction's high byte (format BIT of R91). -/
theorem high_bit_fields (op : BitVec 4) (b : BitVec 3) (a : Acc) :
    ((op ++ b ++ a.bit).extractLsb' 4 4).toNat = op.toNat ∧ bField (op ++ b ++ a.bit) = b ∧
      aField (op ++ b ++ a.bit) = a := by
  refine ⟨congrArg BitVec.toNat ?_, ?_, acc_bit_inj.mp ?_⟩
  · rw [BitVec.extractLsb'_append_eq_of_le (by decide), BitVec.extractLsb'_append_eq_left]
  · rw [bField, BitVec.extractLsb'_append_eq_of_le (by decide), BitVec.extractLsb'_append_eq_right]
  · rw [bit_aField]
    exact BitVec.extractLsb'_append_eq_right

/-- The three parts of the high byte of `bra` and `rcall`. -/
theorem high_branch_fields (c : BitVec 1) (n : BitVec 3) :
    ((0b1101#4 ++ c ++ n).extractLsb' 4 4).toNat = 13 ∧ (0b1101#4 ++ c ++ n).extractLsb' 0 3 = n ∧
      (0b1101#4 ++ c ++ n).getLsbD 3 = c.getLsbD 0 := by
  refine ⟨?_, BitVec.extractLsb'_append_eq_right, ?_⟩
  · rw [BitVec.extractLsb'_append_eq_of_le (by decide), BitVec.extractLsb'_append_eq_left]
    rfl
  · rw [BitVec.getLsbD_append, BitVec.getLsbD_append]
    rfl

/-- R95, row 7. -/
theorem decodeFirst_btg (f : Byte) (b : BitVec 3) (a : Acc) :
    decodeFirst (0b0111#4 ++ b ++ a.bit) f = .whole (.btg f b a) := by
  obtain ⟨hop, hb, ha⟩ := high_bit_fields 0b0111#4 b a
  simp only [decodeFirst, hop, hb, ha, BitVec.reduceToNat]

/-- R95, row 8. -/
theorem decodeFirst_bsf (f : Byte) (b : BitVec 3) (a : Acc) :
    decodeFirst (0b1000#4 ++ b ++ a.bit) f = .whole (.bsf f b a) := by
  obtain ⟨hop, hb, ha⟩ := high_bit_fields 0b1000#4 b a
  simp only [decodeFirst, hop, hb, ha, BitVec.reduceToNat]

/-- R95, row 9. -/
theorem decodeFirst_bcf (f : Byte) (b : BitVec 3) (a : Acc) :
    decodeFirst (0b1001#4 ++ b ++ a.bit) f = .whole (.bcf f b a) := by
  obtain ⟨hop, hb, ha⟩ := high_bit_fields 0b1001#4 b a
  simp only [decodeFirst, hop, hb, ha, BitVec.reduceToNat]

/-- R95, row 10. -/
theorem decodeFirst_btfss (f : Byte) (b : BitVec 3) (a : Acc) :
    decodeFirst (0b1010#4 ++ b ++ a.bit) f = .whole (.btfss f b a) := by
  obtain ⟨hop, hb, ha⟩ := high_bit_fields 0b1010#4 b a
  simp only [decodeFirst, hop, hb, ha, BitVec.reduceToNat]

/-- R95, row 11. -/
theorem decodeFirst_btfsc (f : Byte) (b : BitVec 3) (a : Acc) :
    decodeFirst (0b1011#4 ++ b ++ a.bit) f = .whole (.btfsc f b a) := by
  obtain ⟨hop, hb, ha⟩ := high_bit_fields 0b1011#4 b a
  simp only [decodeFirst, hop, hb, ha, BitVec.reduceToNat]

/-- R95, row 12. -/
theorem decodeFirst_movff (x : BitVec 4) (lo : Byte) : decodeFirst (0b1100#4 ++ x) lo = .half (.movff x lo) := by
  simp only [decodeFirst, nibble_toNat, lower_nibble, BitVec.reduceToNat]

/-- R95, row 13 with bit 11 clear. -/
theorem decodeFirst_bra (n : BitVec 3) (lo : Byte) : decodeFirst (0b11010#5 ++ n) lo = .whole (.bra (n ++ lo)) := by
  obtain ⟨hop, hn, hc⟩ := high_branch_fields 0#1 n
  change decodeFirst (0b1101#4 ++ 0#1 ++ n) lo = _
  simp only [decodeFirst, hop, hn, hc]
  rfl

/-- R95, row 13 with bit 11 set. -/
theorem decodeFirst_rcall (n : BitVec 3) (lo : Byte) : decodeFirst (0b11011#5 ++ n) lo = .whole (.rcall (n ++ lo)) := by
  obtain ⟨hop, hn, hc⟩ := high_branch_fields 1#1 n
  change decodeFirst (0b1101#4 ++ 1#1 ++ n) lo = _
  simp only [decodeFirst, hop, hn, hc]
  rfl

/-- R95, row 15. -/
theorem decodeFirst_nopx (x : BitVec 4) (lo : Byte) : decodeFirst (0b1111#4 ++ x) lo = .whole (.nopx (x ++ lo)) := by
  simp only [decodeFirst, nibble_toNat, lower_nibble, BitVec.reduceToNat]

/-- R97, rows 12 and 13. -/
theorem decodeFirst_call (s : Bool) (lo : Byte) :
    decodeFirst (0b1110110#7 ++ BitVec.ofBool s) lo = .half (.call s lo) := by
  cases s <;> rfl

/-- R97, row 15. -/
theorem decodeFirst_goto (lo : Byte) : decodeFirst 0b11101111#8 lo = .half (.goto lo) := rfl

/-- R97, row 14. -/
theorem decodeFirst_lfsr (f : BitVec 2) (k : BitVec 4) :
    decodeFirst 0b11101110#8 (0b00#2 ++ f ++ k) = .half (.lfsr f k) := by
  revert f k; decide

/-- R96, row 1. -/
theorem decodeFirst_movlb (k : Bank) : decodeFirst 0b00000001#8 (0b0000#4 ++ k) = .whole (.movlb k) := by
  revert k; decide

/-- A second word that begins 1111 completes `movff`. -/
theorem decodeSecond_movff (h : BitVec 4) (l : Byte) (x : BitVec 4) (lo : Byte) :
    decodeSecond (.movff h l) (0b1111#4 ++ x) lo = .ok (.movff (h ++ l) (x ++ lo)) := by
  have hx : (0b1111#4 ++ x).extractLsb' 4 4 = 0b1111#4 := BitVec.extractLsb'_append_eq_left
  simp only [decodeSecond, hx, lower_nibble, if_true]

/-- A second word that begins 1111 completes `call`. -/
theorem decodeSecond_call (s : Bool) (l : Byte) (x : BitVec 4) (lo : Byte) :
    decodeSecond (.call s l) (0b1111#4 ++ x) lo = .ok (.call (x ++ lo ++ l) s) := by
  have hx : (0b1111#4 ++ x).extractLsb' 4 4 = 0b1111#4 := BitVec.extractLsb'_append_eq_left
  simp only [decodeSecond, hx, lower_nibble, if_true]

/-- A second word that begins 1111 completes `goto`. -/
theorem decodeSecond_goto (l : Byte) (x : BitVec 4) (lo : Byte) :
    decodeSecond (.goto l) (0b1111#4 ++ x) lo = .ok (.goto (x ++ lo ++ l)) := by
  have hx : (0b1111#4 ++ x).extractLsb' 4 4 = 0b1111#4 := BitVec.extractLsb'_append_eq_left
  simp only [decodeSecond, hx, lower_nibble, if_true]

/-- A second word that begins 1111 0000 completes `lfsr`, but for f = 3. -/
theorem decodeSecond_lfsr {f : BitVec 2} (hf : f ≠ 3) (k : BitVec 4) (lo : Byte) :
    decodeSecond (.lfsr f k) 0b11110000#8 lo = .ok (.lfsr f (k ++ lo)) := if_neg hf

/-- Settles O1, by the format of the constructor: a high byte without free bits, or with `d` and `a` alone, evaluates at
each of their values; the others are read by the lemmas above. -/
theorem decodeEncode : Obligations.DecodeEncode
  | .addwf _ d a, _, _ | .addwfc _ d a, _, _ | .andwf _ d a, _, _ | .comf _ d a, _, _ | .decf _ d a, _, _
  | .decfsz _ d a, _, _ | .dcfsnz _ d a, _, _ | .incf _ d a, _, _ | .incfsz _ d a, _, _ | .infsnz _ d a, _, _
  | .iorwf _ d a, _, _ | .movf _ d a, _, _ | .rlcf _ d a, _, _ | .rlncf _ d a, _, _ | .rrcf _ d a, _, _
  | .rrncf _ d a, _, _ | .subfwb _ d a, _, _ | .subwf _ d a, _, _ | .subwfb _ d a, _, _ | .swapf _ d a, _, _
  | .xorwf _ d a, _, _ => by cases d <;> cases a <;> rfl
  | .clrf _ a, _, _ | .cpfseq _ a, _, _ | .cpfsgt _ a, _, _ | .cpfslt _ a, _, _ | .movwf _ a, _, _ | .mulwf _ a, _, _
  | .negf _ a, _, _ | .setf _ a, _, _ | .tstfsz _ a, _, _ => by cases a <;> rfl
  | .bcf f b a, rest, _ => reads_of_decodeFirst (decodeFirst_bcf f b a) rest
  | .bsf f b a, rest, _ => reads_of_decodeFirst (decodeFirst_bsf f b a) rest
  | .btfsc f b a, rest, _ => reads_of_decodeFirst (decodeFirst_btfsc f b a) rest
  | .btfss f b a, rest, _ => reads_of_decodeFirst (decodeFirst_btfss f b a) rest
  | .btg f b a, rest, _ => reads_of_decodeFirst (decodeFirst_btg f b a) rest
  | .bc _, _, _ | .bn _, _, _ | .bnc _, _, _ | .bnn _, _, _ | .bnov _, _, _ | .bnz _, _, _ | .bov _, _, _ | .bz _, _, _
  | .retlw _, _, _ | .addlw _, _, _ | .andlw _, _, _ | .iorlw _, _, _ | .movlw _, _, _ | .mullw _, _, _ | .sublw _, _, _
  | .xorlw _, _, _ | .clrwdt, _, _ | .daw, _, _ | .nop, _, _ | .pop, _, _ | .push, _, _ | .reset, _, _ | .sleep, _, _
  | .tblrd, _, _ | .tblrdPostInc, _, _ | .tblrdPostDec, _, _ | .tblrdPreInc, _, _ | .tblwt, _, _ | .tblwtPostInc, _, _
  | .tblwtPostDec, _, _ | .tblwtPreInc, _, _ => rfl
  | .retfie s, _, _ | .ret s, _, _ => by cases s <;> rfl
  | .movlb k, rest, _ => reads_of_decodeFirst (decodeFirst_movlb k) rest
  | .bra n, rest, _ => (reads_of_decodeFirst (decodeFirst_bra _ _) rest).trans (by rw [range_append (m := 3) (n := 8) n])
  | .rcall n, rest, _ => (reads_of_decodeFirst (decodeFirst_rcall _ _) rest).trans (by rw [range_append (m := 3) (n := 8) n])
  | .nopx x, rest, _ => (reads_of_decodeFirst (decodeFirst_nopx _ _) rest).trans (by rw [range_append (m := 4) (n := 8) x])
  | .movff fs fd, rest, _ => by
    have h := decode_half (decodeFirst_movff (fs.extractLsb' 8 4) (fs.extractLsb' 0 8)) (fd.extractLsb' 0 8)
      (0b1111#4 ++ fd.extractLsb' 8 4) rest
    rwa [decodeSecond_movff, range_append (m := 4) (n := 8) fs, range_append (m := 4) (n := 8) fd] at h
  | .call k s, rest, _ => by
    have h := decode_half (decodeFirst_call s (k.extractLsb' 0 8)) (k.extractLsb' 8 8) (0b1111#4 ++ k.extractLsb' 16 4) rest
    rwa [decodeSecond_call, range_append_three] at h
  | .goto k, rest, _ => by
    have h := decode_half (decodeFirst_goto (k.extractLsb' 0 8)) (k.extractLsb' 8 8) (0b1111#4 ++ k.extractLsb' 16 4) rest
    rwa [decodeSecond_goto, range_append_three] at h
  | .lfsr f k, rest, hf => by
    have h := decode_half (decodeFirst_lfsr f (k.extractLsb' 8 4)) (k.extractLsb' 0 8) 0b11110000#8 rest
    rwa [decodeSecond_lfsr (bne_iff_ne.mp hf), range_append (m := 4) (n := 8) k] at h

/-! ### What the decoder accepts is what the encoder writes -/

/-- The first word of a two-word instruction, in bytes. -/
def Half.bytes : Half → List Byte
  | .movff fsHigh fsLow => [fsLow, 0b1100#4 ++ fsHigh]
  | .call s kLow => [kLow, 0b1110110#7 ++ BitVec.ofBool s]
  | .goto kLow => [kLow, 0b11101111#8]
  | .lfsr f kHigh => [0b00#2 ++ f ++ kHigh, 0b11101110#8]

/-- The bytes of a first word are those of what the decoder says it is. -/
def First.Spells (hi lo : Byte) : First → Prop
  | .whole i => encode i = [lo, hi] ∧ i.wellFormed = true
  | .half h => h.bytes = [lo, hi]
  | .unassigned => True

/-- A row of a high byte's upper six bits (format BYTE_DA): its nibble `t` and its row `r`, then `d` and `a`. -/
theorem spells_da {hi lo : Byte} {mk : Byte → Dst → Acc → Instr} {t r : Nat} (ht : (hi.extractLsb' 4 4).toNat = t)
    (hr : (hi.extractLsb' 2 2).toNat = r)
    (he : ∀ f d a, encode (mk f d a) = [f, BitVec.ofNat 6 (4 * t + r) ++ d.bit ++ a.bit] ∧
      (mk f d a).wellFormed = true) :
    (First.whole (mk lo (dField hi) (aField hi))).Spells hi lo := by
  obtain ⟨henc, hwf⟩ := he lo (dField hi) (aField hi)
  have hop : BitVec.ofNat 6 (4 * t + r) = hi.extractLsb' 2 6 := by
    apply BitVec.eq_of_toNat_eq
    simp only [toNat_range, BitVec.toNat_ofNat] at *
    omega
  have hd : hi.extractLsb' 2 6 ++ hi.extractLsb' 1 1 = hi.extractLsb' 1 7 :=
    BitVec.extractLsb'_append_extractLsb'_eq_extractLsb' rfl
  rw [bit_dField, bit_aField, hop, hd, range_append (m := 7) (n := 1) hi] at henc
  exact ⟨henc, hwf⟩

/-- A row of a high byte's upper seven bits (format BYTE_A): its nibble `t` and its row `r`, then `a`. -/
theorem spells_a {hi lo : Byte} {mk : Byte → Acc → Instr} {t r : Nat} (ht : (hi.extractLsb' 4 4).toNat = t)
    (hr : (hi.extractLsb' 1 3).toNat = r)
    (he : ∀ f a, encode (mk f a) = [f, BitVec.ofNat 7 (8 * t + r) ++ a.bit] ∧ (mk f a).wellFormed = true) :
    (First.whole (mk lo (aField hi))).Spells hi lo := by
  obtain ⟨henc, hwf⟩ := he lo (aField hi)
  have hop : BitVec.ofNat 7 (8 * t + r) = hi.extractLsb' 1 7 := by
    apply BitVec.eq_of_toNat_eq
    simp only [toNat_range, BitVec.toNat_ofNat] at *
    omega
  rw [bit_aField, hop, range_append (m := 7) (n := 1) hi] at henc
  exact ⟨henc, hwf⟩

/-- A nibble that names a bit instruction (format BIT). -/
theorem spells_bit {hi lo : Byte} {mk : Byte → BitVec 3 → Acc → Instr} {t : Nat} (ht : (hi.extractLsb' 4 4).toNat = t)
    (he : ∀ f b a, encode (mk f b a) = [f, BitVec.ofNat 4 t ++ b ++ a.bit] ∧ (mk f b a).wellFormed = true) :
    (First.whole (mk lo (bField hi) (aField hi))).Spells hi lo := by
  obtain ⟨henc, hwf⟩ := he lo (bField hi) (aField hi)
  have hop : BitVec.ofNat 4 t = hi.extractLsb' 4 4 := by rw [← ht, BitVec.ofNat_toNat, BitVec.setWidth_eq]
  have hb : hi.extractLsb' 4 4 ++ hi.extractLsb' 1 3 = hi.extractLsb' 1 7 :=
    BitVec.extractLsb'_append_extractLsb'_eq_extractLsb' rfl
  rw [bField, bit_aField, hop, hb, range_append (m := 7) (n := 1) hi] at henc
  exact ⟨henc, hwf⟩

/-- A high byte that names an instruction by itself (formats LIT8 and REL8). -/
theorem spells_low {hi lo : Byte} {i : Instr} {t r : Nat} (ht : (hi.extractLsb' 4 4).toNat = t)
    (hr : (hi.extractLsb' 0 4).toNat = r)
    (he : encode i = [lo, BitVec.ofNat 8 (16 * t + r)] ∧ i.wellFormed = true) : (First.whole i).Spells hi lo := by
  have hop : BitVec.ofNat 8 (16 * t + r) = hi := by
    apply BitVec.eq_of_toNat_eq
    simp only [toNat_range, BitVec.toNat_ofNat] at *
    omega
  rwa [hop] at he

/-- A word of R98, named by its low byte. -/
theorem spells_system {lo : Byte} {i : Instr} {n : Nat} (hlo : lo.toNat = n)
    (he : encode i = [BitVec.ofNat 8 n, 0x00#8] ∧ i.wellFormed = true) : (First.whole i).Spells 0x00#8 lo := by
  rw [← hlo, BitVec.ofNat_toNat, BitVec.setWidth_eq] at he
  exact he

/-- R98's words. -/
theorem decodeSystem_spells (lo : Byte) : (decodeSystem lo).Spells 0x00#8 lo := by
  unfold decodeSystem
  split
  case h_20 => trivial
  all_goals
    rename_i hlo
    exact spells_system hlo ⟨rfl, rfl⟩

/-- A byte whose nibbles are `t` and `r`. -/
theorem eq_of_nibbles {x : Byte} {t r : Nat} (ht : (x.extractLsb' 4 4).toNat = t) (hr : (x.extractLsb' 0 4).toNat = r) :
    x = BitVec.ofNat 8 (16 * t + r) := by
  apply BitVec.eq_of_toNat_eq
  simp only [toNat_range, BitVec.toNat_ofNat] at *
  omega

/-- A nibble put before the lower nibble it was taken from. -/
theorem nibble_append {x : Byte} {t : Nat} (ht : (x.extractLsb' 4 4).toNat = t) :
    BitVec.ofNat 4 t ++ x.extractLsb' 0 4 = x := by
  rw [← ht, BitVec.ofNat_toNat, BitVec.setWidth_eq]
  exact range_append (m := 4) (n := 4) x

/-- R96's words. -/
theorem decodeZero_spells {hi : Byte} (ht : (hi.extractLsb' 4 4).toNat = 0) (lo : Byte) : (decodeZero hi lo).Spells hi lo := by
  have hpair : (hi.extractLsb' 0 4).toNat = 2 * (hi.extractLsb' 1 3).toNat + (hi.extractLsb' 0 1).toNat := by
    simp only [toNat_range]
    omega
  have hquad : (hi.extractLsb' 0 4).toNat = 4 * (hi.extractLsb' 2 2).toNat + (hi.extractLsb' 0 2).toNat := by
    simp only [toNat_range]
    omega
  have hbit := (hi.extractLsb' 0 1).isLt
  have htwo := (hi.extractLsb' 0 2).isLt
  have hlt := (hi.extractLsb' 0 4).isLt
  unfold decodeZero
  split
  case h_1 hr =>
    rw [eq_of_nibbles ht hr]
    exact decodeSystem_spells lo
  case h_2 hr =>
    split
    case isTrue hlo =>
      have hk : 0b0000#4 ++ lo.extractLsb' 0 4 = lo := by
        rw [show 0b0000#4 = lo.extractLsb' 4 4 from hlo.symm, range_append (m := 4) (n := 4)]
      exact spells_low ht hr ⟨by rw [encode, hk], rfl⟩
    case isFalse => trivial
  case h_3 hr => exact spells_a ht (r := 1) (by omega) fun _ _ => ⟨rfl, rfl⟩
  case h_4 hr => exact spells_a ht (r := 1) (by omega) fun _ _ => ⟨rfl, rfl⟩
  case h_5 hr => exact spells_da ht (r := 1) (by omega) fun _ _ _ => ⟨rfl, rfl⟩
  case h_6 hr => exact spells_da ht (r := 1) (by omega) fun _ _ _ => ⟨rfl, rfl⟩
  case h_7 hr => exact spells_da ht (r := 1) (by omega) fun _ _ _ => ⟨rfl, rfl⟩
  case h_8 hr => exact spells_da ht (r := 1) (by omega) fun _ _ _ => ⟨rfl, rfl⟩
  case h_16 =>
    simp only [imp_false] at *
    exact spells_low ht (r := 15) (by omega) ⟨rfl, rfl⟩
  all_goals
    rename_i hr
    exact spells_low ht hr ⟨rfl, rfl⟩

/-- A byte is its upper seven bits and its last. -/
theorem spells_call {hi : Byte} {t r : Nat} {s : Bool} (ht : (hi.extractLsb' 4 4).toNat = t)
    (hr : (hi.extractLsb' 0 4).toNat = r) (hs : BitVec.ofNat 8 (16 * t + r) = 0b1110110#7 ++ BitVec.ofBool s) (lo : Byte) :
    (First.half (.call s lo)).Spells hi lo := by
  rw [First.Spells, Half.bytes, ← hs, ← eq_of_nibbles ht hr]

/-- R97's words. -/
theorem decodeBranch_spells {hi : Byte} (ht : (hi.extractLsb' 4 4).toNat = 14) (lo : Byte) :
    (decodeBranch hi lo).Spells hi lo := by
  have hlt := (hi.extractLsb' 0 4).isLt
  unfold decodeBranch
  split
  case h_9 | h_10 | h_11 | h_12 => trivial
  case h_13 hr => exact spells_call ht hr rfl lo
  case h_14 hr => exact spells_call ht hr rfl lo
  case h_15 hr =>
    split
    case isTrue hlo =>
      have hfields : lo.extractLsb' 6 2 ++ lo.extractLsb' 4 2 ++ lo.extractLsb' 0 4 = lo := by
        have hupper : lo.extractLsb' 6 2 ++ lo.extractLsb' 4 2 = lo.extractLsb' 4 4 :=
          BitVec.extractLsb'_append_extractLsb'_eq_extractLsb' rfl
        rw [hupper]
        exact range_append (m := 4) (n := 4) lo
      rw [hlo] at hfields
      rw [First.Spells, Half.bytes, eq_of_nibbles ht hr]
      exact congrArg (fun x => [x, 0b11101110#8]) hfields
    case isFalse => trivial
  case h_16 =>
    simp only [imp_false] at *
    rw [First.Spells, Half.bytes, eq_of_nibbles ht (r := 15) (by omega)]
  all_goals
    rename_i hr
    exact spells_low ht hr ⟨rfl, rfl⟩

/-- The high byte of `bra` and `rcall`: 1101, bit 11 of the word, the upper bits of the offset. -/
theorem high_branch {hi : Byte} (ht : (hi.extractLsb' 4 4).toNat = 13) {op : BitVec 5}
    (hop : op.toNat = 26 + (hi.getLsbD 3).toNat) : op ++ hi.extractLsb' 0 3 = hi := by
  have hbit : (hi.getLsbD 3).toNat = hi.toNat / 8 % 2 := by
    rw [BitVec.getLsbD, Nat.toNat_testBit]
  have hupper : op = hi.extractLsb' 3 5 := by
    apply BitVec.eq_of_toNat_eq
    simp only [toNat_range] at *
    omega
  rw [hupper]
  exact range_append (m := 5) (n := 3) hi

/-- R95's words. -/
theorem decodeFirst_spells (hi lo : Byte) : (decodeFirst hi lo).Spells hi lo := by
  have hrow := (hi.extractLsb' 2 2).isLt
  have hoct := (hi.extractLsb' 1 3).isLt
  unfold decodeFirst
  dsimp only
  split
  case h_1 ht => exact decodeZero_spells ht lo
  case h_2 ht | h_3 ht | h_4 ht | h_5 ht | h_6 ht =>
    split
    case h_4 =>
      simp only [imp_false] at *
      exact spells_da ht (r := 3) (by omega) fun _ _ _ => ⟨rfl, rfl⟩
    all_goals
      rename_i hr
      exact spells_da ht hr fun _ _ _ => ⟨rfl, rfl⟩
  case h_7 ht =>
    split
    case h_8 =>
      simp only [imp_false, bField] at *
      exact spells_a ht (r := 7) (by omega) fun _ _ => ⟨rfl, rfl⟩
    all_goals
      rename_i hr
      exact spells_a ht hr fun _ _ => ⟨rfl, rfl⟩
  case h_8 ht | h_9 ht | h_10 ht | h_11 ht | h_12 ht => exact spells_bit ht fun _ _ _ => ⟨rfl, rfl⟩
  case h_13 ht => rw [First.Spells, Half.bytes, nibble_append ht]
  case h_14 ht =>
    cases hc : hi.getLsbD 3
    · have hhi : 0b11010#5 ++ hi.extractLsb' 0 3 = hi := high_branch ht (by rw [hc]; rfl)
      simp only [First.Spells, encode, Bool.false_eq_true, if_false, BitVec.extractLsb'_append_eq_left,
        BitVec.extractLsb'_append_eq_right, hhi]
      exact ⟨trivial, rfl⟩
    · have hhi : 0b11011#5 ++ hi.extractLsb' 0 3 = hi := high_branch ht (by rw [hc]; rfl)
      simp only [First.Spells, encode, if_true, BitVec.extractLsb'_append_eq_left,
        BitVec.extractLsb'_append_eq_right, hhi]
      exact ⟨trivial, rfl⟩
  case h_15 ht => exact decodeBranch_spells ht lo
  case h_16 =>
    have hlt := (hi.extractLsb' 4 4).isLt
    simp only [imp_false] at *
    have hhi : 0b1111#4 ++ hi.extractLsb' 0 4 = hi := nibble_append (t := 15) (by omega)
    simp only [First.Spells, encode, BitVec.extractLsb'_append_eq_left, BitVec.extractLsb'_append_eq_right, hhi]
    exact ⟨trivial, rfl⟩

/-- The middle and the upper part of a 20-bit operand. -/
theorem ranges_of_three (x : BitVec 4) (y z : Byte) :
    (x ++ y ++ z).extractLsb' 8 8 = y ∧ (x ++ y ++ z).extractLsb' 16 4 = x := by
  constructor
  · rw [BitVec.extractLsb'_append_eq_of_le (by decide), BitVec.extractLsb'_append_eq_right]
  · rw [BitVec.extractLsb'_append_eq_of_le (by decide), BitVec.extractLsb'_append_eq_left]

/-- A two-word instruction's bytes are its first word's and then the second word's. -/
theorem encode_of_decodeSecond {h : Half} {hi lo : Byte} {i : Instr} (hd : decodeSecond h hi lo = .ok i) :
    encode i = h.bytes ++ [lo, hi] ∧ i.wellFormed = true := by
  unfold decodeSecond at hd
  split at hd
  case isFalse => cases hd
  case isTrue hup =>
    have hhi : 0b1111#4 ++ hi.extractLsb' 0 4 = hi := nibble_append (congrArg BitVec.toNat hup)
    cases h with
    | movff fsHigh fsLow =>
      cases hd
      simp only [encode, Half.bytes, BitVec.extractLsb'_append_eq_left, BitVec.extractLsb'_append_eq_right, hhi]
      exact ⟨rfl, rfl⟩
    | call s kLow =>
      cases hd
      obtain ⟨hmid, hupper⟩ := ranges_of_three (hi.extractLsb' 0 4) lo kLow
      simp only [encode, Half.bytes, BitVec.extractLsb'_append_eq_right, hmid, hupper, hhi]
      exact ⟨rfl, rfl⟩
    | goto kLow =>
      cases hd
      obtain ⟨hmid, hupper⟩ := ranges_of_three (hi.extractLsb' 0 4) lo kLow
      simp only [encode, Half.bytes, BitVec.extractLsb'_append_eq_right, hmid, hupper, hhi]
      exact ⟨rfl, rfl⟩
    | lfsr f kHigh =>
      dsimp only at hd
      split at hd
      case isFalse => cases hd
      case isTrue hlow =>
        split at hd
        case isTrue => cases hd
        case isFalse hf =>
          cases hd
          rw [hlow] at hhi
          simp only [encode, Half.bytes, BitVec.extractLsb'_append_eq_left, BitVec.extractLsb'_append_eq_right]
          exact ⟨congrArg (fun x => [_, 0b11101110#8, lo, x]) hhi, bne_iff_ne.mpr hf⟩

/-- Settles O2: each word of the bytes is what the decoder read it as. -/
theorem encodeDecode : Obligations.EncodeDecode := by
  intro bytes i hdec
  unfold decode at hdec
  split at hdec
  case h_2 => cases hdec
  case h_1 lo hi rest =>
    have hfirst := decodeFirst_spells hi lo
    split at hdec
    case h_1 j hj =>
      cases hdec
      rw [hj] at hfirst
      obtain ⟨henc, hwf⟩ := hfirst
      exact ⟨hwf, rest, by rw [henc]; rfl⟩
    case h_2 => cases hdec
    case h_3 h hh =>
      split at hdec
      case h_2 => cases hdec
      case h_1 lo2 hi2 rest2 =>
        rw [hh] at hfirst
        obtain ⟨henc, hwf⟩ := encode_of_decodeSecond hdec
        exact ⟨hwf, rest2, by rw [henc, show h.bytes = [lo, hi] from hfirst]; rfl⟩

/-- The decoder answers an instruction exactly where its encoding stands. -/
theorem decode_eq_ok_iff (bytes : List Byte) (i : Instr) :
    decode bytes = .ok i ↔ i.wellFormed = true ∧ ∃ rest, bytes = encode i ++ rest := by
  constructor
  · exact encodeDecode bytes i
  · rintro ⟨hwf, rest, rfl⟩
    exact decodeEncode i rest hwf

/-! ### The table of R101 -/

/-- A bit range is a concatenation when its upper and lower ranges are the two parts. -/
theorem range_eq_append_iff {w m n : Nat} (x : BitVec w) (s : Nat) (u : BitVec m) (v : BitVec n) :
    x.extractLsb' s (m + n) = u ++ v ↔ x.extractLsb' (s + n) m = u ∧ x.extractLsb' s n = v := by
  rw [eq_append_iff, extractLsb'_extractLsb'_of_le _ (by omega), extractLsb'_extractLsb'_of_le _ (by omega), Nat.add_zero]

/-- Format BYTE_DA: six opcode bits, `d`, `a`, `f`. -/
theorem word_da_iff (w : BitVec 16) (op : BitVec 6) (d : Dst) (a : Acc) (f : Byte) :
    w = (op ++ d.bit ++ a.bit) ++ f ↔
      w &&& (BitVec.allOnes 6 ++ 0#10) = op ++ 0#10 ∧
        f = w.extractLsb' 0 8 ∧ d.bit = w.extractLsb' 9 1 ∧ a.bit = w.extractLsb' 8 1 := by
  rw [and_upper_eq_iff (m := 6) (n := 10), eq_append_iff (m := 8) (n := 8), range_eq_append_iff (m := 7) (n := 1),
    range_eq_append_iff (m := 6) (n := 1)]
  constructor
  · rintro ⟨⟨⟨hop, hd⟩, ha⟩, hf⟩
    exact ⟨hop, hf.symm, hd.symm, ha.symm⟩
  · rintro ⟨hop, hf, hd, ha⟩
    exact ⟨⟨⟨hop, hd.symm⟩, ha.symm⟩, hf.symm⟩

/-- Format BYTE_A: seven opcode bits, `a`, `f`. The words of `call` are of this form too, with `s` for `a`. -/
theorem word_a_iff (w : BitVec 16) (op : BitVec 7) (a : BitVec 1) (f : Byte) :
    w = (op ++ a) ++ f ↔
      w &&& (BitVec.allOnes 7 ++ 0#9) = op ++ 0#9 ∧ f = w.extractLsb' 0 8 ∧ a = w.extractLsb' 8 1 := by
  rw [and_upper_eq_iff (m := 7) (n := 9), eq_append_iff (m := 8) (n := 8), range_eq_append_iff (m := 7) (n := 1)]
  constructor
  · rintro ⟨⟨hop, ha⟩, hf⟩
    exact ⟨hop, hf.symm, ha.symm⟩
  · rintro ⟨hop, hf, ha⟩
    exact ⟨⟨hop, ha.symm⟩, hf.symm⟩

/-- Format BIT: four opcode bits, `b`, `a`, `f`. -/
theorem word_bit_iff (w : BitVec 16) (op : BitVec 4) (b : BitVec 3) (a : Acc) (f : Byte) :
    w = (op ++ b ++ a.bit) ++ f ↔
      w &&& (BitVec.allOnes 4 ++ 0#12) = op ++ 0#12 ∧
        f = w.extractLsb' 0 8 ∧ b = w.extractLsb' 9 3 ∧ a.bit = w.extractLsb' 8 1 := by
  rw [and_upper_eq_iff (m := 4) (n := 12), eq_append_iff (m := 8) (n := 8), range_eq_append_iff (m := 7) (n := 1),
    range_eq_append_iff (m := 4) (n := 3)]
  constructor
  · rintro ⟨⟨⟨hop, hb⟩, ha⟩, hf⟩
    exact ⟨hop, hf.symm, hb.symm, ha.symm⟩
  · rintro ⟨hop, hf, hb, ha⟩
    exact ⟨⟨⟨hop, hb.symm⟩, ha.symm⟩, hf.symm⟩

/-- Opcode bits and one operand below them. -/
theorem word_operand_iff {m n : Nat} (w : BitVec (m + n)) (op : BitVec m) (k : BitVec n) :
    w = op ++ k ↔ w &&& (BitVec.allOnes m ++ 0#n) = op ++ 0#n ∧ k = w.extractLsb' 0 n := by
  rw [and_upper_eq_iff, eq_append_iff, eq_comm (b := k)]

/-- An operand split between the bytes of a word stands there whole. -/
theorem append_ranges {m n : Nat} (op : BitVec m) (x : BitVec (n + 8)) :
    (op ++ x.extractLsb' 8 n) ++ x.extractLsb' 0 8 = (op ++ x : BitVec (m + (n + 8))) := by
  refine BitVec.append_assoc.trans ?_
  rw [range_append]
  rfl

/-- A word without operands. -/
theorem word_fixed_iff (w v : BitVec 16) : w = v ↔ w &&& 0xFFFF#16 = v ∧ True := by
  rw [show (0xFFFF#16) = BitVec.allOnes 16 from rfl, BitVec.and_allOnes, and_true]

/-- The decoder and the row of a one-word instruction. -/
theorem decode_iff_of_word {i : Instr} {lo hi : Byte} {mask val : BitVec 16} {w1 : BitVec 16} (w2 : BitVec 16)
    (rest : List Byte) (henc : encode i = [lo, hi]) (hrow : rowOf i = ⟨val, mask, none⟩) (hwf : i.wellFormed = true)
    (hword : w1 = hi ++ lo ↔ w1 &&& mask = val ∧ fieldsOf w1 w2 i) :
    decode ([low w1, high w1, low w2, high w2] ++ rest) = .ok i ↔
      (w1 &&& (rowOf i).mask = (rowOf i).val ∧ (∀ v m, (rowOf i).second = some (v, m) → w2 &&& m = v) ∧
        fieldsOf w1 w2 i ∧ i.wellFormed = true) := by
  have hbytes : (∃ r, [low w1, high w1, low w2, high w2] ++ rest = [lo, hi] ++ r) ↔ w1 = hi ++ lo := by
    rw [eq_append_iff (m := 8) (n := 8)]
    constructor
    · rintro ⟨r, hr⟩
      simp only [List.cons_append, List.cons.injEq] at hr
      obtain ⟨hlo, hhi, -⟩ := hr
      exact ⟨hhi, hlo⟩
    · rintro ⟨hhi, hlo⟩
      exact ⟨[low w2, high w2] ++ rest, by rw [← hhi, ← hlo]; rfl⟩
  rw [decode_eq_ok_iff, henc, hbytes, hword, hrow]
  simp [hwf]

/-- The decoder and the row of a two-word instruction. -/
theorem decode_iff_of_words {i : Instr} {lo hi lo2 hi2 : Byte} {mask val mask2 val2 : BitVec 16} {w1 w2 : BitVec 16}
    (rest : List Byte) (henc : encode i = [lo, hi, lo2, hi2]) (hrow : rowOf i = ⟨val, mask, some (val2, mask2)⟩)
    (hwords : w1 = hi ++ lo ∧ w2 = hi2 ++ lo2 ↔ w1 &&& mask = val ∧ w2 &&& mask2 = val2 ∧ fieldsOf w1 w2 i) :
    decode ([low w1, high w1, low w2, high w2] ++ rest) = .ok i ↔
      (w1 &&& (rowOf i).mask = (rowOf i).val ∧ (∀ v m, (rowOf i).second = some (v, m) → w2 &&& m = v) ∧
        fieldsOf w1 w2 i ∧ i.wellFormed = true) := by
  have hbytes : (∃ r, [low w1, high w1, low w2, high w2] ++ rest = [lo, hi, lo2, hi2] ++ r) ↔
      w1 = hi ++ lo ∧ w2 = hi2 ++ lo2 := by
    rw [eq_append_iff (m := 8) (n := 8), eq_append_iff (m := 8) (n := 8)]
    constructor
    · rintro ⟨r, hr⟩
      simp only [List.cons_append, List.cons.injEq] at hr
      obtain ⟨hlo, hhi, hlo2, hhi2, -⟩ := hr
      exact ⟨⟨hhi, hlo⟩, hhi2, hlo2⟩
    · rintro ⟨⟨hhi, hlo⟩, hhi2, hlo2⟩
      exact ⟨rest, by rw [← hhi, ← hlo, ← hhi2, ← hlo2]; rfl⟩
  have hsecond : (∀ v m, some (val2, mask2) = some (v, m) → w2 &&& m = v) ↔ w2 &&& mask2 = val2 := by
    constructor
    · exact fun h => h _ _ rfl
    · rintro h v m heq
      cases heq
      exact h
  rw [decode_eq_ok_iff, henc, hbytes, hwords, hrow, hsecond]
  constructor
  · rintro ⟨hwf, h1, h2, hf⟩
    exact ⟨h1, h2, hf, hwf⟩
  · rintro ⟨h1, h2, hf, hwf⟩
    exact ⟨hwf, h1, h2, hf⟩

/-- The words of `movff`. -/
theorem words_movff_iff (w1 w2 : BitVec 16) (fs fd : DAddr) :
    w1 = (0b1100#4 ++ fs.extractLsb' 8 4) ++ fs.extractLsb' 0 8 ∧ w2 = (0b1111#4 ++ fd.extractLsb' 8 4) ++ fd.extractLsb' 0 8 ↔
      w1 &&& 0xF000#16 = 0xC000#16 ∧ w2 &&& 0xF000#16 = 0xF000#16 ∧
        fs = w1.extractLsb' 0 12 ∧ fd = w2.extractLsb' 0 12 := by
  have h1 := word_operand_iff (m := 4) (n := 12) w1 0b1100#4 fs
  have h2 := word_operand_iff (m := 4) (n := 12) w2 0b1111#4 fd
  rw [append_ranges (n := 4), append_ranges (n := 4)]
  exact (and_congr h1 h2).trans ⟨fun ⟨⟨a, b⟩, c, d⟩ => ⟨a, c, b, d⟩, fun ⟨a, c, b, d⟩ => ⟨⟨a, b⟩, c, d⟩⟩

/-- The second word of `call` and `goto`, and their literal. -/
theorem second_word_iff (w2 : BitVec 16) (k : BitVec 20) (l : Byte) :
    w2 = (0b1111#4 ++ k.extractLsb' 16 4) ++ k.extractLsb' 8 8 ∧ k.extractLsb' 0 8 = l ↔
      w2 &&& 0xF000#16 = 0xF000#16 ∧ k = w2.extractLsb' 0 12 ++ l := by
  have hx : (k.extractLsb' 8 12).extractLsb' 8 4 = k.extractLsb' 16 4 := extractLsb'_extractLsb'_of_le k (by decide)
  have hy : (k.extractLsb' 8 12).extractLsb' 0 8 = k.extractLsb' 8 8 := extractLsb'_extractLsb'_of_le k (by decide)
  have h2 := word_operand_iff (m := 4) (n := 12) w2 0b1111#4 (k.extractLsb' 8 12)
  rw [← hx, ← hy, append_ranges (n := 4), eq_append_iff (m := 12) (n := 8) k]
  exact (and_congr_left' h2).trans and_assoc

/-- The words of `lfsr`. -/
theorem words_lfsr_iff (w1 w2 : BitVec 16) (f : BitVec 2) (k : BitVec 12) :
    w1 = 0b11101110#8 ++ (0b00#2 ++ f ++ k.extractLsb' 8 4) ∧ w2 = 0b11110000#8 ++ k.extractLsb' 0 8 ↔
      w1 &&& 0xFFC0#16 = 0xEE00#16 ∧ w2 &&& 0xFF00#16 = 0xF000#16 ∧
        f = w1.extractLsb' 4 2 ∧ k = w1.extractLsb' 0 4 ++ w2.extractLsb' 0 8 := by
  have hopcode : w1 &&& 0xFFC0#16 = 0xEE00#16 ↔ w1.extractLsb' 8 8 = 0b11101110#8 ∧ w1.extractLsb' 6 2 = 0b00#2 :=
    (and_upper_eq_iff (m := 10) (n := 6) w1 0x3B8#10).trans (range_eq_append_iff (m := 8) (n := 2) w1 6 0b11101110#8 0b00#2)
  have hopcode2 : w2 &&& 0xFF00#16 = 0xF000#16 ↔ w2.extractLsb' 8 8 = 0b11110000#8 :=
    and_upper_eq_iff (m := 8) (n := 8) w2 0b11110000#8
  rw [hopcode, hopcode2, eq_append_iff (m := 8) (n := 8), range_eq_append_iff (m := 4) (n := 4),
    range_eq_append_iff (m := 2) (n := 2), eq_append_iff (m := 8) (n := 8) w2, eq_append_iff (m := 4) (n := 8) k]
  constructor
  · rintro ⟨⟨hee, ⟨h00, hf⟩, hk⟩, hf0, hlow⟩
    exact ⟨⟨hee, h00⟩, hf0, hf.symm, hk.symm, hlow.symm⟩
  · rintro ⟨⟨hee, h00⟩, hf0, hf, hk, hlow⟩
    exact ⟨⟨hee, ⟨h00, hf.symm⟩, hk.symm⟩, hf0, hlow.symm⟩

/-- The words of `call`. -/
theorem words_call_iff (w1 w2 : BitVec 16) (k : BitVec 20) (s : Bool) :
    w1 = (0b1110110#7 ++ BitVec.ofBool s) ++ k.extractLsb' 0 8 ∧ w2 = (0b1111#4 ++ k.extractLsb' 16 4) ++ k.extractLsb' 8 8 ↔
      w1 &&& 0xFE00#16 = 0xEC00#16 ∧ w2 &&& 0xF000#16 = 0xF000#16 ∧
        k = w2.extractLsb' 0 12 ++ w1.extractLsb' 0 8 ∧ BitVec.ofBool s = w1.extractLsb' 8 1 := by
  have h1 : w1 = (0b1110110#7 ++ BitVec.ofBool s) ++ k.extractLsb' 0 8 ↔ w1 &&& 0xFE00#16 = 0xEC00#16 ∧
      k.extractLsb' 0 8 = w1.extractLsb' 0 8 ∧ BitVec.ofBool s = w1.extractLsb' 8 1 :=
    word_a_iff w1 0b1110110#7 (BitVec.ofBool s) (k.extractLsb' 0 8)
  have h2 := second_word_iff w2 k (w1.extractLsb' 0 8)
  rw [h1]
  constructor
  · rintro ⟨⟨hop, hlow, hs⟩, hw2⟩
    obtain ⟨hop2, hk⟩ := h2.mp ⟨hw2, hlow⟩
    exact ⟨hop, hop2, hk, hs⟩
  · rintro ⟨hop, hop2, hk, hs⟩
    obtain ⟨hw2, hlow⟩ := h2.mpr ⟨hop2, hk⟩
    exact ⟨⟨hop, hlow, hs⟩, hw2⟩

/-- The words of `goto`. -/
theorem words_goto_iff (w1 w2 : BitVec 16) (k : BitVec 20) :
    w1 = 0b11101111#8 ++ k.extractLsb' 0 8 ∧ w2 = (0b1111#4 ++ k.extractLsb' 16 4) ++ k.extractLsb' 8 8 ↔
      w1 &&& 0xFF00#16 = 0xEF00#16 ∧ w2 &&& 0xF000#16 = 0xF000#16 ∧
        k = w2.extractLsb' 0 12 ++ w1.extractLsb' 0 8 := by
  have h1 : w1 = 0b11101111#8 ++ k.extractLsb' 0 8 ↔ w1 &&& 0xFF00#16 = 0xEF00#16 ∧
      k.extractLsb' 0 8 = w1.extractLsb' 0 8 :=
    word_operand_iff (m := 8) (n := 8) w1 0b11101111#8 (k.extractLsb' 0 8)
  rw [h1, and_assoc, and_comm (a := k.extractLsb' 0 8 = _), second_word_iff w2 k (w1.extractLsb' 0 8)]

/-- The word of `movlb`. -/
theorem word_movlb_iff (w : BitVec 16) (k : Bank) :
    w = 0b00000001#8 ++ (0b0000#4 ++ k) ↔ w &&& 0xFFF0#16 = 0x0100#16 ∧ k = w.extractLsb' 0 4 := by
  rw [show (0b00000001#8 ++ (0b0000#4 ++ k) : BitVec 16) = 0x010#12 ++ k from BitVec.append_assoc.symm]
  exact word_operand_iff (m := 12) (n := 4) w 0x010#12 k

/-- The words of `return` and `retfie`. -/
theorem word_fast_iff (w : BitVec 16) (op : BitVec 7) (s : Bool) :
    w = 0b00000000#8 ++ (op ++ BitVec.ofBool s) ↔
      w &&& 0xFFFE#16 = (0b00000000#8 ++ op) ++ 0#1 ∧ BitVec.ofBool s = w.extractLsb' 0 1 := by
  rw [show (0b00000000#8 ++ (op ++ BitVec.ofBool s) : BitVec 16) = (0b00000000#8 ++ op) ++ BitVec.ofBool s from
    BitVec.append_assoc.symm]
  exact word_operand_iff (m := 15) (n := 1) w (0b00000000#8 ++ op) (BitVec.ofBool s)

/-- Settles O3: where the decoder answers is where the encoding stands, and each format's encoding stands where the opcode
bits are the masked ones and the fields the bits below them. -/
theorem decodesExactlyTheTable : Obligations.DecodesExactlyTheTable := by
  intro w1 w2 rest i
  match i with
  | .addwf f d a | .addwfc f d a | .andwf f d a | .comf f d a | .decf f d a | .decfsz f d a | .dcfsnz f d a
  | .incf f d a | .incfsz f d a | .infsnz f d a | .iorwf f d a | .movf f d a | .rlcf f d a | .rlncf f d a
  | .rrcf f d a | .rrncf f d a | .subfwb f d a | .subwf f d a | .subwfb f d a | .swapf f d a | .xorwf f d a =>
    exact decode_iff_of_word w2 rest rfl rfl rfl (word_da_iff w1 _ d a f)
  | .clrf f a | .cpfseq f a | .cpfsgt f a | .cpfslt f a | .movwf f a | .mulwf f a | .negf f a | .setf f a
  | .tstfsz f a => exact decode_iff_of_word w2 rest rfl rfl rfl (word_a_iff w1 _ a.bit f)
  | .bcf f b a | .bsf f b a | .btfsc f b a | .btfss f b a | .btg f b a =>
    exact decode_iff_of_word w2 rest rfl rfl rfl (word_bit_iff w1 _ b a f)
  | .bc k | .bn k | .bnc k | .bnn k | .bnov k | .bnz k | .bov k | .bz k | .retlw k | .addlw k | .andlw k | .iorlw k
  | .movlw k | .mullw k | .sublw k | .xorlw k =>
    exact decode_iff_of_word w2 rest rfl rfl rfl (word_operand_iff (m := 8) (n := 8) w1 _ k)
  | .bra n | .rcall n =>
    refine decode_iff_of_word w2 rest rfl rfl rfl ?_
    rw [append_ranges (n := 3)]
    exact word_operand_iff (m := 5) (n := 11) w1 _ n
  | .nopx x =>
    refine decode_iff_of_word w2 rest rfl rfl rfl ?_
    rw [append_ranges (n := 4)]
    exact word_operand_iff (m := 4) (n := 12) w1 _ x
  | .clrwdt | .daw | .nop | .pop | .push | .reset | .sleep | .tblrd | .tblrdPostInc | .tblrdPostDec | .tblrdPreInc
  | .tblwt | .tblwtPostInc | .tblwtPostDec | .tblwtPreInc =>
    exact decode_iff_of_word w2 rest rfl rfl rfl (word_fixed_iff w1 _)
  | .retfie s | .ret s => exact decode_iff_of_word w2 rest rfl rfl rfl (word_fast_iff w1 _ s)
  | .movlb k => exact decode_iff_of_word w2 rest rfl rfl rfl (word_movlb_iff w1 k)
  | .movff fs fd => exact decode_iff_of_words rest rfl rfl (words_movff_iff w1 w2 fs fd)
  | .call k s => exact decode_iff_of_words rest rfl rfl (words_call_iff w1 w2 k s)
  | .goto k => exact decode_iff_of_words rest rfl rfl (words_goto_iff w1 w2 k)
  | .lfsr f k => exact decode_iff_of_words rest rfl rfl (words_lfsr_iff w1 w2 f k)

end Sys2Proof
end

section
/-! PROOFS about what an instruction or an event can change: one relation, said of every state update, of every shape of
instruction and of every instruction; the two frames and the invariant follow from it. -/

namespace Sys2Proof.Machine

open Sys2Proof.Claims

/-! ### The relation -/

/-- What leads from `s` to `t`: registers other than the allowed ones hold what they held, data memory changes at most at
the implemented general-purpose address `x`, an even PC stays even, the return stack keeps to its depth, and program memory
and the parameters stay as they are. -/
structure Changes (A : Reg → Prop) (x : Option DAddr) (s t : State) : Prop where
  regs : ∀ r, ¬ A r → r.same s t
  ram : t.ram = s.ram ∨ ∃ a v, x = some a ∧ s.place a = .ram ∧ t.ram = s.ram.write a.toNat v
  even : s.pc.getLsbD 0 = false → t.pc.getLsbD 0 = false
  depth : s.stack.length ≤ s.cfg.stackDepth → t.stack.length ≤ s.cfg.stackDepth
  prog : t.prog = s.prog
  cfg : t.cfg = s.cfg

/-- What holds in `t` what it held in `s`, and in `u` what it held in `t`, holds in `u` what it held in `s`. -/
theorem same_trans {s t u : State} {r : Reg} (hst : r.same s t) (htu : r.same t u) : r.same s u := by
  cases r <;> exact htu.trans hst

/-- Every register holds what it holds. -/
theorem same_refl (s : State) (r : Reg) : r.same s s := by
  cases r <;> rfl

variable {A : Reg → Prop} {x : Option DAddr} {s t u : State}

/-- An update that touches neither PC, nor the return stack, nor a memory, nor the parameters. -/
theorem Changes.of_regs (hregs : ∀ r, ¬ A r → r.same s t) (hpc : t.pc = s.pc) (hstack : t.stack = s.stack)
    (hram : t.ram = s.ram) (hprog : t.prog = s.prog) (hcfg : t.cfg = s.cfg) : Changes A x s t where
  regs := hregs
  ram := .inl hram
  even := by rw [hpc]; exact id
  depth := by rw [hstack]; exact id
  prog := hprog
  cfg := hcfg

theorem Changes.refl (s : State) : Changes A x s s := .of_regs (fun r _ => same_refl s r) rfl rfl rfl rfl rfl

/-- An update that does not store, before one that may. -/
theorem Changes.trans (hst : Changes A none s t) (htu : Changes A x t u) : Changes A x s u where
  regs := fun r hr => same_trans (hst.regs r hr) (htu.regs r hr)
  ram := by
    have hram : t.ram = s.ram := by
      rcases hst.ram with h | ⟨a, v, h, -⟩
      · exact h
      · cases h
    have hplace : t.place = s.place := by unfold State.place; rw [hst.cfg]
    rw [← hram, ← hplace]
    exact htu.ram
  even := htu.even ∘ hst.even
  depth := by
    have h := htu.depth
    rw [hst.cfg] at h
    exact h ∘ hst.depth
  prog := htu.prog.trans hst.prog
  cfg := htu.cfg.trans hst.cfg

/-- An update that may store, before one that does not. -/
theorem Changes.then (hst : Changes A x s t) (htu : Changes A none t u) : Changes A x s u where
  regs := fun r hr => same_trans (hst.regs r hr) (htu.regs r hr)
  ram := by
    rcases htu.ram with h | ⟨a, v, h, -⟩
    · rw [h]
      exact hst.ram
    · cases h
  even := htu.even ∘ hst.even
  depth := by
    have h := htu.depth
    rw [hst.cfg] at h
    exact h ∘ hst.depth
  prog := htu.prog.trans hst.prog
  cfg := htu.cfg.trans hst.cfg

/-! ### The updates of one field -/

theorem changes_setW (h : A .w) (v : Byte) : Changes A none s (s.setW v) :=
  .of_regs (fun r hr => by cases r <;> simp_all [Reg.same]) rfl rfl rfl rfl rfl

theorem changes_setBsr (h : A .bsr) (v : Bank) : Changes A none s (s.setBsr v) :=
  .of_regs (fun r hr => by cases r <;> simp_all [Reg.same]) rfl rfl rfl rfl rfl

theorem changes_setPclath (h : A .pclath) (v : Byte) : Changes A none s (s.setPclath v) :=
  .of_regs (fun r hr => by cases r <;> simp_all [Reg.same]) rfl rfl rfl rfl rfl

theorem changes_setPclatu (h : A .pclatu) (v : BitVec 5) : Changes A none s (s.setPclatu v) :=
  .of_regs (fun r hr => by cases r <;> simp_all [Reg.same]) rfl rfl rfl rfl rfl

theorem changes_setShadow (hw : A .ws) (hf : A .statuss) (hb : A .bsrs) (w : Byte) (fl : Flags) (b : Bank) :
    Changes A none s (s.setShadow w fl b) :=
  .of_regs (fun r hr => by cases r <;> simp_all [Reg.same]) rfl rfl rfl rfl rfl

theorem changes_setFsr0 (h : A .fsr0) (v : BitVec 12) : Changes A none s (s.setFsr0 v) :=
  .of_regs (fun r hr => by cases r <;> simp_all [Reg.same]) rfl rfl rfl rfl rfl

theorem changes_setFsr1 (h : A .fsr1) (v : BitVec 12) : Changes A none s (s.setFsr1 v) :=
  .of_regs (fun r hr => by cases r <;> simp_all [Reg.same]) rfl rfl rfl rfl rfl

theorem changes_setFsr2 (h : A .fsr2) (v : BitVec 12) : Changes A none s (s.setFsr2 v) :=
  .of_regs (fun r hr => by cases r <;> simp_all [Reg.same]) rfl rfl rfl rfl rfl

theorem changes_setTblptr (h : A .tblptr) (v : PAddr) : Changes A none s (s.setTblptr v) :=
  .of_regs (fun r hr => by cases r <;> simp_all [Reg.same]) rfl rfl rfl rfl rfl

theorem changes_setTablat (h : A .tablat) (v : Byte) : Changes A none s (s.setTablat v) :=
  .of_regs (fun r hr => by cases r <;> simp_all [Reg.same]) rfl rfl rfl rfl rfl

theorem changes_setHold (h : A .hold) (v : Vector Byte 8) : Changes A none s (s.setHold v) :=
  .of_regs (fun r hr => by cases r <;> simp_all [Reg.same]) rfl rfl rfl rfl rfl

theorem changes_setGie (hh : A .gieh) (hl : A .giel) (h l : Bool) : Changes A none s (s.setGie h l) :=
  .of_regs (fun r hr => by cases r <;> simp_all [Reg.same]) rfl rfl rfl rfl rfl

theorem changes_setToPd (ht : A .to) (hp : A .pd) (t p : Bool) : Changes A none s (s.setToPd t p) :=
  .of_regs (fun r hr => by cases r <;> simp_all [Reg.same]) rfl rfl rfl rfl rfl

theorem changes_setWdt (ht : A .wdt) (hp : A .wdtPost) (t p : Nat) : Changes A none s (s.setWdt t p) :=
  .of_regs (fun r hr => by cases r <;> simp_all [Reg.same]) rfl rfl rfl rfl rfl

theorem changes_setMode (h : A .mode) (m : Mode) : Changes A none s (s.setMode m) :=
  .of_regs (fun r hr => by cases r <;> simp_all [Reg.same]) rfl rfl rfl rfl rfl

theorem changes_setInputs (h : A .inputs) (l : List EnvInput) : Changes A none s (s.setInputs l) :=
  .of_regs (fun r hr => by cases r <;> simp_all [Reg.same]) rfl rfl rfl rfl rfl

/-- PRODH and PRODL, either of which may be kept. -/
theorem changes_setProd {h l : Byte} (hh : A .prodh ∨ h = s.prodh) (hl : A .prodl ∨ l = s.prodl) :
    Changes A none s (s.setProd h l) :=
  .of_regs (fun r hr => by cases r <;> simp_all [Reg.same]) rfl rfl rfl rfl rfl

/-- Flags go from `old` to `new` and differ in allowed ones only. -/
structure FlagsWithin (A : Reg → Prop) (old new : Flags) : Prop where
  c : A .c ∨ new.c = old.c
  dc : A .dc ∨ new.dc = old.dc
  z : A .z ∨ new.z = old.z
  ov : A .ov ∨ new.ov = old.ov
  n : A .n ∨ new.n = old.n

theorem changes_setFlags {fl : Flags} (h : FlagsWithin A s.flags fl) : Changes A none s (s.setFlags fl) := by
  obtain ⟨hc, hdc, hz, hov, hn⟩ := h
  exact .of_regs (fun r hr => by cases r <;> simp_all [Reg.same]) rfl rfl rfl rfl rfl

/-- PC is no register of the frame: an even address may be loaded. -/
theorem changes_setPcRaw {v : PAddr} (h : s.pc.getLsbD 0 = false → v.getLsbD 0 = false) :
    Changes A none s (s.setPcRaw v) where
  regs := fun r _ => by cases r <;> rfl
  ram := .inl rfl
  even := h
  depth := id
  prog := rfl
  cfg := rfl

theorem changes_setStack {l : List PAddr} (h : A .stack)
    (hl : s.stack.length ≤ s.cfg.stackDepth → l.length ≤ s.cfg.stackDepth) : Changes A none s (s.setStack l) where
  regs := fun r hr => by cases r <;> simp_all [Reg.same]
  ram := .inl rfl
  even := id
  depth := hl
  prog := rfl
  cfg := rfl

/-! ### The operations -/

theorem even_iff (x : PAddr) : x.getLsbD 0 = false ↔ x.toNat % 2 = 0 := by
  rw [bitZero_eq, decide_eq_false_iff_not]
  omega

/-- Even sums. -/
theorem even_add {p n : PAddr} (hp : p.getLsbD 0 = false) (hn : n.getLsbD 0 = false) : (p + n).getLsbD 0 = false := by
  rw [even_iff] at *
  rw [BitVec.toNat_add]
  omega

theorem changes_advance {n : PAddr} (hn : n.getLsbD 0 = false) : Changes A none s (s.advance n) :=
  changes_setPcRaw fun h => even_add h hn

theorem changes_setPc (v : PAddr) : Changes A none s (s.setPc v) :=
  changes_setPcRaw fun _ => alignPc_bitZero v

theorem stride_even (skip : Bool) : (stride skip).getLsbD 0 = false := by
  cases skip <;> rfl

theorem changes_afterRead {a : DAddr} (h : s.place a = .sfr .pcl → A .pclath ∧ A .pclatu) :
    Changes A none s (s.afterRead a) := by
  rcases afterRead_cases s a with heq | ⟨hp, heq⟩
  · rw [heq]
    exact .refl s
  · obtain ⟨hh, hu⟩ := h hp
    rw [heq]
    exact (changes_setPclath hh _).trans (changes_setPclatu hu _)

theorem changes_setTos (h : A .stack) (v : PAddr) : Changes A none s (s.setTos v) := by
  obtain ⟨l, hlen, heq⟩ := setTos_eq s v
  rw [heq]
  exact changes_setStack h (by rw [hlen]; exact id)

/-- A write to a special-function register changes what the register holds. -/
theorem changes_pokeSfr (q : Sfr) (h : ∀ r ∈ sfrRegs q, A r) (v : Byte) : Changes A none s (s.pokeSfr q v) := by
  cases q with
  | tosu | tosh | tosl => exact changes_setTos (h _ (by simp [sfrRegs])) _
  | stkptr | indirect => exact .refl s
  | pclatu => exact changes_setPclatu (h _ (by simp [sfrRegs])) _
  | pclath => exact changes_setPclath (h _ (by simp [sfrRegs])) _
  | pcl => exact changes_setPc _
  | tblptru | tblptrh | tblptrl => exact changes_setTblptr (h _ (by simp [sfrRegs])) _
  | tablat => exact changes_setTablat (h _ (by simp [sfrRegs])) _
  | prodh => exact changes_setProd (.inl (h _ (by simp [sfrRegs]))) (.inr rfl)
  | prodl => exact changes_setProd (.inr rfl) (.inl (h _ (by simp [sfrRegs])))
  | intcon => exact changes_setGie (h _ (by simp [sfrRegs])) (h _ (by simp [sfrRegs])) _ _
  | wreg => exact changes_setW (h _ (by simp [sfrRegs])) _
  | fsr0h | fsr0l => exact changes_setFsr0 (h _ (by simp [sfrRegs])) _
  | fsr1h | fsr1l => exact changes_setFsr1 (h _ (by simp [sfrRegs])) _
  | fsr2h | fsr2l => exact changes_setFsr2 (h _ (by simp [sfrRegs])) _
  | bsr => exact changes_setBsr (h _ (by simp [sfrRegs])) _
  | status =>
    have hall : ∀ r ∈ allFlags, A r := h
    simp only [allFlags, List.forall_mem_cons] at hall
    obtain ⟨hc, hdc, hz, hov, hn, -⟩ := hall
    exact changes_setFlags ⟨.inl hc, .inl hdc, .inl hz, .inl hov, .inl hn⟩
  | rcon => exact changes_setToPd (h _ (by simp [sfrRegs])) (h _ (by simp [sfrRegs])) _ _

/-- A write to a data address changes the byte or the register there. -/
theorem changes_poke {a : DAddr} (h : ∀ q, s.place a = .sfr q → ∀ r ∈ sfrRegs q, A r) (v : Byte) :
    Changes A (some a) s (s.poke a v) := by
  rcases poke_cases s a v with ⟨hp, heq⟩ | ⟨q, hp, heq⟩ | heq
  · rw [heq]
    exact { regs := fun r _ => by cases r <;> rfl, ram := .inr ⟨a, v, rfl, hp, rfl⟩, even := id, depth := id,
            prog := rfl, cfg := rfl }
  · rw [heq]
    exact Changes.then (.refl s) (changes_pokeSfr q (h q hp) v)
  · rw [heq]
    exact .refl s

/-! ### The shapes of the instructions -/

/-- The registers that `A` allows are those of the frame of an instruction: those its rule writes, those of the register it
stores to, and what a read of PCL latches. -/
structure Covers (A : Reg → Prop) (s : State) (i : Instr) : Prop where
  writes : ∀ r ∈ writes i, A r
  stores : ∀ x q, storeAt s i = some x → s.place x = .sfr q → ∀ r ∈ sfrRegs q, A r
  loads : ∀ x, loadAt s i = some x → s.place x = .sfr .pcl → A .pclath ∧ A .pclatu

/-- The address `Dest` stores to. -/
def dstAddr : Dst → DAddr → Option DAddr
  | .w, _ => none
  | .f, x => some x

/-- Flags that an operation keeps. -/
theorem FlagsWithin.refl (fl : Flags) : FlagsWithin A fl fl := ⟨.inr rfl, .inr rfl, .inr rfl, .inr rfl, .inr rfl⟩

/-- All five flags may change. -/
theorem FlagsWithin.all (h : ∀ r ∈ allFlags, A r) (old new : Flags) : FlagsWithin A old new := by
  simp only [allFlags, List.forall_mem_cons] at h
  obtain ⟨hc, hdc, hz, hov, hn, -⟩ := h
  exact ⟨.inl hc, .inl hdc, .inl hz, .inl hov, .inl hn⟩

/-- Z and N may change. -/
theorem FlagsWithin.zn (hz : A .z) (hn : A .n) (old : Flags) (r : Byte) : FlagsWithin A old (old.withZN r) :=
  ⟨.inr rfl, .inr rfl, .inl hz, .inr rfl, .inl hn⟩

/-- C, Z and N may change. -/
theorem FlagsWithin.czn (hc : A .c) (hz : A .z) (hn : A .n) (old : Flags) (r : Byte) (c : Bool) :
    FlagsWithin A old { old.withZN r with c := c } :=
  ⟨.inl hc, .inr rfl, .inl hz, .inr rfl, .inl hn⟩

/-- A read of the operand and an advance lead to a state whose addresses lead where they led. -/
theorem place_after_read (s : State) (a b : DAddr) (n : PAddr) : ((s.afterRead a).advance n).place b = s.place b := by
  unfold State.place
  rw [State.advance_cfg, afterRead_cfg]

/-- A read of the operand and an advance. -/
theorem changes_read_advance {a : DAddr} {n : PAddr} (hload : s.place a = .sfr .pcl → A .pclath ∧ A .pclatu)
    (hn : n.getLsbD 0 = false) : Changes A none s ((s.afterRead a).advance n) :=
  (changes_afterRead hload).trans (changes_advance hn)

/-- A byte operation with a destination bit. -/
theorem byteOp_changes {f : Byte} {d : Dst} {a : Acc} {g : Byte → ByteResult}
    (hw : d = .w → A .w) (hstore : d = .f → ∀ q, s.place (s.ea f a) = .sfr q → ∀ r ∈ sfrRegs q, A r)
    (hload : s.place (s.ea f a) = .sfr .pcl → A .pclath ∧ A .pclatu)
    (hflags : ∀ v old, FlagsWithin A old ((g v).flags old)) (h : s.byteOp f d a g = .next t) :
    Changes A (dstAddr d (s.ea f a)) s t := by
  obtain ⟨-, r, s1, s2, rfl, rfl, hdest, rfl⟩ := byteOp_next h
  have hread := changes_read_advance hload (stride_even (g (s.peek (s.ea f a))).skip)
  rcases hdest with ⟨rfl, rfl⟩ | ⟨rfl, rfl⟩
  · exact hread.trans ((changes_setW (hw rfl) _).trans (changes_setFlags (hflags _ _)))
  · refine hread.trans ((changes_poke (fun q hq => hstore rfl q ?_) _).then (changes_setFlags (hflags _ _)))
    rwa [place_after_read] at hq

/-- A write without a read. -/
theorem writeOp_changes {f : Byte} {a : Acc} {v : Byte} {fl : Flags → Flags}
    (hstore : ∀ q, s.place (s.ea f a) = .sfr q → ∀ r ∈ sfrRegs q, A r) (hflags : ∀ old, FlagsWithin A old (fl old))
    (h : s.writeOp f a v fl = .next t) : Changes A (some (s.ea f a)) s t := by
  obtain ⟨-, rfl⟩ := writeOp_next h
  exact (changes_advance (n := 2) rfl).trans ((changes_poke (s := s.advance 2) hstore v).then (changes_setFlags (hflags _)))

/-- A test of a byte. -/
theorem testOp_changes {f : Byte} {a : Acc} {cond : Byte → Bool}
    (hload : s.place (s.ea f a) = .sfr .pcl → A .pclath ∧ A .pclatu) (h : s.testOp f a cond = .next t) :
    Changes A none s t := by
  obtain ⟨-, rfl⟩ := testOp_next h
  exact changes_read_advance hload (stride_even _)

/-- A write of a bit. -/
theorem bitOp_changes {f : Byte} {b : BitVec 3} {a : Acc} {g : Byte → Byte}
    (hstore : ∀ q, s.place (s.ea f a) = .sfr q → ∀ r ∈ sfrRegs q, A r)
    (hload : s.place (s.ea f a) = .sfr .pcl → A .pclath ∧ A .pclatu) (h : s.bitOp f b a g = .next t) :
    Changes A (some (s.ea f a)) s t := by
  obtain ⟨-, rfl⟩ := bitOp_next h
  refine (changes_read_advance hload rfl).trans (changes_poke (fun q hq => hstore q ?_) _)
  rwa [place_after_read] at hq

/-- A test of a bit. -/
theorem bitTest_changes {f : Byte} {b : BitVec 3} {a : Acc} {want : Bool}
    (hload : s.place (s.ea f a) = .sfr .pcl → A .pclath ∧ A .pclatu) (h : s.bitTest f b a want = .next t) :
    Changes A none s t := by
  obtain ⟨-, rfl⟩ := bitTest_next h
  exact changes_read_advance hload (stride_even _)

/-- A move between two data addresses. -/
theorem movff_changes {fs fd : DAddr} (hstore : ∀ q, s.place fd = .sfr q → ∀ r ∈ sfrRegs q, A r)
    (hload : s.place fs = .sfr .pcl → A .pclath ∧ A .pclatu) (h : execMovff fs fd s = .next t) :
    Changes A (some fd) s t := by
  unfold execMovff at h
  split at h
  · cases h
  · obtain ⟨p, hp, hk⟩ := andThen_next h
    obtain ⟨-, rfl⟩ := memRead_next hp
    obtain ⟨-, rfl⟩ := memWrite_next hk
    refine (changes_read_advance hload rfl).trans (changes_poke (fun q hq => hstore q ?_) _)
    rwa [place_after_read] at hq

/-- A multiplication by a byte of data memory. -/
theorem mulwf_changes {f : Byte} {a : Acc} (hh : A .prodh) (hl : A .prodl)
    (hload : s.place (s.ea f a) = .sfr .pcl → A .pclath ∧ A .pclatu) (h : execMulwf f a s = .next t) :
    Changes A none s t := by
  obtain ⟨p, hp, hk⟩ := andThen_next h
  obtain ⟨-, rfl⟩ := memRead_next hp
  cases hk
  exact (changes_read_advance hload rfl).trans (changes_setProd (.inl hh) (.inl hl))

/-- Branch targets are even. -/
theorem relTarget_even {w : Nat} (n : BitVec w) (h : s.pc.getLsbD 0 = false) : (s.relTarget n).getLsbD 0 = false := by
  refine even_add (even_add h rfl) ?_
  rw [even_iff, BitVec.toNat_mul, show (2 : PAddr).toNat = 2 from rfl]
  omega

/-- Absolute targets are even. -/
theorem absTarget_even (k : BitVec 20) : (absTarget k).getLsbD 0 = false := by
  rw [even_iff, absTarget_toNat]
  omega

theorem branchIf_changes {cond : Bool} {n : Byte} (h : s.branchIf cond n = .next t) : Changes A none s t := by
  cases h
  cases cond
  · exact changes_advance rfl
  · exact changes_setPcRaw (relTarget_even n)

theorem literalOp_changes {r : Byte} {fl : Flags} (hw : A .w) (hfl : FlagsWithin A s.flags fl)
    (h : s.literalOp r fl = .next t) : Changes A none s t := by
  cases h
  exact (changes_advance rfl).trans ((changes_setW hw r).trans (changes_setFlags hfl))

theorem push_changes {v : PAddr} (hA : A .stack) (h : s.push v = .next t) : Changes A none s t := by
  obtain ⟨hroom, rfl⟩ := push_next h
  exact changes_setStack hA fun _ => hroom

theorem pop_changes {v : PAddr} (hA : A .stack) (h : s.pop = .next (v, t)) : Changes A none s t := by
  obtain ⟨x, xs, hs, heq⟩ := pop_next h
  cases heq
  refine changes_setStack hA fun hl => ?_
  rw [hs, List.length_cons] at hl
  omega

theorem saveFast_changes (hw : A .ws) (hf : A .statuss) (hb : A .bsrs) : Changes A none s s.saveFast :=
  changes_setShadow hw hf hb _ _ _

theorem restoreFast_changes (hw : A .w) (hb : A .bsr) (hfl : ∀ r ∈ allFlags, A r) : Changes A none s s.restoreFast :=
  (changes_setW hw _).trans ((changes_setFlags (.all hfl _ _)).trans (changes_setBsr hb _))

theorem returnTo_changes {fast : Bool} (hA : A .stack) (hfast : fast = true → A .w ∧ A .bsr ∧ ∀ r ∈ allFlags, A r)
    (h : s.returnTo fast = .next t) : Changes A none s t := by
  obtain ⟨⟨v, s1⟩, hp, hk⟩ := andThen_next h
  have hpop : Changes A none s (s1.setPc v) := (pop_changes hA hp).trans (changes_setPc v)
  cases fast
  · cases hk
    exact hpop
  · cases hk
    obtain ⟨hw, hb, hfl⟩ := hfast rfl
    exact hpop.trans (restoreFast_changes hw hb hfl)

theorem reenable_changes (hh : A .gieh) (hl : A .giel) : Changes A none s s.reenable := by
  obtain ⟨h, l, heq⟩ := reenable_eq s
  rw [heq]
  exact changes_setGie hh hl h l

theorem interruptReturn_changes {fast : Bool} (hA : A .stack) (hh : A .gieh) (hl : A .giel)
    (hfast : fast = true → A .w ∧ A .bsr ∧ ∀ r ∈ allFlags, A r) (h : s.interruptReturn fast = .next t) :
    Changes A none s t := by
  obtain ⟨⟨v, s1⟩, hp, hk⟩ := andThen_next h
  have hpop : Changes A none s (s1.setPc v).reenable :=
    (pop_changes hA hp).trans ((changes_setPc v).trans (reenable_changes hh hl))
  cases fast
  · cases hk
    exact hpop
  · cases hk
    obtain ⟨hw, hb, hfl⟩ := hfast rfl
    exact hpop.trans (restoreFast_changes hw hb hfl)

theorem tableRead_changes {m : TblMode} (ht : A .tablat) (hp : m = .same ∨ A .tblptr) (h : s.tableRead m = .next t) :
    Changes A none s t := by
  obtain ⟨-, rfl⟩ := tableRead_next h
  have hreg v := (changes_advance (A := A) (s := s) (n := 2) rfl).trans (changes_setTablat ht v)
  rcases hp with rfl | hp
  · exact hreg _
  · exact (hreg _).trans (changes_setTblptr hp _)

theorem tableWrite_changes {m : TblMode} (hh : A .hold) (hp : m = .same ∨ A .tblptr) (h : s.tableWrite m = .next t) :
    Changes A none s t := by
  cases h
  have hreg v := (changes_advance (A := A) (s := s) (n := 2) rfl).trans (changes_setHold hh v)
  rcases hp with rfl | hp
  · exact hreg _
  · exact (hreg _).trans (changes_setTblptr hp _)

theorem lfsr_changes {f : BitVec 2} {k : BitVec 12} (hwr : ∀ r ∈ writes (.lfsr f k), A r)
    (h : execLfsr f k s = .next t) : Changes A none s t := by
  have hpc := changes_advance (A := A) (s := s) (n := 4) rfl
  simp only [writes] at hwr
  unfold execLfsr at h
  by_cases h0 : f = 0
  · rw [if_pos h0] at h
    rw [if_pos h0] at hwr
    cases h
    exact hpc.trans (changes_setFsr0 (hwr _ (List.mem_singleton_self _)) k)
  rw [if_neg h0] at h
  rw [if_neg h0] at hwr
  by_cases h1 : f = 1
  · rw [if_pos h1] at h
    rw [if_pos h1] at hwr
    cases h
    exact hpc.trans (changes_setFsr1 (hwr _ (List.mem_singleton_self _)) k)
  rw [if_neg h1] at h
  rw [if_neg h1] at hwr
  by_cases h2 : f = 2
  · rw [if_pos h2] at h
    cases h
    exact hpc.trans (changes_setFsr2 (hwr _ (List.mem_singleton_self _)) k)
  · rw [if_neg h2] at h
    cases h

/-! ### Every instruction -/

/-- An instruction that is a byte operation with a destination bit. -/
theorem Covers.byteOp {i : Instr} {f : Byte} {d : Dst} {a : Acc} {g : Byte → ByteResult} (hA : Covers A s i)
    (hstore : storeAt s i = dstAddr d (s.ea f a)) (hload : loadAt s i = some (s.ea f a))
    (hw : d = .w → Reg.w ∈ Claims.writes i) (hflags : ∀ v old, FlagsWithin A old ((g v).flags old))
    (h : s.byteOp f d a g = .next t) : Changes A (storeAt s i) s t := by
  rw [hstore]
  refine byteOp_changes (fun hd => hA.writes _ (hw hd)) (fun hd q hq => ?_) (hA.loads _ hload) hflags h
  subst hd
  exact hA.stores _ q hstore hq

/-- An instruction that completes changes the registers of its frame and the byte it stores to. A `reset` is left out: it
sets data memory as its column of `RESET_STATE` says. -/
theorem exec_changes {i : Instr} (hA : Covers A s i) (hi : i ≠ .reset) (h : exec i s = .next t) :
    Changes A (storeAt s i) s t := by
  have hwrites := hA.writes
  match i, hA, hi, hwrites, h with
  | .addwf f d a, hA, _, hwr, h | .addwfc f d a, hA, _, hwr, h | .decf f d a, hA, _, hwr, h | .incf f d a, hA, _, hwr, h
  | .subfwb f d a, hA, _, hwr, h | .subwf f d a, hA, _, hwr, h | .subwfb f d a, hA, _, hwr, h =>
    rw [exec] at h
    exact hA.byteOp (by cases d <;> rfl) rfl (by rintro rfl; simp [Claims.writes, wIf])
      (fun _ _ => .all (fun r hr => hwr r (List.mem_append_left _ hr)) _ _) h
  | .negf f a, hA, _, hwr, h =>
    rw [exec] at h
    exact hA.byteOp (d := .f) rfl rfl nofun (fun _ _ => .all hwr _ _) h
  | .rlcf f d a, hA, _, hwr, h | .rrcf f d a, hA, _, hwr, h =>
    obtain ⟨hc, hz, hn, -⟩ : A .c ∧ A .z ∧ A .n ∧ ∀ r ∈ wIf d, A r := by simpa [Claims.writes] using hwr
    rw [exec] at h
    exact hA.byteOp (by cases d <;> rfl) rfl (by rintro rfl; simp [Claims.writes, wIf]) (fun _ _ => .czn hc hz hn _ _ _) h
  | .andwf f d a, hA, _, hwr, h | .comf f d a, hA, _, hwr, h | .iorwf f d a, hA, _, hwr, h | .movf f d a, hA, _, hwr, h
  | .rlncf f d a, hA, _, hwr, h | .rrncf f d a, hA, _, hwr, h | .xorwf f d a, hA, _, hwr, h =>
    obtain ⟨hz, hn, -⟩ : A .z ∧ A .n ∧ ∀ r ∈ wIf d, A r := by simpa [Claims.writes] using hwr
    rw [exec] at h
    exact hA.byteOp (by cases d <;> rfl) rfl (by rintro rfl; simp [Claims.writes, wIf]) (fun _ _ => .zn hz hn _ _) h
  | .decfsz f d a, hA, _, _, h | .dcfsnz f d a, hA, _, _, h | .incfsz f d a, hA, _, _, h | .infsnz f d a, hA, _, _, h
  | .swapf f d a, hA, _, _, h =>
    rw [exec] at h
    exact hA.byteOp (by cases d <;> rfl) rfl (by rintro rfl; simp [Claims.writes, wIf]) (fun _ _ => .refl _) h
  | .clrf f a, hA, _, hwr, h =>
    have hz : A .z := by simpa [Claims.writes] using hwr
    rw [exec] at h
    exact writeOp_changes (fl := fun fl => { fl with z := true }) (hA.stores _ · rfl)
      (fun _ => ⟨.inr rfl, .inr rfl, .inl hz, .inr rfl, .inr rfl⟩) h
  | .setf f a, hA, _, _, h | .movwf f a, hA, _, _, h =>
    rw [exec] at h
    exact writeOp_changes (hA.stores _ · rfl) (fun _ => .refl _) h
  | .cpfseq f a, hA, _, _, h | .cpfsgt f a, hA, _, _, h | .cpfslt f a, hA, _, _, h | .tstfsz f a, hA, _, _, h =>
    rw [exec] at h
    exact testOp_changes (hA.loads _ rfl) h
  | .mulwf f a, hA, _, hwr, h =>
    obtain ⟨hh, hl⟩ : A .prodh ∧ A .prodl := by simpa [Claims.writes] using hwr
    exact mulwf_changes hh hl (hA.loads _ rfl) h
  | .movff fs fd, hA, _, _, h => exact movff_changes (hA.stores _ · rfl) (hA.loads _ rfl) h
  | .bcf f b a, hA, _, _, h | .bsf f b a, hA, _, _, h | .btg f b a, hA, _, _, h =>
    rw [exec] at h
    exact bitOp_changes (hA.stores _ · rfl) (hA.loads _ rfl) h
  | .btfsc f b a, hA, _, _, h | .btfss f b a, hA, _, _, h =>
    rw [exec] at h
    exact bitTest_changes (hA.loads _ rfl) h
  | .bc n, _, _, _, h | .bn n, _, _, _, h | .bnc n, _, _, _, h | .bnn n, _, _, _, h | .bnov n, _, _, _, h
  | .bnz n, _, _, _, h | .bov n, _, _, _, h | .bz n, _, _, _, h =>
    rw [exec] at h
    exact branchIf_changes h
  | .bra n, _, _, _, h =>
    cases h
    exact changes_setPcRaw (relTarget_even n)
  | .goto k, _, _, _, h =>
    cases h
    exact changes_setPcRaw fun _ => absTarget_even k
  | .nop, _, _, _, h | .nopx _, _, _, _, h =>
    cases h
    exact changes_advance rfl
  | .call k fast, _, _, hwr, h =>
    obtain ⟨s1, hp, hk⟩ := andThen_next h
    cases hk
    cases fast
    · have hstack : A .stack := by simpa [Claims.writes] using hwr
      exact (push_changes hstack hp).trans (changes_setPcRaw fun _ => absTarget_even k)
    · obtain ⟨hstack, hws, hfl, hb⟩ : A .stack ∧ A .ws ∧ A .statuss ∧ A .bsrs := by simpa [Claims.writes] using hwr
      exact (push_changes hstack hp).trans
        ((saveFast_changes hws hfl hb).trans (changes_setPcRaw fun _ => absTarget_even k))
  | .rcall n, _, _, hwr, h =>
    obtain ⟨s1, hp, hk⟩ := andThen_next h
    cases hk
    obtain ⟨-, rfl⟩ := push_next hp
    have hstack : A .stack := by simpa [Claims.writes] using hwr
    exact (push_changes hstack hp).trans (changes_setPcRaw (relTarget_even n))
  | .push, _, _, hwr, h =>
    obtain ⟨s1, hp, hk⟩ := andThen_next h
    cases hk
    have hstack : A .stack := by simpa [Claims.writes] using hwr
    exact (push_changes hstack hp).trans (changes_advance rfl)
  | .pop, _, _, hwr, h =>
    obtain ⟨⟨v, s1⟩, hp, hk⟩ := andThen_next h
    cases hk
    have hstack : A .stack := by simpa [Claims.writes] using hwr
    exact (pop_changes hstack hp).trans (changes_advance rfl)
  | .clrwdt, _, _, hwr, h =>
    cases h
    obtain ⟨hw, hp, hto, hpd⟩ : A .wdt ∧ A .wdtPost ∧ A .to ∧ A .pd := by simpa [Claims.writes] using hwr
    exact (changes_advance (n := 2) rfl).trans ((changes_setWdt hw hp 0 0).trans (changes_setToPd hto hpd true true))
  | .sleep, _, _, hwr, h =>
    cases h
    obtain ⟨hw, hp, hto, hpd, hm⟩ : A .wdt ∧ A .wdtPost ∧ A .to ∧ A .pd ∧ A .mode := by simpa [Claims.writes] using hwr
    exact (changes_advance (n := 2) rfl).trans
      ((changes_setWdt hw hp 0 0).trans ((changes_setToPd hto hpd true false).trans (changes_setMode hm .sleeping)))
  | .daw, _, _, hwr, h =>
    cases h
    obtain ⟨hw, hc⟩ : A .w ∧ A .c := by simpa [Claims.writes] using hwr
    exact (changes_advance (n := 2) rfl).trans
      ((changes_setW hw _).trans (changes_setFlags ⟨.inl hc, .inr rfl, .inr rfl, .inr rfl, .inr rfl⟩))
  | .retfie fast, _, _, hwr, h =>
    rw [exec] at h
    refine interruptReturn_changes (hwr _ ?_) (hwr _ ?_) (hwr _ ?_) (fun hf => ?_) h
    · simp [Claims.writes]
    · simp [Claims.writes]
    · simp [Claims.writes]
    · subst hf
      exact ⟨hwr _ (by simp [Claims.writes]), hwr _ (by simp [Claims.writes]),
        fun r hr => hwr r (by simp [Claims.writes, hr])⟩
  | .ret fast, _, _, hwr, h =>
    rw [exec] at h
    refine returnTo_changes (hwr _ ?_) (fun hf => ?_) h
    · simp [Claims.writes]
    · subst hf
      exact ⟨hwr _ (by simp [Claims.writes]), hwr _ (by simp [Claims.writes]),
        fun r hr => hwr r (by simp [Claims.writes, hr])⟩
  | .retlw k, _, _, hwr, h =>
    obtain ⟨hw, hstack⟩ : A .w ∧ A .stack := by simpa [Claims.writes] using hwr
    exact (changes_setW hw k).trans (returnTo_changes (fast := false) hstack nofun h)
  | .addlw k, _, _, hwr, h | .sublw k, _, _, hwr, h =>
    rw [exec] at h
    exact literalOp_changes (hwr _ (List.mem_cons_self ..)) (.all (fun r hr => hwr r (List.mem_cons_of_mem _ hr)) _ _) h
  | .andlw k, _, _, hwr, h | .iorlw k, _, _, hwr, h | .xorlw k, _, _, hwr, h =>
    obtain ⟨hw, hz, hn⟩ : A .w ∧ A .z ∧ A .n := by simpa [Claims.writes] using hwr
    rw [exec] at h
    exact literalOp_changes hw (.zn hz hn _ _) h
  | .movlw k, _, _, hwr, h =>
    have hw : A .w := by simpa [Claims.writes] using hwr
    rw [exec] at h
    exact literalOp_changes hw (.refl _) h
  | .lfsr f k, _, _, hwr, h =>
    exact lfsr_changes hwr h
  | .movlb k, _, _, hwr, h =>
    cases h
    have hb : A .bsr := by simpa [Claims.writes] using hwr
    exact (changes_advance (n := 2) rfl).trans (changes_setBsr hb k)
  | .mullw k, _, _, hwr, h =>
    cases h
    obtain ⟨hh, hl⟩ : A .prodh ∧ A .prodl := by simpa [Claims.writes] using hwr
    exact (changes_advance (n := 2) rfl).trans (changes_setProd (.inl hh) (.inl hl))
  | .tblrd, _, _, hwr, h =>
    have ht : A .tablat := by simpa [Claims.writes] using hwr
    rw [exec] at h
    exact tableRead_changes ht (.inl rfl) h
  | .tblrdPostInc, _, _, hwr, h | .tblrdPostDec, _, _, hwr, h | .tblrdPreInc, _, _, hwr, h =>
    obtain ⟨ht, hp⟩ : A .tablat ∧ A .tblptr := by simpa [Claims.writes] using hwr
    rw [exec] at h
    exact tableRead_changes ht (.inr hp) h
  | .tblwt, _, _, hwr, h =>
    have hh : A .hold := by simpa [Claims.writes] using hwr
    rw [exec] at h
    exact tableWrite_changes hh (.inl rfl) h
  | .tblwtPostInc, _, _, hwr, h | .tblwtPostDec, _, _, hwr, h | .tblwtPreInc, _, _, hwr, h =>
    obtain ⟨hh, hp⟩ : A .hold ∧ A .tblptr := by simpa [Claims.writes] using hwr
    rw [exec] at h
    exact tableWrite_changes hh (.inr hp) h

/-- Where every register is allowed, every instruction is covered. -/
theorem covers_all (s : State) (i : Instr) : Covers (fun _ => True) s i :=
  ⟨fun _ _ => trivial, fun _ _ _ _ _ _ => trivial, fun _ _ _ => ⟨trivial, trivial⟩⟩

/-! ### The frames -/

/-- Settles O45: the memory part of what an instruction changes; `reset` without an entry for data memory leaves it. -/
theorem memoryFrame : Obligations.MemoryFrame := by
  intro i s t h hreset
  have hram : t.ram = s.ram ∨ ∃ a v, storeAt s i = some a ∧ s.place a = .ram ∧ t.ram = s.ram.write a.toNat v := by
    by_cases hi : i = .reset
    · subst hi
      cases h
      rw [resetBy_ram, show (ResetState.column s.cfg.resetState .software).ram = .absent from hreset rfl]
      exact .inl rfl
    · exact (exec_changes (covers_all s i) hi h).ram
  rcases hram with hram | ⟨a, v, ha, hp, hram⟩
  · rw [hram]
    exact ⟨fun _ _ _ _ => rfl, fun _ _ _ _ => rfl, fun _ _ => rfl⟩
  · rw [hram, ha]
    refine ⟨fun x hx m hm => ?_, fun x hx hnot => ?_, nofun⟩
    · cases hx
      exact Memory.read_write_other _ hm v
    · cases hx
      exact absurd hp hnot

/-- A reset sets or keeps every register but program memory, the parameters and the schedule, which it keeps. -/
theorem resetBy_same {c : ResetCause} {r : Reg} (h : r ∉ writes .reset) : r.same s (s.resetBy c) := by
  cases r <;> simp_all [writes, allFlags, Reg.same]

/-- Settles O46: the register part of what an instruction changes, with every register but `r` allowed. -/
theorem registerFrame : Obligations.RegisterFrame := by
  intro i s t r h hwr hst hld
  by_cases hi : i = .reset
  · subst hi
    cases h
    exact resetBy_same hwr
  · have hA : Covers (· ≠ r) s i := by
      refine ⟨fun q hq he => hwr (he ▸ hq), fun x q hx hq p hp he => hst x q hx hq (he ▸ hp), fun x hx hp => ?_⟩
      obtain ⟨hh, hu⟩ := hld x hx hp
      exact ⟨hh.symm, hu.symm⟩
    exact (exec_changes hA hi h).regs r (not_not_intro rfl)

/-! ### Events -/

/-- At a boundary the schedule and the watchdog's counts move. -/
theorem arrive_changes (s : State) : Changes (fun _ => True) none s s.arrive :=
  (changes_setInputs trivial _).trans (changes_setWdt trivial trivial _ _)

/-- An interrupt entry that answers. -/
theorem interruptEntry_changes {level : Level} (h : s.interruptEntry level = .next t) :
    Changes (fun _ => True) none s t := by
  obtain ⟨hroom, rfl⟩ := interruptEntry_next h
  have hsave : Changes (fun _ => True) none s ((s.setStack (s.pc :: s.stack)).saveFast.setMode .running) :=
    (changes_setStack (l := s.pc :: s.stack) trivial fun _ => hroom).trans
      ((saveFast_changes trivial trivial trivial).trans (changes_setMode trivial _))
  cases level <;> exact hsave.trans ((changes_setGie trivial trivial _ _).trans (changes_setPc _))

/-- What a step that answers did: a reset, or a change from the state after the boundary's input arrived. -/
theorem step_changes (h : step s = .next t) :
    (∃ u c, Changes (fun _ => True) none s u ∧ t = u.resetBy c) ∨ ∃ x, Changes (fun _ => True) x s t := by
  have harr := arrive_changes s
  have hto := fun b => changes_setToPd (A := fun _ => True) (s := s.arrive) trivial trivial false b
  rcases step_next h with ⟨o, ho, rfl⟩ | ⟨-, rfl⟩ | ⟨-, i, -, hexec⟩
  · generalize hn : Host.Outcome.next t = o at ho
    cases ho with
    | mclr =>
      cases hn
      exact .inl ⟨_, _, harr, rfl⟩
    | wdtReset =>
      cases hn
      exact .inl ⟨_, _, harr.trans (hto _), rfl⟩
    | wdtWake =>
      cases hn
      exact .inr ⟨_, harr.trans ((hto _).trans (changes_setMode trivial _))⟩
    | wake =>
      cases hn
      exact .inr ⟨_, harr.trans (changes_setMode trivial _)⟩
    | entry level => exact .inr ⟨_, harr.trans (interruptEntry_changes hn.symm)⟩
  · exact .inr ⟨_, harr⟩
  · by_cases hi : i = .reset
    · subst hi
      cases hexec
      exact .inl ⟨_, _, harr, rfl⟩
    · exact .inr ⟨_, harr.trans (exec_changes (covers_all _ i) hi hexec)⟩

/-- Settles O47: neither a reset nor any other change touches program memory or the parameters. -/
theorem programNeverChanges : Obligations.ProgramNeverChanges := by
  intro s t h
  rcases step_changes h with ⟨u, c, hu, rfl⟩ | ⟨x, hx⟩
  · exact ⟨hu.prog, hu.cfg⟩
  · exact ⟨hx.prog, hx.cfg⟩

/-! ### The invariant -/

/-- What may change keeps the invariant: a store goes to an implemented byte. -/
theorem Changes.inv (h : Changes A x s t) (hs : s.Inv) : t.Inv := by
  have hplace : t.place = s.place := by unfold State.place; rw [h.cfg]
  have hok : t.ramByteOk = s.ramByteOk := by unfold State.ramByteOk; rw [hplace]
  have hram : t.ram.wf = true ∧ t.ram.all t.ramByteOk = true := by
    rw [hok]
    rcases h.ram with heq | ⟨a, v, -, ha, heq⟩
    · rw [heq]
      exact ⟨hs.ramCanonical, hs.ramImplemented⟩
    · rw [heq, List.all_eq_true]
      refine ⟨Memory.write_wf hs.ramCanonical _ _, fun c hc => ?_⟩
      rcases Memory.mem_write hc with hold | rfl
      · exact List.all_eq_true.mp hs.ramImplemented c hold
      · simp [State.ramByteOk, ha, a.isLt]
  obtain ⟨hcanon, himpl⟩ := hram
  exact ⟨h.even hs.pcEven, hcanon, himpl, h.prog ▸ hs.progCanonical, h.cfg ▸ h.depth hs.stackBounded⟩

/-- Data memory after a reset is canonical and lists implemented bytes only, if it did so before. -/
theorem ramAfter_inv {p : Params} {r : ResetTo (List Host.Cell)} {old : Memory} {free : Nat → Byte}
    (hwf : old.wf = true) (hok : ∀ c ∈ old, c.1 < 4096 ∧ Params.place p (BitVec.ofNat 12 c.1) = .ram) :
    (Params.ramAfter p r old free).wf = true ∧
      ∀ c ∈ Params.ramAfter p r old free, c.1 < 4096 ∧ Params.place p (BitVec.ofNat 12 c.1) = .ram := by
  have hfill (val : Nat → Byte) : (Params.fillRam p val 4096 []).wf = true ∧
      ∀ c ∈ Params.fillRam p val 4096 [], c.1 < 4096 ∧ Params.place p (BitVec.ofNat 12 c.1) = .ram := by
    refine ⟨fillRam_wf p val 4096 rfl, fun c hc => ?_⟩
    rcases mem_fillRam hc with hnil | h
    · cases hnil
    · exact h
  cases r with
  | value m =>
    rw [Params.ramAfter]
    exact hfill (Memory.read m)
  | unspecified =>
    rw [Params.ramAfter]
    exact hfill free
  | absent => exact ⟨hwf, hok⟩

theorem ramByteOk_iff (s : State) (c : Host.Cell) :
    s.ramByteOk c = true ↔ c.1 < 4096 ∧ Params.place s.cfg (BitVec.ofNat 12 c.1) = .ram := by
  rw [State.ramByteOk, Bool.and_eq_true, decide_eq_true_iff, decide_eq_true_iff]
  rfl

/-- Every reset keeps the invariant. -/
theorem resetBy_inv (c : ResetCause) (hs : s.Inv) : (s.resetBy c).Inv := by
  have himpl := hs.ramImplemented
  simp only [List.all_eq_true, ramByteOk_iff] at himpl
  obtain ⟨hwf, hok⟩ := ramAfter_inv (r := (ResetState.column s.cfg.resetState c).ram)
    (free := fun a => Config.freeByte (s.freeIx + 32 + a)) hs.ramCanonical himpl
  refine ⟨alignPc_bitZero _, hwf, ?_, hs.progCanonical, stackAfter_length hs.stackBounded⟩
  simp only [List.all_eq_true, ramByteOk_iff]
  exact hok

/-- Settles O48: a step is a reset or a change, and both keep the invariant. -/
theorem stepKeepsTheInvariant : Obligations.StepKeepsTheInvariant := by
  intro s t hs h
  rcases step_changes h with ⟨u, c, hu, rfl⟩ | ⟨x, hx⟩
  · exact resetBy_inv c (hu.inv hs)
  · exact hx.inv hs

/-- Settles O49: power-on leaves nothing listed but what the column fills in. -/
theorem resetMeetsTheInvariant : Obligations.ResetMeetsTheInvariant := by
  have hpower (p : Params) : (State.powerOn p).Inv := by
    obtain ⟨hwf, hok⟩ := ramAfter_inv (p := p) (r := p.resetState.powerOn.ram) (old := []) (free := fun _ => unlisted) rfl nofun
    refine ⟨alignPc_bitZero _, hwf, ?_, rfl, stackAfter_length (Nat.zero_le _)⟩
    simp only [List.all_eq_true, ramByteOk_iff]
    exact hok
  exact ⟨hpower defaultParams, hpower⟩

end Sys2Proof.Machine
end

section
/-! PROOFS about one step: the fetch (20_memory.md R68, R69, R71), the words that fault (30_encoding.md R94, R99) and what a
step executes. -/

namespace Sys2Proof.Machine

open Sys2Proof.Claims

/-! ### First words of two -/

/-- A bit range with a value, in integers. -/
theorem range_eq_iff {w l : Nat} (x : BitVec w) (s : Nat) (v : BitVec l) :
    x.extractLsb' s l = v ↔ x.toNat / 2 ^ s % 2 ^ l = v.toNat := by
  rw [← BitVec.toNat_inj, toNat_range]

/-- The first word of `lfsr`, in integers. -/
theorem lfsrWord_iff (w : BitVec 16) : lfsrWord w ↔ w.toNat / 64 = 0x3B8 := by
  have hlt := w.isLt
  rw [lfsrWord, range_eq_iff]
  simp only [BitVec.toNat_ofNat]
  omega

/-- Which first words open two: the half the decoder finds, and whether it is that of `lfsr`. -/
theorem decodeFirst_of_twoWords {w : BitVec 16} (hw : twoWords w) :
    ∃ h, decodeFirst (high w) (low w) = .half h ∧
      ((lfsrWord w ∧ ∃ k, h = .lfsr (w.extractLsb' 4 2) k) ∨ (¬ lfsrWord w ∧ ∀ f k, h ≠ .lfsr f k)) := by
  rcases hw with hw | hw | hw | hw
  · have hhigh : high w = 0b1100#4 ++ w.extractLsb' 8 4 :=
      (range_eq_append_iff (m := 4) (n := 4) w 8 _ _).mpr ⟨hw, rfl⟩
    refine ⟨.movff (w.extractLsb' 8 4) (low w), by rw [hhigh, decodeFirst_movff], .inr ⟨?_, nofun⟩⟩
    rw [lfsrWord_iff]
    simp only [range_eq_iff, BitVec.toNat_ofNat] at hw
    omega
  · obtain ⟨s, hs⟩ : ∃ s, w.extractLsb' 8 1 = BitVec.ofBool s := by
      generalize w.extractLsb' 8 1 = b
      revert b
      decide
    have hhigh : high w = 0b1110110#7 ++ BitVec.ofBool s :=
      (range_eq_append_iff (m := 7) (n := 1) w 8 _ _).mpr ⟨hw, hs⟩
    refine ⟨.call s (low w), by rw [hhigh, decodeFirst_call], .inr ⟨?_, nofun⟩⟩
    rw [lfsrWord_iff]
    simp only [range_eq_iff, BitVec.toNat_ofNat] at hw
    omega
  · have hhigh : high w = 0b11101111#8 := hw
    refine ⟨.goto (low w), by rw [hhigh, decodeFirst_goto], .inr ⟨?_, nofun⟩⟩
    rw [lfsrWord_iff]
    simp only [range_eq_iff, BitVec.toNat_ofNat] at hw
    omega
  · obtain ⟨hhigh, hup⟩ := (range_eq_append_iff (m := 8) (n := 2) w 6 0b11101110#8 0b00#2).mp hw
    have hlow : low w = 0b00#2 ++ w.extractLsb' 4 2 ++ w.extractLsb' 0 4 :=
      (range_eq_append_iff (m := 4) (n := 4) w 0 _ _).mpr
        ⟨(range_eq_append_iff (m := 2) (n := 2) w 4 _ _).mpr ⟨hup, rfl⟩, rfl⟩
    exact ⟨_, by rw [show high w = 0b11101110#8 from hhigh, hlow, decodeFirst_lfsr], .inl ⟨hw, _, rfl⟩⟩

/-- A second word without 1111 is rejected. -/
theorem decodeSecond_not_second (h : Half) {hi : Byte} (hhi : hi.extractLsb' 4 4 ≠ 0xF#4) (lo : Byte) :
    decodeSecond h hi lo = .error .badSecondWord := by
  unfold decodeSecond
  exact if_neg hhi

/-- The second word of `lfsr` needs 1111 0000. -/
theorem decodeSecond_lfsr_bad (f : BitVec 2) (k : BitVec 4) {hi : Byte} (hhi : hi ≠ 0xF0#8) (lo : Byte) :
    decodeSecond (.lfsr f k) hi lo = .error .badSecondWord := by
  by_cases hup : hi.extractLsb' 4 4 = 0xF#4
  · have hlow : hi.extractLsb' 0 4 ≠ 0 := fun hlow =>
      hhi ((eq_append_iff (m := 4) (n := 4) hi 0xF#4 0x0#4).mpr ⟨hup, hlow⟩)
    unfold decodeSecond
    rw [if_pos hup]
    exact if_neg hlow
  · exact decodeSecond_not_second _ hup lo

/-- A proper second word completes any other first word. -/
theorem decodeSecond_ok {h : Half} {hi : Byte} (hup : hi.extractLsb' 4 4 = 0xF#4)
    (hlfsr : ∀ f k, h = .lfsr f k → hi = 0xF0#8 ∧ f ≠ 3) (lo : Byte) : ∃ i, decodeSecond h hi lo = .ok i := by
  have hhi : hi = 0b1111#4 ++ hi.extractLsb' 0 4 := (eq_append_iff (m := 4) (n := 4) hi _ _).mpr ⟨hup, rfl⟩
  cases h with
  | movff x l => exact ⟨_, by rw [hhi, decodeSecond_movff]⟩
  | call s l => exact ⟨_, by rw [hhi, decodeSecond_call]⟩
  | goto l => exact ⟨_, by rw [hhi, decodeSecond_goto]⟩
  | lfsr f k =>
    obtain ⟨rfl, hf⟩ := hlfsr f k rfl
    exact ⟨_, decodeSecond_lfsr hf k lo⟩

/-- The high byte of a word of which 15:12 are looked at. -/
theorem high_upper (w : BitVec 16) : (high w).extractLsb' 4 4 = w.extractLsb' 12 4 := extractLsb'_extractLsb'_of_le w (by decide)

/-- A bad second word is rejected. -/
theorem decode_badSecond {w1 w2 : BitVec 16} (h1 : twoWords w1) (h2 : badSecond w1 w2) (rest : List Byte) :
    decode (low w1 :: high w1 :: low w2 :: high w2 :: rest) = .error .badSecondWord := by
  obtain ⟨h, hfirst, hkind⟩ := decodeFirst_of_twoWords h1
  rw [decode_half hfirst]
  rcases h2 with h2 | ⟨hl, h2⟩
  · exact decodeSecond_not_second h (by rwa [high_upper]) _
  · rcases hkind with ⟨-, k, rfl⟩ | ⟨hnot, -⟩
    · exact decodeSecond_lfsr_bad _ _ h2 _
    · exact absurd hl hnot

/-- A proper second word is taken, but for `lfsr` with f = 3. -/
theorem decode_goodSecond {w1 w2 : BitVec 16} (h1 : twoWords w1) (h2 : ¬ badSecond w1 w2)
    (hf : ¬ (lfsrWord w1 ∧ w1.extractLsb' 4 2 = 3#2)) (rest : List Byte) :
    ∃ i, decode (low w1 :: high w1 :: low w2 :: high w2 :: rest) = .ok i ∧ (encode i).length = 4 := by
  obtain ⟨h, hfirst, hkind⟩ := decodeFirst_of_twoWords h1
  rw [badSecond, not_or, Decidable.not_not, not_and, Decidable.not_not] at h2
  obtain ⟨hup, hlow⟩ := h2
  have hlfsr : ∀ f k, h = .lfsr f k → high w2 = 0xF0#8 ∧ f ≠ 3 := by
    rintro f k rfl
    rcases hkind with ⟨hl, k', heq⟩ | ⟨-, hne⟩
    · cases heq
      exact ⟨hlow hl, fun h3 => hf ⟨hl, h3⟩⟩
    · exact absurd rfl (hne f k)
  obtain ⟨i, hi⟩ := decodeSecond_ok (by rwa [high_upper]) hlfsr (low w2)
  obtain ⟨henc, -⟩ := encode_of_decodeSecond hi
  refine ⟨i, by rw [decode_half hfirst, hi], ?_⟩
  rw [henc]
  cases h <;> rfl

/-- A word 1111 xxxx xxxx xxxx met first is a `nop`. -/
theorem decode_second_first {w : BitVec 16} (hw : w.extractLsb' 12 4 = 0xF#4) (rest : List Byte) :
    decode (low w :: high w :: rest) = .ok (.nopx (w.extractLsb' 8 4 ++ low w)) := by
  have hhigh : high w = 0b1111#4 ++ w.extractLsb' 8 4 :=
    (range_eq_append_iff (m := 4) (n := 4) w 8 _ _).mpr ⟨hw, rfl⟩
  rw [hhigh]
  exact reads_of_decodeFirst (decodeFirst_nopx _ _) rest

/-! ### Words that are no instruction -/

/-- R98's gaps. -/
theorem decodeSystem_unassigned_iff (lo : Byte) :
    decodeSystem lo = .unassigned ↔ lo.toNat = 1 ∨ lo.toNat = 2 ∨ (0x14 ≤ lo.toNat ∧ lo.toNat ≤ 0xFE) := by
  revert lo
  decide

/-- R96's gaps. -/
theorem decodeZero_unassigned_iff (hi lo : Byte) :
    decodeZero hi lo = .unassigned ↔
      (hi.toNat % 16 = 0 ∧ (lo.toNat = 1 ∨ lo.toNat = 2 ∨ (0x14 ≤ lo.toNat ∧ lo.toNat ≤ 0xFE))) ∨
        (hi.toNat % 16 = 1 ∧ 0x10 ≤ lo.toNat) := by
  have hlo := lo.isLt
  have hnib : (hi.extractLsb' 0 4).toNat = hi.toNat % 16 := by
    rw [toNat_range]
    omega
  have hbank : lo.extractLsb' 4 4 = 0 ↔ lo.toNat < 0x10 := by
    rw [range_eq_iff]
    change _ = 0 ↔ _
    omega
  unfold decodeZero
  rw [hnib]
  split
  case h_1 hr =>
    rw [decodeSystem_unassigned_iff]
    omega
  case h_2 hr =>
    simp only [hbank]
    split
    · simp only [reduceCtorEq, false_iff]
      omega
    · simp only [true_iff]
      omega
  all_goals
    simp only [reduceCtorEq, false_iff, imp_false] at *
    omega

/-- R97's gaps. -/
theorem decodeBranch_unassigned_iff (hi lo : Byte) :
    decodeBranch hi lo = .unassigned ↔
      (8 ≤ hi.toNat % 16 ∧ hi.toNat % 16 ≤ 11) ∨ (hi.toNat % 16 = 14 ∧ 0x40 ≤ lo.toNat) := by
  have hlo := lo.isLt
  have hnib : (hi.extractLsb' 0 4).toNat = hi.toNat % 16 := by
    rw [toNat_range]
    omega
  have hfsr : lo.extractLsb' 6 2 = 0 ↔ lo.toNat < 0x40 := by
    rw [range_eq_iff]
    change _ = 0 ↔ _
    omega
  unfold decodeBranch
  rw [hnib]
  split
  case h_9 | h_10 | h_11 | h_12 =>
    simp only [true_iff]
    omega
  case h_15 hr =>
    simp only [hfsr]
    split
    · simp only [reduceCtorEq, false_iff]
      omega
    · simp only [true_iff]
      omega
  all_goals
    simp only [reduceCtorEq, false_iff, imp_false] at *
    omega

/-- R99: the words that belong to no instruction are the gaps of rows 0 and 14. -/
theorem decodeFirst_unassigned_iff (w : BitVec 16) : decodeFirst (high w) (low w) = .unassigned ↔ unassigned w := by
  have hw : 256 * (high w).toNat + (low w).toNat = w.toNat := high_low_toNat w
  have hhigh := (high w).isLt
  have hlow := (low w).isLt
  have hnib : ((high w).extractLsb' 4 4).toNat = (high w).toNat / 16 := by
    rw [toNat_range]
    omega
  unfold decodeFirst unassigned
  dsimp only
  rw [hnib]
  split
  case h_1 =>
    rw [decodeZero_unassigned_iff]
    omega
  case h_15 =>
    rw [decodeBranch_unassigned_iff]
    omega
  all_goals
    simp only [reduceCtorEq, false_iff, imp_false] at *
    omega

/-- The decoder says `unassigned` of the first word alone. -/
theorem decode_unassigned_iff (hi lo : Byte) (rest : List Byte) :
    decode (lo :: hi :: rest) = .error .unassignedEncoding ↔ decodeFirst hi lo = .unassigned := by
  cases hfirst : decodeFirst hi lo with
  | whole i => simp [decode, hfirst]
  | unassigned => simp [decode, hfirst]
  | half h =>
    have hsecond (hi2 lo2 : Byte) : decodeSecond h hi2 lo2 ≠ .error .unassignedEncoding := by
      unfold decodeSecond
      cases h with
      | movff | call | goto => split <;> nofun
      | lfsr f k =>
        dsimp only
        split
        · split
          · split <;> nofun
          · nofun
        · nofun
    match rest with
    | [] | [_] => simp [decode, hfirst]
    | lo2 :: hi2 :: rest2 =>
      rw [decode_half hfirst]
      exact ⟨fun h => absurd h (hsecond hi2 lo2), nofun⟩

/-! ### Fetching -/

/-- An implemented word is fetched low byte first (R68). -/
theorem wordBytes_of_inProgram {s : State} {p : PAddr} (h : inProgram s p) :
    s.wordBytes p = [low (wordAt s p), high (wordAt s p)] := by
  have hlow : low (wordAt s p) = s.progByte p := BitVec.extractLsb'_append_eq_right
  have hhigh : high (wordAt s p) = s.progByte (p + 1) := BitVec.extractLsb'_append_eq_left
  rw [hlow, hhigh]
  exact if_pos (decide_eq_true (p := p.toNat < s.cfg.progSize) h)

/-- A word outside implemented program memory has no bytes (R71). -/
theorem wordBytes_of_not_inProgram {s : State} {p : PAddr} (h : ¬ inProgram s p) : s.wordBytes p = [] :=
  if_neg (by simpa [State.progHas, inProgram] using h)

/-- The bytes fetched where the first word is implemented. -/
theorem fetchBytes_of_inProgram {s : State} (h : inProgram s s.pc) :
    s.fetchBytes = low (wordAt s s.pc) :: high (wordAt s s.pc) :: s.wordBytes (s.pc + 2) := by
  rw [State.fetchBytes, wordBytes_of_inProgram h]
  rfl

/-- The bytes fetched where it is not. -/
theorem fetchBytes_of_not_inProgram {s : State} (h : ¬ inProgram s s.pc) : s.fetchBytes = [] := by
  rw [State.fetchBytes, wordBytes_of_not_inProgram h]

/-- A step that executes runs what the bytes fetched decode to. -/
theorem step_of_decode_ok {s : State} {i : Instr} (h : s.Executes) (hi : decode s.fetchBytes = .ok i) :
    step s = exec i s.arrive := by
  rw [step_of_executes h, State.instrStep, arrive_fetchBytes, hi]

/-- A step that executes faults where the bytes fetched are rejected. -/
theorem step_of_decode_error {s : State} {e : DecodeError} (h : s.Executes) (he : decode s.fetchBytes = .error e) :
    step s = .fault (DecodeError.fault e) := by
  rw [step_of_executes h, State.instrStep, arrive_fetchBytes, he]

/-- Settles O4: the decoder's gaps are R99's ranges, and a step faults there as the decoder says. -/
theorem unassignedEncodings : Obligations.UnassignedEncodings := by
  have hwords (w : BitVec 16) (rest : List Byte) :
      decode ([low w, high w] ++ rest) = .error .unassignedEncoding ↔ unassigned w :=
    (decode_unassigned_iff _ _ rest).trans (decodeFirst_unassigned_iff w)
  refine ⟨hwords, fun k lo2 rest => ?reserved, fun s hs hp hu => ?step⟩
  case reserved => exact decode_half (decodeFirst_lfsr 3#2 k) lo2 0xF0#8 rest
  case step =>
    refine step_of_decode_error hs (e := .unassignedEncoding) ?_
    rw [fetchBytes_of_inProgram hp]
    exact (hwords _ _).mpr hu

/-- Settles O5: the second word is judged by the half that the first word opens. -/
theorem secondWords : Obligations.SecondWords := by
  refine ⟨fun w1 w2 rest h1 h2 => decode_badSecond h1 h2 rest, fun w1 w2 rest h1 h2 hf => decode_goodSecond h1 h2 hf rest,
    fun s hs hp hp2 h1 h2 => ?bad, fun s hs hp hw => ?first⟩
  case bad =>
    refine step_of_decode_error hs (e := .badSecondWord) ?_
    rw [fetchBytes_of_inProgram hp, wordBytes_of_inProgram hp2]
    exact decode_badSecond h1 h2 []
  case first =>
    rw [step_of_decode_ok hs (by rw [fetchBytes_of_inProgram hp]; exact decode_second_first hw _)]
    rfl

/-- Settles O6: each word is an encoding, and so decodes to what it encodes. -/
theorem sampleWords : Obligations.SampleWords :=
  ⟨fun rest => decodeEncode (.movlw 0x84) rest rfl, fun rest => decodeEncode (.bsf 0x25 4 .access) rest rfl,
    fun rest => decodeEncode (.movff 0x120 0x245) rest rfl, fun rest => decodeEncode (.call 0x100 true) rest rfl,
    fun rest => decodeEncode (.lfsr 2 0x3AB) rest rfl, fun rest => decodeEncode (.bra 0x7FF) rest rfl,
    fun rest => decodeEncode .tblrdPostInc rest rfl, fun rest => decodeEncode (.addwf 0x32 .w .banked) rest rfl⟩

/-- Where nothing is scheduled, nothing arrives. -/
theorem arrive_of_no_inputs {s : State} (h : s.inputs = []) : s.arrive = s := by
  cases s
  simp_all [State.arrive, State.boundary, EnvInput.quiet, State.setInputs, State.setWdt]

/-- Settles O7. -/
theorem stepRunsTheDecodedInstruction : Obligations.StepRunsTheDecodedInstruction := by
  refine ⟨fun s i => step_of_decode_ok, fun s => arrive_of_no_inputs, fun s hp hp2 => ?both, fun s hp hp2 => ?one⟩
  case both => rw [fetchBytes_of_inProgram hp, wordBytes_of_inProgram hp2]
  case one => rw [fetchBytes_of_inProgram hp, wordBytes_of_not_inProgram hp2]

/-- Settles O8: the decoder misses the word that the fetch does not find. -/
theorem fetchOutsideProgramFaults : Obligations.FetchOutsideProgramFaults := by
  refine ⟨fun s hs hp => ?first, fun s hs hp h1 hp2 => ?second⟩
  case first => exact step_of_decode_error hs (by rw [fetchBytes_of_not_inProgram hp]; rfl)
  case second =>
    obtain ⟨h, hfirst, -⟩ := decodeFirst_of_twoWords h1
    refine step_of_decode_error hs (e := .truncated) ?_
    rw [fetchBytes_of_inProgram hp, wordBytes_of_not_inProgram hp2]
    simp only [decode, hfirst]

/-- Settles O9: the configuration is looked at first. -/
theorem extendedModeRefused : Obligations.ExtendedModeRefused := fun _ h => if_pos h

end Sys2Proof.Machine
end

section
/-! PROOFS about resets (70_reset_and_hazards.md R291, R292) and events (60_exceptions.md R264 to R276). -/

namespace Sys2Proof.Machine

open Sys2Proof.Claims

/-! ### What a reset leaves -/

/-- Every element but the stack and data memory becomes what its entry says. -/
theorem becomes_resetTo {α : Type} (r : ResetTo α) (old free : α) : Becomes r old (resetTo r old free) := by
  cases r with
  | value v => rfl
  | unspecified => trivial
  | absent => rfl

/-- A value of the column is the element's value. -/
theorem givenBy_resetTo {α : Type} (r : ResetTo α) (old free : α) : GivenBy r (resetTo r old free) := by
  rintro v rfl
  rfl

/-- A stack that fits is the stack. -/
theorem stackAfter_value {p : Params} {l : List PAddr} (h : l.length ≤ p.stackDepth) (old free : List PAddr) :
    Params.stackAfter p (.value l) old free = l :=
  List.take_of_length_le h

/-- Data memory at an implemented address after a reset whose column gives data memory. -/
theorem ramAfter_value_read (p : Params) (m old : Memory) (free : Nat → Byte) {x : DAddr} (hx : Params.place p x = .ram) :
    (Params.ramAfter p (.value m) old free).read x.toNat = Memory.read m x.toNat := by
  have hin : x.toNat < 4096 ∧ Params.place p (BitVec.ofNat 12 x.toNat) = .ram := by
    rw [BitVec.ofNat_toNat, BitVec.setWidth_eq]
    exact ⟨x.isLt, hx⟩
  rw [Params.ramAfter, fillRam_read rfl, if_pos hin]

/-- Every reset follows its column (R292). -/
theorem afterReset_resetBy (s : State) (c : ResetCause) :
    AfterReset (ResetState.column s.cfg.resetState c) s (s.resetBy c) where
  pc := alignPc_of_even
  mode := rfl
  stack := by
    rw [resetBy_stack]
    constructor
    · intro l hl hfit
      rw [hl]
      exact stackAfter_value hfit _ _
    · intro habs
      rw [habs]
      rfl
  pclath := becomes_resetTo _ _ _
  pclatu := becomes_resetTo _ _ _
  bsr := becomes_resetTo _ _ _
  tblptr := becomes_resetTo _ _ _
  tablat := becomes_resetTo _ _ _
  gieh := becomes_resetTo _ _ _
  giel := becomes_resetTo _ _ _
  timeout := becomes_resetTo _ _ _
  powerDown := becomes_resetTo _ _ _
  wdt := becomes_resetTo _ _ _
  wdtPost := becomes_resetTo _ _ _
  w := becomes_resetTo _ _ _
  c := becomes_resetTo _ _ _
  dc := becomes_resetTo _ _ _
  z := becomes_resetTo _ _ _
  ov := becomes_resetTo _ _ _
  n := becomes_resetTo _ _ _
  fsr0 := becomes_resetTo _ _ _
  fsr1 := becomes_resetTo _ _ _
  fsr2 := becomes_resetTo _ _ _
  prodh := becomes_resetTo _ _ _
  prodl := becomes_resetTo _ _ _
  ws := becomes_resetTo _ _ _
  statuss := becomes_resetTo _ _ _
  bsrs := becomes_resetTo _ _ _
  hold := becomes_resetTo _ _ _
  ram := by
    rw [resetBy_ram]
    constructor
    · intro m hm x hx
      rw [hm]
      exact ramAfter_value_read _ _ _ _ hx
    · intro habs
      rw [habs]
      rfl
  fixed := ⟨rfl, rfl, rfl⟩

/-- The default table but for its entry for TO. -/
theorem afterDefaultReset_of {s t : State} {r : ResetTo Bool} {b : Bool}
    (h : AfterReset { defaultMclr with toBit := r } s t) (hto : t.toBit = b) : AfterDefaultReset s t b where
  stack := h.stack.1 [] rfl (Nat.zero_le _)
  latches := ⟨h.pclath, h.pclatu⟩
  bank := h.bsr
  table := ⟨h.tblptr, h.tablat⟩
  enables := ⟨h.gieh, h.giel⟩
  timeout := hto
  powerDown := h.powerDown
  watchdog := ⟨h.wdt, h.wdtPost⟩
  kept := by
    have hflags : t.flags = s.flags := by
      have hc : t.flags.c = s.flags.c := h.c
      have hdc : t.flags.dc = s.flags.dc := h.dc
      have hz : t.flags.z = s.flags.z := h.z
      have hov : t.flags.ov = s.flags.ov := h.ov
      have hn : t.flags.n = s.flags.n := h.n
      calc t.flags = ⟨t.flags.c, t.flags.dc, t.flags.z, t.flags.ov, t.flags.n⟩ := rfl
        _ = s.flags := by rw [hc, hdc, hz, hov, hn]
    exact ⟨h.w, hflags, h.fsr0, h.fsr1, h.fsr2, h.prodh, h.prodl, h.ram.2 rfl⟩

/-- A reset by the MCLR column under the default table leaves TO as it was. -/
theorem afterDefaultReset_mclr {s t : State} (h : AfterReset s.cfg.resetState.mclr s t)
    (hdef : s.cfg.resetState = defaultResetState) : AfterDefaultReset s t s.toBit := by
  rw [hdef] at h
  exact afterDefaultReset_of (r := .absent) h h.timeout

/-- Settles O40: `reset` is the reset by the MCLR column. -/
theorem softwareReset : Obligations.SoftwareReset := by
  refine ⟨fun rest => decodeEncode .reset rest rfl, fun s => ⟨_, rfl, afterReset_resetBy s .software, fun hdef => ?_⟩⟩
  exact afterDefaultReset_mclr (afterReset_resetBy s .software) hdef

theorem powerOn_stack (p : Params) :
    (State.powerOn p).stack = Params.stackAfter p p.resetState.powerOn.stack [] [] := rfl

theorem powerOn_ram (p : Params) :
    (State.powerOn p).ram = Params.ramAfter p p.resetState.powerOn.ram [] (fun _ => unlisted) := rfl

/-- Settles O58: power-on takes each value of its column. -/
theorem powerOnFollowsResetState : Obligations.PowerOnFollowsResetState := fun p => {
  params := rfl
  pc := alignPc_of_even
  mode := rfl
  stack := fun l hl hfit => by
    rw [powerOn_stack, hl]
    exact stackAfter_value hfit _ _
  latches := ⟨givenBy_resetTo _ _ _, givenBy_resetTo _ _ _⟩
  bank := givenBy_resetTo _ _ _
  table := ⟨givenBy_resetTo _ _ _, givenBy_resetTo _ _ _, givenBy_resetTo _ _ _⟩
  enables := ⟨givenBy_resetTo _ _ _, givenBy_resetTo _ _ _⟩
  power := ⟨givenBy_resetTo _ _ _, givenBy_resetTo _ _ _⟩
  watchdog := ⟨givenBy_resetTo _ _ _, givenBy_resetTo _ _ _⟩
  w := givenBy_resetTo _ _ _
  flags := ⟨givenBy_resetTo _ _ _, givenBy_resetTo _ _ _, givenBy_resetTo _ _ _, givenBy_resetTo _ _ _,
    givenBy_resetTo _ _ _⟩
  fsr := ⟨givenBy_resetTo _ _ _, givenBy_resetTo _ _ _, givenBy_resetTo _ _ _⟩
  prod := ⟨givenBy_resetTo _ _ _, givenBy_resetTo _ _ _⟩
  shadow := ⟨givenBy_resetTo _ _ _, givenBy_resetTo _ _ _, givenBy_resetTo _ _ _⟩
  ram := fun m hm x hx => by
    rw [powerOn_ram, hm]
    exact ramAfter_value_read _ _ _ _ hx }

/-- Settles O50: the default power-on column, evaluated. -/
theorem powerOnValues : Obligations.PowerOnValues := by
  unfold Obligations.PowerOnValues
  decide

/-! ### Events -/

/-- The watchdog's overflow at a boundary is what the model tests (R272). -/
theorem wdtActs_iff (s : State) : wdtActs s ↔ (s.boundary.wdtOverflow && s.arrive.wdtMayOverflow) = true := by
  simp only [wdtActs, State.wdtMayOverflow, Bool.and_eq_true, Bool.or_eq_true, decide_eq_true_eq]
  rfl

/-- A step is the event that acts. -/
theorem step_of_event {s : State} {o : Res State} (hx : s.cfg.xinst = false)
    (he : s.arrive.event s.boundary = some o) : step s = o := by
  unfold step
  simp only [hx, he, Bool.false_eq_true, if_false]

/-- Without an event a sleeping core stays as it is. -/
theorem step_of_sleeping {s : State} (hx : s.cfg.xinst = false) (hm : s.mode = .sleeping)
    (he : s.arrive.event s.boundary = none) : step s = .next s.arrive := by
  unfold step
  simp only [hx, he, hm, Bool.false_eq_true, if_false]

/-- The events in their order (R267): MCLR. -/
theorem event_mclr {s : State} (h : s.boundary.mclr = true) :
    s.arrive.event s.boundary = some (.next (s.arrive.resetBy .mclr)) := by
  unfold State.event
  rw [if_pos h]

/-- Then a watchdog overflow. -/
theorem event_wdt {s : State} (hm : s.boundary.mclr = false) (h : wdtActs s) :
    s.arrive.event s.boundary = some (.next s.arrive.wdtOverflow) := by
  unfold State.event
  rw [hm, if_neg Bool.false_ne_true, if_pos ((wdtActs_iff s).mp h)]

/-- Then the requests, High before Low. -/
theorem event_requests {s : State} (h : noResetEvent s) :
    s.arrive.event s.boundary =
      (if s.boundary.intHigh then s.arrive.request .high else none).or
        (if s.boundary.intLow then s.arrive.request .low else none) := by
  obtain ⟨hm, hw⟩ := h
  rw [wdtActs_iff] at hw
  unfold State.event
  rw [hm, if_neg Bool.false_ne_true, if_neg hw]

/-- A request that passes the gating enters its handler. -/
theorem request_gated {s : State} {level : Level} (h : s.gated level = true) :
    s.request level = some (s.interruptEntry level) := if_pos h

/-- A request that the gating stops wakes a sleeping core. -/
theorem request_ungated_sleeping {s : State} {level : Level} (h : s.gated level = false) (hm : s.mode = .sleeping) :
    s.request level = some (.next (s.setMode .running)) := by
  unfold State.request
  simp only [h, hm, Bool.false_eq_true, if_false]

/-- A request that the gating stops does nothing to a running core. -/
theorem request_ungated_running {s : State} {level : Level} (h : s.gated level = false) (hm : s.mode = .running) :
    s.request level = none := by
  unfold State.request
  simp only [h, hm, Bool.false_eq_true, if_false]

/-- No request acts on a running core exactly where none asserted passes the gating. -/
theorem request_none_iff {s : State} (hm : s.mode = .running) (level : Level) (b : Bool) :
    (if b then s.request level else none) = none ↔ (b = true → s.gated level = false) := by
  cases b
  · simp
  · cases hg : s.gated level
    · simp [request_ungated_running hg hm]
    · simp [request_gated hg]

/-- An event of higher priority than a request is an event. -/
theorem noResetEvent_of_event_none {s : State} (h : s.arrive.event s.boundary = none) : noResetEvent s := by
  constructor
  · refine Bool.eq_false_iff.mpr fun hm => ?_
    rw [event_mclr hm] at h
    cases h
  · intro hw
    cases hm : s.boundary.mclr
    · rw [event_wdt hm hw] at h
      cases h
    · rw [event_mclr hm] at h
      cases h

/-- On a running core nothing acts exactly where no reset does and no request passes the gating. -/
theorem event_none_iff {s : State} (hm : s.mode = .running) :
    s.arrive.event s.boundary = none ↔ noResetEvent s ∧ (s.boundary.intHigh = true → s.gieh = false) ∧
      (s.boundary.intLow = true → (s.gieh && s.giel) = false) := by
  have hreq (h : noResetEvent s) : s.arrive.event s.boundary = none ↔
      (s.boundary.intHigh = true → s.gieh = false) ∧ (s.boundary.intLow = true → (s.gieh && s.giel) = false) := by
    rw [event_requests h, Option.or_eq_none_iff, request_none_iff (s := s.arrive) hm, request_none_iff (s := s.arrive) hm]
    rfl
  constructor
  · intro h
    exact ⟨noResetEvent_of_event_none h, (hreq (noResetEvent_of_event_none h)).mp h⟩
  · rintro ⟨hreset, h⟩
    exact (hreq hreset).mpr h

/-- Settles O51: the model's three conditions, with the event's read as the spec's. -/
theorem whenInstructionsRun : Obligations.WhenInstructionsRun := by
  intro s
  have hgate : (s.gieh && s.giel) = false ↔ ¬ (s.gieh = true ∧ s.giel = true) := by
    rw [← Bool.and_eq_true, Bool.not_eq_true]
  constructor
  · rintro ⟨hx, hm, he⟩
    obtain ⟨hreset, hhigh, hlow⟩ := (event_none_iff hm).mp he
    exact ⟨hx, hm, hreset, hhigh, fun h => hgate.mp (hlow h)⟩
  · rintro ⟨hx, hm, hreset, hhigh, hlow⟩
    exact ⟨hx, hm, (event_none_iff hm).mpr ⟨hreset, hhigh, fun h => hgate.mpr (hlow h)⟩⟩

/-- A High request that passes the gating is the event. -/
theorem event_high {s : State} (h : noResetEvent s) (hi : s.boundary.intHigh = true) (hg : s.gieh = true) :
    s.arrive.event s.boundary = some (s.arrive.interruptEntry .high) := by
  rw [event_requests h, if_pos hi, request_gated (s := s.arrive) (level := .high) hg, Option.some_or]

/-- A Low request that passes the gating is the event where no High request is asserted. -/
theorem event_low {s : State} (h : noResetEvent s) (hi : s.boundary.intHigh = false) (hl : s.boundary.intLow = true)
    (hg : (s.gieh && s.giel) = true) : s.arrive.event s.boundary = some (s.arrive.interruptEntry .low) := by
  rw [event_requests h, hi, if_neg Bool.false_ne_true, if_pos hl, request_gated (s := s.arrive) (level := .low) hg,
    Option.none_or]

/-- An interrupt entry without room on the stack faults. -/
theorem interruptEntry_full {s : State} (h : s.cfg.stackDepth ≤ s.stack.length) (level : Level) :
    s.interruptEntry level = .fault .stackOverflow := by
  rw [State.interruptEntry, State.push, if_neg (Nat.not_lt.mpr h), andThen_fault_left]

/-- PC takes an even address as it is. -/
theorem setPc_of_even {s : State} {v : PAddr} (h : v.getLsbD 0 = false) : s.setPc v = s.setPcRaw v := by
  rw [State.setPc, alignPc_of_even h]

/-- What entering the High handler leaves, with room on the stack and an even vector (R268). -/
theorem interruptEntry_high_room {s : State} (hroom : s.stack.length < s.cfg.stackDepth)
    (hv : s.cfg.intVecHigh.getLsbD 0 = false) :
    s.interruptEntry .high = .next { withSave s true with
      stack := s.pc :: s.stack, gieh := false, pc := s.cfg.intVecHigh, mode := .running } := by
  rw [interruptEntry_room hroom]
  exact congrArg Host.Outcome.next (setPc_of_even hv)

/-- The same for the Low handler. -/
theorem interruptEntry_low_room {s : State} (hroom : s.stack.length < s.cfg.stackDepth)
    (hv : s.cfg.intVecLow.getLsbD 0 = false) :
    s.interruptEntry .low = .next { withSave s true with
      stack := s.pc :: s.stack, giel := false, pc := s.cfg.intVecLow, mode := .running } := by
  rw [interruptEntry_room hroom]
  exact congrArg Host.Outcome.next (setPc_of_even hv)

/-- Settles O52: the request that acts enters its handler, whose vector is even. -/
theorem interruptEntry : Obligations.InterruptEntry := by
  refine ⟨fun s hx hr hi hg hv hroom => ?high, fun s hx hr hi hl hgh hgl hv hroom => ?low,
    fun s hx hr hreq hg hfull => ?full⟩
  case high =>
    rw [step_of_event hx (event_high hr hi hg)]
    exact interruptEntry_high_room (s := s.arrive) hroom hv
  case low =>
    rw [step_of_event hx (event_low hr hi hl (by rw [hgh, hgl]; rfl))]
    exact interruptEntry_low_room (s := s.arrive) hroom hv
  case full =>
    cases hi : s.boundary.intHigh
    · obtain ⟨hl, hgl⟩ := hreq.resolve_left (by rw [hi]; exact Bool.false_ne_true)
      rw [step_of_event hx (event_low hr hi hl (by rw [hg, hgl]; rfl)), interruptEntry_full (s := s.arrive) hfull]
    · rw [step_of_event hx (event_high hr hi hg), interruptEntry_full (s := s.arrive) hfull]

/-- Settles O53: MCLR is first among the events. -/
theorem mclrReset : Obligations.MclrReset := by
  intro s hx hm
  have hreset := afterReset_resetBy s.arrive .mclr
  exact ⟨_, step_of_event hx (event_mclr hm), hreset, fun hdef => afterDefaultReset_mclr hreset hdef⟩

/-- Settles O54: the overflow clears TO, and then wakes or resets by the power state. -/
theorem watchdogOverflow : Obligations.WatchdogOverflow := by
  intro s hx hm hw
  have hstep := step_of_event hx (event_wdt hm hw)
  constructor
  · intro hsleep
    rw [hstep, State.wdtOverflow, show s.arrive.mode = .sleeping from hsleep]
    rfl
  · intro hrun
    have hreset := afterReset_resetBy { s.arrive with toBit := false } .wdt
    refine ⟨_, ?_, hreset, fun hdef => ?_⟩
    · rw [hstep, State.wdtOverflow, show s.arrive.mode = .running from hrun]
      rfl
    · rw [show ({ s.arrive with toBit := false } : State).cfg.resetState = defaultResetState from hdef] at hreset
      have hdefault := afterDefaultReset_of (r := .value false) hreset hreset.timeout
      exact { hdefault with }

/-- An event leaves the core running. -/
theorem running_of_event {s t : State} {o : Res State} (h : EventOutcome s o) (ho : o = .next t) : t.mode = .running := by
  cases h with
  | mclr | wdtReset | wdtWake | wake =>
    cases ho
    rfl
  | entry level =>
    obtain ⟨-, rfl⟩ := interruptEntry_next ho
    cases level <;> rfl

/-- Of the instructions only `sleep` and `reset` write the power state. -/
theorem mode_mem_writes {i : Instr} (h : .mode ∈ writes i) : i = .sleep ∨ i = .reset := by
  have hdst (d : Dst) : Reg.mode ∉ wIf d := by cases d <;> decide
  cases i with
  | sleep => exact .inl rfl
  | reset => exact .inr rfl
  | call k s | ret s | retfie s => cases s <;> simp [writes, allFlags] at h
  | lfsr f k =>
    simp only [writes] at h
    split at h
    · simp at h
    · split at h <;> simp at h
  | _ => simp [writes, allFlags, hdst] at h

/-- No special-function register holds the power state. -/
theorem mode_not_mem_sfrRegs (q : Sfr) : Reg.mode ∉ sfrRegs q := by
  cases q <;> decide

/-- Settles O55: an event wakes the core, and of the instructions `sleep` alone leaves a running core asleep. -/
theorem sleepAndWakeUp : Obligations.SleepAndWakeUp := by
  refine ⟨fun s hx hm hr hi hl => ?sleeps, fun s hx hm hr hreq hi hl => ?wakes, fun s t hm h ht => ?enters⟩
  case sleeps =>
    refine step_of_sleeping hx hm ?_
    rw [event_requests hr, hi, hl]
    rfl
  case wakes =>
    have hlow : s.boundary.intLow = true → (s.gieh && s.giel) = false := fun h => by
      rw [← Bool.not_eq_true, Bool.and_eq_true]
      exact hl h
    have hwake {level : Level} (hg : s.arrive.gated level = false) :
        s.arrive.request level = some (.next { s.arrive with mode := .running }) :=
      request_ungated_sleeping hg hm
    refine step_of_event hx ?_
    rw [event_requests hr]
    cases hb : s.boundary.intHigh
    · have hbl := hreq.resolve_left (by rw [hb]; exact Bool.false_ne_true)
      rw [if_neg Bool.false_ne_true, if_pos hbl, Option.none_or]
      exact hwake (level := .low) (hlow hbl)
    · rw [if_pos rfl, hwake (level := .high) (hi hb), Option.some_or]
  case enters =>
    rcases step_next h with ⟨o, ho, heq⟩ | ⟨hsleep, -⟩ | ⟨-, i, hi, hexec⟩
    · rw [running_of_event ho heq] at ht
      cases ht
    · rw [hm] at hsleep
      cases hsleep
    · by_cases hmode : .mode ∈ writes i
      · rcases mode_mem_writes hmode with rfl | rfl
        · exact hi
        · cases hexec
          cases ht
      · have hsame : t.mode = s.arrive.mode := registerFrame i _ t .mode hexec hmode
          (fun _ q _ _ => mode_not_mem_sfrRegs q) (fun _ _ _ => ⟨nofun, nofun⟩)
        rw [ht, show s.arrive.mode = .running from hm] at hsame
        cases hsame

end Sys2Proof.Machine
end

section
/-! PROOFS about the arithmetic (41_byte_oriented.md R122, R123, R145 to R148, R153; 43_control.md R192), in integers. -/

namespace Sys2Proof.Machine

open Sys2Proof.Claims

/-! ### Sums and differences -/

/-- A carry, in integers. -/
theorem carry_toNat (b : Bool) : b.toNat = if b = true then 1 else 0 := by
  cases b <;> rfl

/-- The sign bit of a byte. -/
theorem byte_msb (x : Byte) : x.msb = decide (128 ≤ x.toNat) := BitVec.msb_eq_decide x

/-- A byte as a signed number. -/
theorem byte_toInt (x : Byte) :
    (x.toNat < 128 ∧ x.toInt = x.toNat) ∨ (128 ≤ x.toNat ∧ x.toInt = (x.toNat : Int) - 256) := by
  rw [BitVec.toInt_eq_toNat_cond]
  split <;> omega

/-- The low nibble. -/
theorem low_nibble_toNat (x : Byte) : (x.extractLsb' 0 4).toNat = x.toNat % 16 := by
  have h := toNat_range x 0 4
  rw [Nat.pow_zero, Nat.div_one] at h
  exact h

/-- The high nibble. -/
theorem high_nibble_toNat (x : Byte) : (x.extractLsb' 4 4).toNat = x.toNat / 16 := by
  have hx := x.isLt
  rw [toNat_range]
  omega

/-- `Add8`'s result. -/
theorem add8_toNat (x y : Byte) (c : Bool) : (add8 x y c).1.toNat = (x.toNat + y.toNat + c.toNat) % 256 :=
  BitVec.toNat_ofNat _ 8

/-- `Add8`'s overflow: the operands have one sign and the result the other. -/
theorem add8_ov (x y : Byte) (c : Bool) :
    (add8 x y c).2.ov = true ↔ (add8 x y c).1.toInt ≠ x.toInt + y.toInt + (c.toNat : Int) := by
  have hr := add8_toNat x y c
  have hov : (add8 x y c).2.ov = ((x.msb == y.msb) && ((add8 x y c).1.msb != x.msb)) := rfl
  have hx := x.isLt
  have hy := y.isLt
  have hc := Bool.toNat_le c
  have hsx := byte_toInt x
  have hsy := byte_toInt y
  have hsr := byte_toInt (add8 x y c).1
  rw [hov, byte_msb, byte_msb, byte_msb]
  simp only [Bool.and_eq_true, beq_iff_eq, bne_iff_ne, decide_eq_decide, ne_eq]
  omega

/-- `Add8` is the sum. -/
theorem sumOf_add8 (x y : Byte) (c : Bool) : SumOf x y c (add8 x y c).1 (add8 x y c).2 := by
  have hr := add8_toNat x y c
  have hx := x.isLt
  have hy := y.isLt
  have hcle := Bool.toNat_le c
  have hcarry : (add8 x y c).2.c = true ↔ 255 < x.toNat + y.toNat + c.toNat := decide_eq_true_iff
  have hdigit : (add8 x y c).2.dc = true ↔ 16 ≤ x.toNat % 16 + y.toNat % 16 + c.toNat := by
    rw [← low_nibble_toNat, ← low_nibble_toNat]
    exact decide_eq_true_iff
  obtain ⟨hz, hn, -⟩ := znOf_withZN (add8 x y c).2 (add8 x y c).1
  refine ⟨?_, hdigit, hz, hn, add8_ov x y c⟩
  simp only [hcarry]
  split <;> omega

/-- The complement of a byte, in integers. -/
theorem byte_not_toNat (y : Byte) : (~~~y).toNat = 255 - y.toNat := by
  rw [BitVec.toNat_not]

/-- `Sub8` is the difference: it adds the complements. -/
theorem diffOf_sub8 (x y : Byte) (b : Bool) : DiffOf x y b (sub8 x y b).1 (sub8 x y b).2 := by
  have hcomplements : SumOf x (~~~y) (!b) (sub8 x y b).1 (sub8 x y b).2 := sumOf_add8 x (~~~y) (!b)
  obtain ⟨hsum, hdc, hz, hn, hov⟩ := hcomplements
  have hx := x.isLt
  have hy := y.isLt
  have hr := (sub8 x y b).1.isLt
  have hb : (!b).toNat = 1 - b.toNat := by cases b <;> rfl
  have hble := Bool.toNat_le b
  have hnot : (~~~y).toInt = -y.toInt - 1 := by
    have hsy := byte_toInt y
    have hsn := byte_toInt (~~~y)
    rw [byte_not_toNat] at hsn
    omega
  rw [hb, byte_not_toNat] at hsum hdc
  rw [hb, hnot] at hov
  by_cases hc : (sub8 x y b).2.c = true
  · rw [if_pos hc] at hsum
    refine ⟨?_, ⟨fun _ => by omega, fun _ => hc⟩, hdc.trans (by omega), hz, hn, hov.trans (by omega)⟩
    rw [if_pos hc]
    omega
  · rw [if_neg hc] at hsum
    refine ⟨?_, ⟨fun h => absurd h hc, fun _ => by omega⟩, hdc.trans (by omega), hz, hn, hov.trans (by omega)⟩
    rw [if_neg hc]
    omega

/-- Settles O18: the sum, and the difference as the sum with the complements. -/
theorem aluIsExact : Obligations.AluIsExact := ⟨sumOf_add8, diffOf_sub8⟩

/-! ### Rotates and nibbles -/

/-- A concatenation, in integers. -/
theorem append_toNat {m n : Nat} (u : BitVec m) (v : BitVec n) : (u ++ v).toNat = 2 ^ n * u.toNat + v.toNat := by
  rw [BitVec.toNat_append, ← Nat.shiftLeft_add_eq_or_of_lt v.isLt, Nat.shiftLeft_eq, Nat.mul_comm]

theorem ofBool_toNat (b : Bool) : (BitVec.ofBool b).toNat = b.toNat := by
  cases b <;> rfl

/-- The bits at the ends of a byte, in integers. -/
theorem byte_msb_toNat (v : Byte) : v.msb.toNat = v.toNat / 128 := by
  have hv := v.isLt
  rw [byte_msb]
  by_cases h : 128 ≤ v.toNat
  · rw [decide_eq_true h, Bool.toNat_true]
    omega
  · rw [decide_eq_false h, Bool.toNat_false]
    omega

theorem byte_lsb_toNat (v : Byte) : (v.getLsbD 0).toNat = v.toNat % 2 := by
  rw [BitVec.getLsbD, Nat.toNat_testBit, Nat.pow_zero, Nat.div_one]

/-- R145. -/
theorem rotLeftCarry_toNat (v : Byte) (c : Bool) :
    256 * (rotLeftCarry v c).2.toNat + (rotLeftCarry v c).1.toNat = 2 * v.toNat + c.toNat := by
  have hbits : (rotLeftCarry v c).1.toNat = 2 ^ 1 * (v.toNat / 2 ^ 0 % 2 ^ 7) + c.toNat := by
    rw [← toNat_range, ← ofBool_toNat]
    exact append_toNat _ _
  have hout : (rotLeftCarry v c).2.toNat = v.toNat / 128 := byte_msb_toNat v
  omega

/-- R147. -/
theorem rotRightCarry_toNat (v : Byte) (c : Bool) :
    2 * (rotRightCarry v c).1.toNat + (rotRightCarry v c).2.toNat = 256 * c.toNat + v.toNat := by
  have hv := v.isLt
  have hbits : (rotRightCarry v c).1.toNat = 2 ^ 7 * c.toNat + v.toNat / 2 ^ 1 % 2 ^ 7 := by
    rw [← toNat_range, ← ofBool_toNat]
    exact append_toNat _ _
  have hout : (rotRightCarry v c).2.toNat = v.toNat % 2 := byte_lsb_toNat v
  omega

/-- R146. -/
theorem rotLeft_toNat (v : Byte) : (rotLeft v).toNat = 2 * v.toNat % 256 + v.toNat / 128 := by
  have hbits : (rotLeft v).toNat = 2 ^ 1 * (v.toNat / 2 ^ 0 % 2 ^ 7) + v.toNat / 128 := by
    rw [← toNat_range, ← byte_msb_toNat, ← ofBool_toNat]
    exact append_toNat _ _
  omega

/-- R148. -/
theorem rotRight_toNat (v : Byte) : (rotRight v).toNat = v.toNat / 2 + 128 * (v.toNat % 2) := by
  have hv := v.isLt
  have hbits : (rotRight v).toNat = 2 ^ 7 * (v.toNat % 2) + v.toNat / 2 ^ 1 % 2 ^ 7 := by
    rw [← toNat_range, ← byte_lsb_toNat, ← ofBool_toNat]
    exact append_toNat _ _
  omega

/-- R153. -/
theorem swapNibbles_toNat (v : Byte) : (swapNibbles v).toNat = 16 * (v.toNat % 16) + v.toNat / 16 := by
  rw [← low_nibble_toNat, ← high_nibble_toNat]
  exact append_toNat _ _

end Sys2Proof.Machine
end

section
/-! PROOFS of the families 41_byte_oriented.md and 42_bit_oriented.md: what each instruction with an operand in data memory
leaves, and when it stops. -/

namespace Sys2Proof.Machine

open Sys2Proof.Claims

/-! ### The shapes, in the words of the statements -/

/-- An encoding is read as its instruction, whatever follows it. -/
theorem reads_encode (i : Instr) (h : i.wellFormed = true) : reads (encode i) i := fun rest => decodeEncode i rest h

/-- A byte operation on an accessible operand stores its result and sets the flags after it. -/
theorem byteOp_eq_stored {s : State} {f : Byte} {d : Dst} {a : Acc} (h : s.Accessible d.dir .whole (s.ea f a))
    (g : Byte → ByteResult) :
    s.byteOp f d a g =
      let r := g (operand s f a)
      let t := stored s f d a r.value (stride r.skip)
      .next (t.setFlags (r.flags t.flags)) := by
  rw [byteOp_accessible h]
  cases d <;> rfl

/-- A write without a read. -/
theorem writeOp_eq_overwritten {s : State} {f : Byte} {a : Acc} (h : s.Accessible .write .whole (s.ea f a)) (v : Byte)
    (fl : Flags → Flags) :
    s.writeOp f a v fl = .next ((overwritten s f a v).setFlags (fl (overwritten s f a v).flags)) :=
  writeOp_accessible h v fl

/-- A test of a byte. -/
theorem testOp_eq_tested {s : State} {f : Byte} {a : Acc} (h : s.Accessible .read .whole (s.ea f a)) (cond : Byte → Bool) :
    s.testOp f a cond = .next (tested s f a (stride (cond (operand s f a)))) :=
  testOp_accessible h cond

/-- A write of a bit. -/
theorem bitOp_eq_stored {s : State} {f : Byte} {b : BitVec 3} {a : Acc} (h : s.Accessible .write (.bit b) (s.ea f a))
    (g : Byte → Byte) : s.bitOp f b a g = .next (stored s f .f a (g (operand s f a)) 2) :=
  bitOp_accessible h g

/-- A test of a bit. -/
theorem bitTest_eq_tested {s : State} {f : Byte} {b : BitVec 3} {a : Acc} (h : s.Accessible .read (.bit b) (s.ea f a))
    (want : Bool) :
    s.bitTest f b a want = .next (tested s f a (stride ((operand s f a).getLsbD b.toNat == want))) :=
  bitTest_accessible h want

/-- How far a skip on a condition goes. -/
theorem stride_decide (p : Prop) [Decidable p] : stride (decide p) = if p then 4 else 2 := by
  by_cases hp : p <;> simp [stride, hp]

theorem stride_beq (x y : Byte) : stride (x == y) = if x = y then 4 else 2 := by
  by_cases hxy : x = y <;> simp [stride, hxy]

theorem stride_bne (x y : Byte) : stride (x != y) = if x = y then 2 else 4 := by
  by_cases hxy : x = y <;> simp [stride, hxy]

/-! ### Arithmetic -/

/-- Settles O19: each result and its flags are an `Add8`, and its operation stores them. -/
theorem additionInstructions : Obligations.AdditionInstructions := by
  refine ⟨fun f d a => reads_encode (.addwf f d a) rfl, fun f d a => reads_encode (.addwfc f d a) rfl,
    fun f d a => reads_encode (.incf f d a) rfl, fun f a => reads_encode (.negf f a) rfl,
    fun k => reads_encode (.addlw k) rfl, fun s f d a h => ⟨?addwf, ?addwfc, ?incf⟩, fun s f a h => ?negf, fun s k => ?addlw⟩
  case addwf => exact ⟨_, _, sumOf_add8 _ _ _, by rw [exec_addwf, execAddwf, byteOp_eq_stored h]; rfl⟩
  case addwfc => exact ⟨_, _, sumOf_add8 _ _ _, by rw [exec_addwfc, execAddwfc, byteOp_eq_stored h]; rfl⟩
  case incf => exact ⟨_, _, sumOf_add8 _ _ _, by rw [exec_incf, execIncf, byteOp_eq_stored h]; rfl⟩
  case negf => exact ⟨_, _, sumOf_add8 _ _ _, by rw [exec_negf, execNegf, byteOp_eq_stored h]; rfl⟩
  case addlw => exact ⟨_, _, sumOf_add8 _ _ _, by rw [exec_addlw, execAddlw, literalOp_eq_next]⟩

/-- Settles O20: each result and its flags are a `Sub8`, and its operation stores them. -/
theorem subtractionInstructions : Obligations.SubtractionInstructions := by
  refine ⟨fun f d a => reads_encode (.decf f d a) rfl, fun f d a => reads_encode (.subfwb f d a) rfl,
    fun f d a => reads_encode (.subwf f d a) rfl, fun f d a => reads_encode (.subwfb f d a) rfl,
    fun k => reads_encode (.sublw k) rfl, fun s f d a h => ⟨?decf, ?subfwb, ?subwf, ?subwfb⟩, fun s k => ?sublw⟩
  case decf => exact ⟨_, _, diffOf_sub8 _ _ _, by rw [exec_decf, execDecf, byteOp_eq_stored h]; rfl⟩
  case subfwb => exact ⟨_, _, diffOf_sub8 _ _ _, by rw [exec_subfwb, execSubfwb, byteOp_eq_stored h]; rfl⟩
  case subwf => exact ⟨_, _, diffOf_sub8 _ _ _, by rw [exec_subwf, execSubwf, byteOp_eq_stored h]; rfl⟩
  case subwfb => exact ⟨_, _, diffOf_sub8 _ _ _, by rw [exec_subwfb, execSubwfb, byteOp_eq_stored h]; rfl⟩
  case sublw => exact ⟨_, _, diffOf_sub8 _ _ _, by rw [exec_sublw, execSublw, literalOp_eq_next]⟩

/-! ### Logic, rotates, nibbles -/

/-- A byte operation that writes Z and N. -/
theorem byteOp_zn {s : State} {f : Byte} {d : Dst} {a : Acc} (h : s.Accessible d.dir .whole (s.ea f a)) (g : Byte → Byte) :
    s.byteOp f d a (fun v => ByteResult.zn (g v)) =
      .next ((stored s f d a (g (operand s f a)) 2).setFlags
        ((stored s f d a (g (operand s f a)) 2).flags.withZN (g (operand s f a)))) :=
  byteOp_eq_stored h _

/-- The complement, bit by bit. -/
theorem not_getLsbD (v : Byte) : ∀ j < 8, (~~~v).getLsbD j = !v.getLsbD j := by
  intro j hj
  rw [BitVec.getLsbD_not, decide_eq_true hj, Bool.true_and]

/-- Settles O21: each result is given bit by bit by its operator. -/
theorem logicInstructions : Obligations.LogicInstructions := by
  refine ⟨fun f d a => reads_encode (.andwf f d a) rfl, fun f d a => reads_encode (.comf f d a) rfl,
    fun f d a => reads_encode (.iorwf f d a) rfl, fun f d a => reads_encode (.movf f d a) rfl,
    fun f d a => reads_encode (.xorwf f d a) rfl, fun s f d a h => ⟨?andwf, ?comf, ?iorwf, ?movf, ?xorwf⟩⟩
  case andwf => exact ⟨_, _, fun _ _ => BitVec.getLsbD_and, znOf_withZN _ _, by rw [exec_andwf, execAndwf, byteOp_zn h]⟩
  case comf => exact ⟨_, _, not_getLsbD _, znOf_withZN _ _, by rw [exec_comf, execComf, byteOp_zn h]⟩
  case iorwf => exact ⟨_, _, fun _ _ => BitVec.getLsbD_or, znOf_withZN _ _, by rw [exec_iorwf, execIorwf, byteOp_zn h]⟩
  case movf => exact ⟨_, _, rfl, znOf_withZN _ _, by rw [exec_movf, execMovf, byteOp_zn h]⟩
  case xorwf => exact ⟨_, _, fun _ _ => BitVec.getLsbD_xor, znOf_withZN _ _, by rw [exec_xorwf, execXorwf, byteOp_zn h]⟩

/-- A byte operation that writes C, Z and N. -/
theorem byteOp_czn {s : State} {f : Byte} {d : Dst} {a : Acc} (h : s.Accessible d.dir .whole (s.ea f a))
    (g : Byte → Byte × Bool) :
    ∃ fl, CznOf (stored s f d a (g (operand s f a)).1 2).flags (g (operand s f a)).1 (g (operand s f a)).2 fl ∧
      s.byteOp f d a (fun v => ByteResult.czn (g v)) = .next ((stored s f d a (g (operand s f a)).1 2).setFlags fl) := by
  obtain ⟨hz, hn, -, hdc, hov⟩ := znOf_withZN (stored s f d a (g (operand s f a)).1 2).flags (g (operand s f a)).1
  exact ⟨{ (stored s f d a (g (operand s f a)).1 2).flags.withZN (g (operand s f a)).1 with c := (g (operand s f a)).2 },
    ⟨hz, hn, rfl, hdc, hov⟩, byteOp_eq_stored h _⟩

/-- Settles O22: each rotate in integers, through the two shapes of operation. -/
theorem rotateInstructions : Obligations.RotateInstructions := by
  refine ⟨fun f d a => reads_encode (.rlcf f d a) rfl, fun f d a => reads_encode (.rrcf f d a) rfl,
    fun f d a => reads_encode (.rlncf f d a) rfl, fun f d a => reads_encode (.rrncf f d a) rfl,
    fun s f d a h => ⟨?rlcf, ?rrcf, ?rlncf, ?rrncf⟩⟩
  case rlcf =>
    obtain ⟨fl, hfl, hop⟩ := byteOp_czn h fun v => rotLeftCarry v s.flags.c
    exact ⟨_, _, fl, rotLeftCarry_toNat _ _, hfl, by rw [exec_rlcf, execRlcf, hop]⟩
  case rrcf =>
    obtain ⟨fl, hfl, hop⟩ := byteOp_czn h fun v => rotRightCarry v s.flags.c
    exact ⟨_, _, fl, rotRightCarry_toNat _ _, hfl, by rw [exec_rrcf, execRrcf, hop]⟩
  case rlncf => exact ⟨_, _, rotLeft_toNat _, znOf_withZN _ _, by rw [exec_rlncf, execRlncf, byteOp_zn h]⟩
  case rrncf => exact ⟨_, _, rotRight_toNat _, znOf_withZN _ _, by rw [exec_rrncf, execRrncf, byteOp_zn h]⟩

/-! ### Counts and skips -/

/-- A byte operation that writes no flag and may skip. -/
theorem byteOp_counted {s : State} {f : Byte} {d : Dst} {a : Acc} (h : s.Accessible d.dir .whole (s.ea f a))
    (g : Byte → Byte) (skip : Byte → Bool) :
    s.byteOp f d a (fun v => ByteResult.counted (g v) (skip v)) =
      .next (stored s f d a (g (operand s f a)) (stride (skip (operand s f a)))) :=
  byteOp_eq_stored h _

/-- Counting down and up, in integers. -/
theorem byte_dec_toNat (v : Byte) : (v - 1).toNat = (v.toNat + 255) % 256 := by
  rw [BitVec.toNat_sub, Nat.add_comm]
  rfl

theorem byte_inc_toNat (v : Byte) : (v + 1).toNat = (v.toNat + 1) % 256 := BitVec.toNat_add v 1

/-- Settles O23: the two instructions of a pair store the same count and skip on opposite conditions. -/
theorem countAndSkipInstructions : Obligations.CountAndSkipInstructions := by
  refine ⟨fun f d a => reads_encode (.decfsz f d a) rfl, fun f d a => reads_encode (.dcfsnz f d a) rfl,
    fun f d a => reads_encode (.incfsz f d a) rfl, fun f d a => reads_encode (.infsnz f d a) rfl,
    fun s f d a h => ⟨⟨operand s f a - 1, byte_dec_toNat _, ?_, ?_⟩, operand s f a + 1, byte_inc_toNat _, ?_, ?_⟩⟩
  · rw [exec_decfsz, execDecfsz, byteOp_counted h (· - 1) (fun v => v - 1 == 0), stride_beq]
  · rw [exec_dcfsnz, execDcfsnz, byteOp_counted h (· - 1) (fun v => v - 1 != 0), stride_bne]
  · rw [exec_incfsz, execIncfsz, byteOp_counted h (· + 1) (fun v => v + 1 == 0), stride_beq]
  · rw [exec_infsnz, execInfsnz, byteOp_counted h (· + 1) (fun v => v + 1 != 0), stride_bne]

/-- Settles O24: each is a test of the byte. -/
theorem compareAndSkipInstructions : Obligations.CompareAndSkipInstructions := by
  refine ⟨fun f a => reads_encode (.cpfseq f a) rfl, fun f a => reads_encode (.cpfsgt f a) rfl,
    fun f a => reads_encode (.cpfslt f a) rfl, fun f a => reads_encode (.tstfsz f a) rfl,
    fun s f a h => ⟨?cpfseq, ?cpfsgt, ?cpfslt, ?tstfsz⟩⟩
  case cpfseq => rw [exec_cpfseq, execCpfseq, testOp_eq_tested h, stride_beq]
  case cpfsgt => rw [exec_cpfsgt, execCpfsgt, testOp_eq_tested h, stride_decide]
  case cpfslt => rw [exec_cpfslt, execCpfslt, testOp_eq_tested h, stride_decide]
  case tstfsz => rw [exec_tstfsz, execTstfsz, testOp_eq_tested h, stride_beq]

/-- Settles O25: each is a write without a read. -/
theorem overwritingInstructions : Obligations.OverwritingInstructions := by
  refine ⟨fun f a => reads_encode (.clrf f a) rfl, fun f a => reads_encode (.setf f a) rfl,
    fun f a => reads_encode (.movwf f a) rfl, fun s f a h => ⟨?clrf, ?setf, ?movwf⟩⟩
  case clrf =>
    exact ⟨{ (overwritten s f a 0).flags with z := true }, rfl, rfl, rfl, rfl, rfl,
      by rw [exec_clrf, execClrf, writeOp_eq_overwritten h]⟩
  case setf =>
    rw [exec_setf, execSetf, writeOp_eq_overwritten h]
    rfl
  case movwf =>
    rw [exec_movwf, execMovwf, writeOp_eq_overwritten h]
    rfl

/-! ### Bits -/

/-- The mask of a bit. -/
theorem bitMask_getLsbD (b : BitVec 3) : ∀ j < 8, (bitMask b).getLsbD j = decide (j = b.toNat) := by
  revert b
  decide

/-- Settles O29: the mask picks the bit, and the operator changes it. -/
theorem bitWritingInstructions : Obligations.BitWritingInstructions := by
  refine ⟨fun f b a => reads_encode (.bcf f b a) rfl, fun f b a => reads_encode (.bsf f b a) rfl,
    fun f b a => reads_encode (.btg f b a) rfl, fun s f b a h =>
      ⟨⟨_, fun j hj => ?_, by rw [exec_bcf, execBcf, bitOp_eq_stored h]⟩,
        ⟨_, fun j hj => ?_, by rw [exec_bsf, execBsf, bitOp_eq_stored h]⟩,
        ⟨_, fun j hj => ?_, by rw [exec_btg, execBtg, bitOp_eq_stored h]⟩⟩⟩
  · rw [BitVec.getLsbD_and, not_getLsbD _ j hj, bitMask_getLsbD b j hj]
    by_cases hb : j = b.toNat <;> simp [hb]
  · rw [BitVec.getLsbD_or, bitMask_getLsbD b j hj]
    by_cases hb : j = b.toNat <;> simp [hb]
  · rw [BitVec.getLsbD_xor, bitMask_getLsbD b j hj]
    by_cases hb : j = b.toNat <;> simp [hb]

/-- Settles O30: each is a test of the bit, which is a digit of the byte in base 2. -/
theorem bitTestingInstructions : Obligations.BitTestingInstructions := by
  have hbit (v : Byte) (j : Nat) : v.getLsbD j = decide (v.toNat / 2 ^ j % 2 = 1) := Nat.testBit_eq_decide_div_mod_eq
  refine ⟨fun f b a => reads_encode (.btfsc f b a) rfl, fun f b a => reads_encode (.btfss f b a) rfl,
    fun s f b a h => ⟨?btfsc, ?btfss⟩⟩
  case btfsc =>
    rw [exec_btfsc, execBtfsc, bitTest_eq_tested h, hbit]
    rcases Nat.mod_two_eq_zero_or_one ((operand s f a).toNat / 2 ^ b.toNat) with hd | hd <;> simp [hd, stride]
  case btfss =>
    rw [exec_btfss, execBtfss, bitTest_eq_tested h, hbit]
    rcases Nat.mod_two_eq_zero_or_one ((operand s f a).toNat / 2 ^ b.toNat) with hd | hd <;> simp [hd, stride]

end Sys2Proof.Machine

namespace Sys2Proof

open Machine Claims

/-- Settles O26: the operation stores the swapped byte. (Its name is taken in `Machine`, by the function it is about.) -/
theorem swapNibbles : Obligations.SwapNibbles := by
  refine ⟨fun f d a => reads_encode (.swapf f d a) rfl, fun s f d a h => ⟨_, swapNibbles_toNat _, ?_⟩⟩
  rw [exec_swapf, execSwapf, byteOp_eq_stored h]
  rfl

end Sys2Proof
end

section
/-! PROOFS about accesses to data memory (20_memory.md R64 to R66): what stops one and what stops with it, where addresses
lead, and what reads back. -/

namespace Sys2Proof.Machine

open Sys2Proof.Claims

/-! ### An access that stops -/

/-- A read of a part whose access stops. -/
theorem readPart_stop {s : State} {p : BytePart} {x : DAddr} {e : Stop} (h : s.accessStop .read p x = some e) :
    s.readPart p x = e.out := by
  simp only [State.readPart, h]

/-- A write to a part whose access stops. -/
theorem writePart_stop {s : State} {p : BytePart} {x : DAddr} {e : Stop} (h : s.accessStop .write p x = some e) (v : Byte) :
    s.writePart p x v = e.out := by
  simp only [State.writePart, h]

/-- What follows a stop is not reached. -/
theorem andThen_stop {α β : Type} (e : Stop) (k : α → Res β) : andThen e.out k = e.out := by
  cases e <;> rfl

section
variable {s : State} {f : Byte} {a : Acc} {e : Stop}

theorem byteOp_stop {d : Dst} {g : Byte → ByteResult} (h : s.accessStop .read .whole (s.ea f a) = some e) :
    s.byteOp f d a g = e.out := by
  rw [State.byteOp, State.memRead, readPart_stop h, andThen_stop]

theorem testOp_stop {cond : Byte → Bool} (h : s.accessStop .read .whole (s.ea f a) = some e) :
    s.testOp f a cond = e.out := by
  rw [State.testOp, State.memRead, readPart_stop h, andThen_stop]

theorem writeOp_stop {v : Byte} {fl : Flags → Flags} (h : s.accessStop .write .whole (s.ea f a) = some e) :
    s.writeOp f a v fl = e.out := by
  rw [State.writeOp, State.memWrite, writePart_stop (by rw [advance_accessStop, h]), andThen_stop]

theorem bitOp_stop {b : BitVec 3} {g : Byte → Byte} (h : s.accessStop .read (.bit b) (s.ea f a) = some e) :
    s.bitOp f b a g = e.out := by
  rw [State.bitOp, readPart_stop h, andThen_stop]

theorem bitTest_stop {b : BitVec 3} {want : Bool} (h : s.accessStop .read (.bit b) (s.ea f a) = some e) :
    s.bitTest f b a want = e.out := by
  rw [State.bitTest, readPart_stop h, andThen_stop]

theorem mulwf_stop (h : s.accessStop .read .whole (s.ea f a) = some e) : execMulwf f a s = e.out := by
  rw [execMulwf, State.memRead, readPart_stop h, andThen_stop]

end

/-- An instruction that reads its operand stops with the read, which comes first in its shape. -/
theorem exec_read_stop {i : Instr} {s : State} {p : BytePart} {f : Byte} {a : Acc} {e : Stop}
    (hi : readsOperand i = some (p, f, a)) (h : s.accessStop .read p (s.ea f a) = some e) : exec i s = e.out := by
  match i, hi with
  | .addwf _ _ _, rfl | .addwfc _ _ _, rfl | .andwf _ _ _, rfl | .comf _ _ _, rfl | .decf _ _ _, rfl | .decfsz _ _ _, rfl
  | .dcfsnz _ _ _, rfl | .incf _ _ _, rfl | .incfsz _ _ _, rfl | .infsnz _ _ _, rfl | .iorwf _ _ _, rfl | .movf _ _ _, rfl
  | .rlcf _ _ _, rfl | .rlncf _ _ _, rfl | .rrcf _ _ _, rfl | .rrncf _ _ _, rfl | .subfwb _ _ _, rfl | .subwf _ _ _, rfl
  | .subwfb _ _ _, rfl | .swapf _ _ _, rfl | .xorwf _ _ _, rfl | .negf _ _, rfl =>
    rw [exec]
    exact byteOp_stop h
  | .cpfseq _ _, rfl | .cpfsgt _ _, rfl | .cpfslt _ _, rfl | .tstfsz _ _, rfl =>
    rw [exec]
    exact testOp_stop h
  | .mulwf _ _, rfl =>
    rw [exec]
    exact mulwf_stop h
  | .bcf _ _ _, rfl | .bsf _ _ _, rfl | .btg _ _ _, rfl =>
    rw [exec]
    exact bitOp_stop h
  | .btfsc _ _ _, rfl | .btfss _ _ _, rfl =>
    rw [exec]
    exact bitTest_stop h

/-- An instruction that writes its operand reads it too, but for three that only write it. -/
theorem writesOperand_cases {i : Instr} {p : BytePart} {f : Byte} {a : Acc} (hi : writesOperand i = some (p, f, a)) :
    readsOperand i = some (p, f, a) ∨ (p = .whole ∧ (i = .clrf f a ∨ i = .movwf f a ∨ i = .setf f a)) := by
  match i, hi with
  | .addwf _ .f _, rfl | .addwfc _ .f _, rfl | .andwf _ .f _, rfl | .comf _ .f _, rfl | .decf _ .f _, rfl
  | .decfsz _ .f _, rfl | .dcfsnz _ .f _, rfl | .incf _ .f _, rfl | .incfsz _ .f _, rfl | .infsnz _ .f _, rfl
  | .iorwf _ .f _, rfl | .movf _ .f _, rfl | .rlcf _ .f _, rfl | .rlncf _ .f _, rfl | .rrcf _ .f _, rfl
  | .rrncf _ .f _, rfl | .subfwb _ .f _, rfl | .subwf _ .f _, rfl | .subwfb _ .f _, rfl | .swapf _ .f _, rfl
  | .xorwf _ .f _, rfl | .negf _ _, rfl | .bcf _ _ _, rfl | .bsf _ _ _, rfl | .btg _ _ _, rfl => exact .inl rfl
  | .clrf _ _, rfl => exact .inr ⟨rfl, .inl rfl⟩
  | .movwf _ _, rfl => exact .inr ⟨rfl, .inr (.inl rfl)⟩
  | .setf _ _, rfl => exact .inr ⟨rfl, .inr (.inr rfl)⟩

/-- An instruction that writes its operand stops with the write: if it reads it first, that read stops the same way. -/
theorem exec_write_stop {i : Instr} {s : State} {p : BytePart} {f : Byte} {a : Acc} {e : Stop}
    (hi : writesOperand i = some (p, f, a)) (h : s.accessStop .write p (s.ea f a) = some e) : exec i s = e.out := by
  rcases writesOperand_cases hi with hr | ⟨rfl, rfl | rfl | rfl⟩
  · exact exec_read_stop hr ((accessStop_dir s .read .write p _).trans h)
  · rw [exec_clrf]
    exact writeOp_stop h
  · rw [exec_movwf]
    exact writeOp_stop h
  · rw [exec_setf]
    exact writeOp_stop h

/-! ### movff -/

/-- The destinations `movff` may not have are four registers (R141). -/
theorem movffForbids_iff (q : Place) :
    movffForbids q = true ↔ ∃ r ∈ [Sfr.pcl, Sfr.tosu, Sfr.tosh, Sfr.tosl], q = .sfr r := by
  rcases q with r | _ | _ | _
  · cases r <;> simp [movffForbids]
  all_goals simp [movffForbids]

/-- A destination that is none of them is permitted. -/
theorem not_movffForbids {q : Place} (h : ∀ r ∈ [Sfr.pcl, Sfr.tosu, Sfr.tosh, Sfr.tosl], q ≠ .sfr r) :
    ¬ movffForbids q = true := by
  rw [movffForbids_iff]
  rintro ⟨r, hr, hq⟩
  exact h r hr hq

/-- With a permitted destination `movff` reads first. -/
theorem execMovff_read_stop {s : State} {fs fd : DAddr} {e : Stop}
    (hfd : ∀ r ∈ [Sfr.pcl, Sfr.tosu, Sfr.tosh, Sfr.tosl], s.place fd ≠ .sfr r)
    (hs : s.accessStop .read .whole fs = some e) : exec (.movff fs fd) s = e.out := by
  rw [exec_movff, execMovff, if_neg (not_movffForbids hfd), State.memRead, readPart_stop hs, andThen_stop]

/-- After the read of an accessible source the write remains. -/
theorem execMovff_readable {s : State} {fs fd : DAddr}
    (hfd : ∀ r ∈ [Sfr.pcl, Sfr.tosu, Sfr.tosh, Sfr.tosl], s.place fd ≠ .sfr r) (hs : s.Accessible .read .whole fs) :
    exec (.movff fs fd) s = ((s.afterRead fs).advance 4).memWrite fd (s.peek fs) := by
  rw [exec_movff, execMovff, if_neg (not_movffForbids hfd), memRead_accessible hs]
  rfl

/-- Settles O17: each access stops its shape. -/
theorem operandStops : Obligations.OperandStops := by
  refine ⟨fun i s p f a e => exec_read_stop, fun i s p f a e => exec_write_stop,
    fun s fs fd e hfd hs => execMovff_read_stop hfd hs, fun s fs fd e hfd hs hd => ?destination⟩
  case destination =>
    rw [execMovff_readable hfd hs, State.memWrite, writePart_stop]
    rw [advance_accessStop, afterRead_accessStop, hd]

/-- Settles O28. -/
theorem moveBetweenRegisters : Obligations.MoveBetweenRegisters := by
  refine ⟨fun fs fd => reads_encode (.movff fs fd) rfl, fun hi lo lo2 hi2 rest hbad => ?second, fun s fs fd hfd hs hd => ?move,
    fun s fs fd r hr hq => ?forbidden⟩
  case second => rw [decode_half (decodeFirst_movff hi lo), decodeSecond_not_second _ hbad]
  case move =>
    rw [execMovff_readable hfd hs, memWrite_accessible]
    rw [State.Accessible, advance_accessStop, afterRead_accessStop, hd]
  case forbidden => rw [exec_movff, execMovff, if_pos ((movffForbids_iff _).mpr ⟨r, hr, hq⟩)]

/-! ### Where addresses lead -/

/-- An address that is no key of the map leads to no register. -/
theorem lookupSfr_eq_none {m : List (DAddr × Sfr)} {x : DAddr} (h : ∀ e ∈ m, e.1 ≠ x) : lookupSfr m x = none := by
  induction m with
  | nil => rfl
  | cons e m ih =>
    obtain ⟨he, hm⟩ := List.forall_mem_cons.mp h
    rw [lookupSfr, if_neg (Ne.symm he)]
    exact ih hm

/-- The keys of the default map are 0xFD0 and above 0xFD7. -/
theorem defaultSfrMap_keys : ∀ e ∈ defaultSfrMap, e.1.toNat = 0xFD0 ∨ 0xFD8 ≤ e.1.toNat := by decide

/-- Elsewhere the default parameters give the region and the implemented range. -/
theorem place_default_unmapped {x : DAddr} (h : x.toNat ≠ 0xFD0) (h' : x.toNat < 0xFD8) :
    Params.place defaultParams x =
      if 0xF60 ≤ x.toNat then .peripheral else if x.toNat ≤ 0x5FF then .ram else .unimplemented := by
  have hnone : lookupSfr defaultParams.sfrMap x = none := by
    refine lookupSfr_eq_none fun e he hex => ?_
    have hkey := defaultSfrMap_keys e he
    rw [hex] at hkey
    omega
  have hbase : Params.sfrBase defaultParams = 0xF60 := rfl
  have himpl : inRanges defaultParams.dataImpl x.toNat = decide (x.toNat ≤ 0x5FF) := by
    simp [defaultParams, inRanges]
  simp only [Params.place, hnone, hbase, himpl, decide_eq_true_eq]

/-- Settles O11: the ranges are unmapped, and the map is a finite table. -/
theorem defaultAddressMap : Obligations.DefaultAddressMap := by
  refine ⟨fun x hx => ?ram, fun x hlo hhi => ?unimplemented, fun x hlo hhi => ?below, fun x hlo hhi => ?between,
    by decide, by decide, by decide, by decide⟩
  case ram => rw [place_default_unmapped (by omega) (by omega), if_neg (by omega), if_pos hx]
  case unimplemented => rw [place_default_unmapped (by omega) (by omega), if_neg (by omega), if_neg (by omega)]
  case below => rw [place_default_unmapped (by omega) (by omega), if_pos hlo]
  case between => rw [place_default_unmapped (by omega) (by omega), if_pos (by omega)]

end Sys2Proof.Machine
end

section
/-! PROOFS about what an access to data memory does by where it leads (20_memory.md R64, R65), and about the images of the
registers in data memory (10_state.md R27, R30, R33, R35, R37, R45). -/

namespace Sys2Proof.Machine

open Sys2Proof.Claims

/-! ### Accesses, by where they lead -/

section
variable {s : State} {x : DAddr}

theorem accessStop_sfr {r : Sfr} (h : s.place x = .sfr r) (d : Dir) (p : BytePart) : s.accessStop d p x = s.sfrStop d p r := by
  simp only [State.accessStop, h]

theorem accessStop_ram (h : s.place x = .ram) (d : Dir) (p : BytePart) : s.accessStop d p x = none := by
  simp only [State.accessStop, h]

theorem accessStop_peripheral (h : s.place x = .peripheral) (d : Dir) (p : BytePart) :
    s.accessStop d p x = some (.refused .peripheralRegister) := by
  simp only [State.accessStop, h]

theorem accessStop_unimplemented (h : s.place x = .unimplemented) (d : Dir) (p : BytePart) :
    s.accessStop d p x = some (.fault .unimplementedData) := by
  simp only [State.accessStop, h]

/-- Where every access to the whole byte stops, a read and a write do. -/
theorem mem_stop {e : Stop} (h : ∀ d, s.accessStop d .whole x = some e) (v : Byte) :
    s.memRead x = e.out ∧ s.memWrite x v = e.out := ⟨readPart_stop (h .read), writePart_stop (h .write) v⟩

theorem peek_sfr {r : Sfr} (h : s.place x = .sfr r) : s.peek x = s.peekSfr r := by
  simp only [State.peek, h]

theorem peek_ram (h : s.place x = .ram) : s.peek x = s.ram.read x.toNat := by
  simp only [State.peek, h]

theorem poke_sfr {r : Sfr} (h : s.place x = .sfr r) (v : Byte) : s.poke x v = s.pokeSfr r v := by
  simp only [State.poke, h]

end

/-- A register all of whose bits are modelled has every part accessible. -/
theorem within_all (p : BytePart) : p.within 0xFF = true := by
  cases p with
  | whole => rfl
  | bit b =>
    revert b
    decide

/-- The bits of INTCON and of RCON that are modelled. -/
theorem intcon_modelled (b : BitVec 3) : (modelledBits .intcon).getLsbD b.toNat = true ↔ b = 7 ∨ b = 6 := by
  revert b
  decide

theorem rcon_modelled (b : BitVec 3) : (modelledBits .rcon).getLsbD b.toNat = true ↔ b = 3 ∨ b = 2 := by
  revert b
  decide

/-- A register but those four is accessible, TOS with an entry on the stack. -/
theorem sfrStop_none {s : State} {r : Sfr} (hr : r ∉ [Sfr.stkptr, Sfr.indirect, Sfr.intcon, Sfr.rcon])
    (hs : r ∈ [Sfr.tosu, Sfr.tosh, Sfr.tosl] → s.stack ≠ []) (d : Dir) (p : BytePart) : s.sfrStop d p r = none := by
  cases r with
  | tosu | tosh | tosl => exact if_neg (hs (by decide))
  | stkptr | indirect | intcon | rcon => exact absurd (by decide) hr
  | _ => exact if_pos (within_all p)

/-- Settles O12: each clause is the place's own case of `accessStop`. -/
theorem dataAccess : Obligations.DataAccess := by
  intro s x v
  refine ⟨fun h => ⟨?ramRead, ?ramWrite⟩, fun h => mem_stop (fun d => accessStop_unimplemented h d _) v,
    fun h => mem_stop (fun d => accessStop_peripheral h d _) v, fun h => mem_stop (fun d => accessStop_sfr h d _) v,
    fun h => mem_stop (fun d => accessStop_sfr h d _) v, fun r hr h hs => ?tos, fun r hr h => ?whole, fun d b h => ?intcon,
    fun d b h => ?rcon, memRead_accessible, fun h => memWrite_accessible h v, fun d p h => accessStop_ram h d p,
    fun d p r h hr hs => (accessStop_sfr h d p).trans (sfrStop_none hr hs d p)⟩
  case ramRead => rw [memRead_accessible (accessStop_ram h _ _), peek_ram h, afterRead_ram h]
  case ramWrite =>
    rw [memWrite_accessible (accessStop_ram h _ _), poke_ram h]
    rfl
  case tos =>
    obtain ⟨hread, hwrite⟩ := mem_stop (fun d => accessStop_empty_tos hr h hs d .whole) v
    exact ⟨hread, hwrite, accessStop_empty_tos hr h hs⟩
  case whole =>
    obtain rfl | rfl : r = .intcon ∨ r = .rcon := by simpa using hr
    · exact mem_stop (fun d => accessStop_sfr h d _) v
    · exact mem_stop (fun d => accessStop_sfr h d _) v
  case intcon =>
    rw [accessStop_sfr h]
    exact ite_congr (propext (intcon_modelled b)) (fun _ => rfl) (fun _ => rfl)
  case rcon =>
    rw [accessStop_sfr h]
    exact ite_congr (propext (rcon_modelled b)) (fun _ => rfl) (fun _ => rfl)

/-! ### The images of the registers -/

/-- A register's byte under the default map. -/
theorem default_peek {s : State} (hc : s.cfg = defaultParams) {x : DAddr} {r : Sfr}
    (h : Params.place defaultParams x = .sfr r) : s.peek x = s.peekSfr r :=
  peek_sfr (by rw [State.place, hc, h])

/-- A narrow register reads as its value. -/
theorem widen_toNat {l : Nat} (h : l ≤ 8) (x : BitVec l) : (x.setWidth 8).toNat = x.toNat := BitVec.toNat_setWidth_of_le h

/-- The lowest bits of a register. -/
theorem low_range_toNat {w : Nat} (x : BitVec w) (l : Nat) : (x.extractLsb' 0 l).toNat = x.toNat % 2 ^ l := by
  rw [toNat_range, Nat.pow_zero, Nat.div_one]

/-- The highest bits of a register, widened to a byte. -/
theorem high_range_toNat {m l : Nat} (hl : l ≤ 8) (x : BitVec (l + m)) :
    ((x.extractLsb' m l).setWidth 8).toNat = x.toNat / 2 ^ m := by
  rw [widen_toNat hl, toNat_range, Nat.mod_eq_of_lt]
  rw [Nat.div_lt_iff_lt_mul (Nat.two_pow_pos m), ← Nat.pow_add]
  exact x.isLt

/-- STATUS, in integers. -/
theorem toByte_toNat (fl : Flags) :
    fl.toByte.toNat = fl.c.toNat + 2 * fl.dc.toNat + 4 * fl.z.toNat + 8 * fl.ov.toNat + 16 * fl.n.toNat := by
  simp only [Flags.toByte, append_toNat, ofBool_toNat, BitVec.toNat_zero]
  omega

/-- The three bytes of an address. -/
theorem address_bytes (p : PAddr) :
    ((p.extractLsb' 16 5).setWidth 8 : Byte).toNat = p.toNat / 65536 ∧ (p.extractLsb' 8 8).toNat = p.toNat / 256 % 256 ∧
      (p.extractLsb' 0 8).toNat = p.toNat % 256 :=
  ⟨high_range_toNat (m := 16) (by decide) p, toNat_range p 8 8, low_range_toNat p 8⟩

/-- The two bytes of a pointer. -/
theorem pointer_bytes (p : BitVec 12) :
    ((p.extractLsb' 8 4).setWidth 8 : Byte).toNat = p.toNat / 256 ∧ (p.extractLsb' 0 8).toNat = p.toNat % 256 :=
  ⟨high_range_toNat (m := 8) (by decide) p, low_range_toNat p 8⟩

/-- Settles O14: the default map leads to the register, whose image is a range of it. -/
theorem registersReadThroughTheirAddresses : Obligations.RegistersReadThroughTheirAddresses := by
  intro s hc
  have hpeek {x : DAddr} {r : Sfr} (h : Params.place defaultParams x = .sfr r) : s.peek x = s.peekSfr r := default_peek hc h
  obtain ⟨htblu, htblh, htbll⟩ := address_bytes s.tblptr
  obtain ⟨hf0h, hf0l⟩ := pointer_bytes s.fsr0
  obtain ⟨hf1h, hf1l⟩ := pointer_bytes s.fsr1
  obtain ⟨hf2h, hf2l⟩ := pointer_bytes s.fsr2
  obtain ⟨hgieh, hgiel⟩ := intconByte_enables s
  obtain ⟨hto, hpd⟩ := rconByte_flags s
  refine ⟨fun x xs hs => ?tos, fun hs => ?empty, ?_⟩
  case tos =>
    have htos : s.tos = x := by rw [State.tos, hs, List.headD_cons]
    rw [hpeek (x := 0xFFF) (r := .tosu) rfl, hpeek (x := 0xFFE) (r := .tosh) rfl, hpeek (x := 0xFFD) (r := .tosl) rfl]
    exact htos ▸ address_bytes s.tos
  case empty =>
    have htos : s.tos = 0 := by
      rw [State.tos, hs, hc]
      rfl
    rw [hpeek (x := 0xFFF) (r := .tosu) rfl, hpeek (x := 0xFFE) (r := .tosh) rfl, hpeek (x := 0xFFD) (r := .tosl) rfl]
    simp only [State.peekSfr, htos]
    decide
  rw [hpeek (x := 0xFFB) (r := .pclatu) rfl, hpeek (x := 0xFFA) (r := .pclath) rfl, hpeek (x := 0xFF9) (r := .pcl) rfl,
    hpeek (x := 0xFF8) (r := .tblptru) rfl, hpeek (x := 0xFF7) (r := .tblptrh) rfl, hpeek (x := 0xFF6) (r := .tblptrl) rfl,
    hpeek (x := 0xFF5) (r := .tablat) rfl, hpeek (x := 0xFF4) (r := .prodh) rfl, hpeek (x := 0xFF3) (r := .prodl) rfl,
    hpeek (x := 0xFF2) (r := .intcon) rfl, hpeek (x := 0xFE8) (r := .wreg) rfl, hpeek (x := 0xFEA) (r := .fsr0h) rfl,
    hpeek (x := 0xFE9) (r := .fsr0l) rfl, hpeek (x := 0xFE2) (r := .fsr1h) rfl, hpeek (x := 0xFE1) (r := .fsr1l) rfl,
    hpeek (x := 0xFDA) (r := .fsr2h) rfl, hpeek (x := 0xFD9) (r := .fsr2l) rfl, hpeek (x := 0xFE0) (r := .bsr) rfl,
    hpeek (x := 0xFD8) (r := .status) rfl, hpeek (x := 0xFD0) (r := .rcon) rfl]
  exact ⟨widen_toNat (by decide) s.pclatu, rfl, low_range_toNat (s.pc + 2) 8, htblu, htblh, htbll, rfl, rfl, rfl, hgieh,
    hgiel, rfl,
    hf0h, hf0l, hf1h, hf1l, hf2h, hf2l, widen_toNat (by decide) s.bsr, toByte_toNat s.flags, hto, hpd⟩

/-! ### PCL -/

/-- A bit range is a quotient cut to its width. -/
theorem ofNat_div_two_pow {w : Nat} (x : BitVec w) (s l : Nat) : BitVec.ofNat l (x.toNat / 2 ^ s) = x.extractLsb' s l := by
  rw [BitVec.extractLsb', Nat.shiftRight_eq_div_pow]

/-- Settles O16. -/
theorem programCounterThroughPcl : Obligations.ProgramCounterThroughPcl := by
  intro s x v h
  have haccess (d : Dir) : s.Accessible d .whole x := (accessStop_sfr h d _).trans rfl
  refine ⟨?read, ?write⟩
  case read =>
    have hafter : s.afterRead x = { s with pclath := (s.pc + 2).extractLsb' 8 8, pclatu := (s.pc + 2).extractLsb' 16 5 } := by
      simp only [State.afterRead, h]
      rfl
    have hlow : BitVec.ofNat 8 (s.pc + 2).toNat = (s.pc + 2).extractLsb' 0 8 := by
      rw [← ofNat_div_two_pow, Nat.pow_zero, Nat.div_one]
    have hmid : BitVec.ofNat 8 ((s.pc + 2).toNat / 256) = (s.pc + 2).extractLsb' 8 8 := ofNat_div_two_pow _ 8 8
    have hhigh : BitVec.ofNat 5 ((s.pc + 2).toNat / 65536) = (s.pc + 2).extractLsb' 16 5 := ofNat_div_two_pow _ 16 5
    rw [memRead_accessible (haccess .read), peek_sfr h, hafter, hlow, hmid, hhigh]
    rfl
  case write =>
    have htarget : alignPc (s.pclatu ++ s.pclath ++ v) =
        BitVec.ofNat 21 (65536 * s.pclatu.toNat + 256 * s.pclath.toNat + 2 * (v.toNat / 2)) := by
      apply BitVec.eq_of_toNat_eq
      have hu := s.pclatu.isLt
      have hh := s.pclath.isLt
      have hv := v.isLt
      rw [alignPc_toNat, append_toNat, append_toNat, BitVec.toNat_ofNat]
      omega
    rw [memWrite_accessible (haccess .write), poke_sfr h, ← htarget]
    rfl

end Sys2Proof.Machine
end

section
/-! PROOFS that data memory and the registers in it read back what was written (20_memory.md R65, R77): each byte of a register
is a range of it, and a write replaces that range. -/

namespace Sys2Proof.Machine

open Sys2Proof.Claims

/-! ### What a register's image depends on -/

/-- The image of a register is the same when what the register holds is, and PC for PCL. -/
theorem peekSfr_congr {s t : State} {q : Sfr} (hregs : ∀ r ∈ sfrRegs q, r.same s t) (hpc : q = .pcl → t.pc = s.pc)
    (hcfg : t.cfg = s.cfg) : t.peekSfr q = s.peekSfr q := by
  have hreg (r : Reg) (h : r ∈ sfrRegs q) : r.same s t := hregs r h
  cases q with
  | tosu | tosh | tosl =>
    have hstack : t.stack = s.stack := hreg .stack (by decide)
    simp only [State.peekSfr, State.tos, hstack, hcfg]
  | stkptr | indirect => rfl
  | pcl => simp only [State.peekSfr, State.pcNext, hpc rfl]
  | pclatu => exact congrArg (BitVec.setWidth 8) (hreg .pclatu (by decide))
  | pclath => exact hreg .pclath (by decide)
  | tblptru | tblptrh | tblptrl =>
    have htbl : t.tblptr = s.tblptr := hreg .tblptr (by decide)
    simp only [State.peekSfr, htbl]
  | tablat => exact hreg .tablat (by decide)
  | prodh => exact hreg .prodh (by decide)
  | prodl => exact hreg .prodl (by decide)
  | intcon =>
    have hh : t.gieh = s.gieh := hreg .gieh (by decide)
    have hl : t.giel = s.giel := hreg .giel (by decide)
    simp only [State.peekSfr, State.intconByte, hh, hl]
  | wreg => exact hreg .w (by decide)
  | fsr0h | fsr0l =>
    have hf : t.fsr0 = s.fsr0 := hreg .fsr0 (by decide)
    simp only [State.peekSfr, hf]
  | fsr1h | fsr1l =>
    have hf : t.fsr1 = s.fsr1 := hreg .fsr1 (by decide)
    simp only [State.peekSfr, hf]
  | fsr2h | fsr2l =>
    have hf : t.fsr2 = s.fsr2 := hreg .fsr2 (by decide)
    simp only [State.peekSfr, hf]
  | bsr => exact congrArg (BitVec.setWidth 8) (hreg .bsr (by decide))
  | status =>
    have hc : t.flags.c = s.flags.c := hreg .c (by decide)
    have hdc : t.flags.dc = s.flags.dc := hreg .dc (by decide)
    have hz : t.flags.z = s.flags.z := hreg .z (by decide)
    have hov : t.flags.ov = s.flags.ov := hreg .ov (by decide)
    have hn : t.flags.n = s.flags.n := hreg .n (by decide)
    simp only [State.peekSfr, Flags.toByte, hc, hdc, hz, hov, hn]
  | rcon =>
    have ht : t.toBit = s.toBit := hreg .to (by decide)
    have hp : t.pdBit = s.pdBit := hreg .pd (by decide)
    simp only [State.peekSfr, State.rconByte, ht, hp]

/-- A write leaves where addresses lead. -/
theorem place_poke (s : State) (x y : DAddr) (v : Byte) : (s.poke x v).place y = s.place y := by
  have hcfg : (s.poke x v).cfg = s.cfg := (changes_poke (A := fun _ => True) (fun _ _ _ _ => trivial) v).cfg
  simp only [State.place, hcfg]

/-- Settles O13: the memory laws, through the place of each address. -/
theorem memoryReadsBack : Obligations.MemoryReadsBack := by
  intro s x v hs hx
  refine ⟨?same, fun y hne hy => ?other, fun y r hy => ?register, ?inv⟩
  case same =>
    rw [peek_ram ((place_poke s x x v).trans hx), poke_ram hx]
    exact Memory.read_write_same hs.ramCanonical _ _
  case other =>
    rw [peek_ram ((place_poke s x y v).trans hy), peek_ram hy, poke_ram hx]
    exact Memory.read_write_other _ (fun h => hne (BitVec.eq_of_toNat_eq h)) _
  case register =>
    rw [peek_sfr ((place_poke s x y v).trans hy), peek_sfr hy, poke_ram hx]
    exact peekSfr_congr (fun r _ => by cases r <;> rfl) (fun _ => rfl) rfl
  case inv => exact (changes_poke (A := fun _ => True) (fun _ _ _ _ => trivial) v).inv hs

/-! ### What a write leaves of another register -/

/-- The registers one of whose bytes, or which as a whole, a special-function register holds. -/
def holders : Reg → List Sfr
  | .stack => [.tosu, .tosh, .tosl]
  | .pclatu => [.pclatu]
  | .pclath => [.pclath]
  | .tblptr => [.tblptru, .tblptrh, .tblptrl]
  | .tablat => [.tablat]
  | .prodh => [.prodh]
  | .prodl => [.prodl]
  | .gieh | .giel => [.intcon]
  | .w => [.wreg]
  | .fsr0 => [.fsr0h, .fsr0l]
  | .fsr1 => [.fsr1h, .fsr1l]
  | .fsr2 => [.fsr2h, .fsr2l]
  | .bsr => [.bsr]
  | .c | .dc | .z | .ov | .n => [.status]
  | .to | .pd => [.rcon]
  | .ws | .statuss | .bsrs | .hold | .wdt | .wdtPost | .mode | .program | .params | .inputs => []

theorem mem_holders (q : Sfr) : ∀ r ∈ sfrRegs q, q ∈ holders r := by
  cases q <;> decide

/-- The registers of more than one byte. -/
def wide : List Reg := [.stack, .tblptr, .fsr0, .fsr1, .fsr2]

/-- Two special-function registers hold parts of one register only if it has more than one byte. -/
theorem wide_of_shared {q r : Sfr} (hne : q ≠ r) {x : Reg} (hq : x ∈ sfrRegs q) (hr : x ∈ sfrRegs r) : x ∈ wide := by
  have hsingle (p : Sfr) (h : holders x = [p]) : x ∈ wide := by
    have hqx := mem_holders q x hq
    have hrx := mem_holders r x hr
    rw [h, List.mem_singleton] at hqx hrx
    exact absurd (hqx.trans hrx.symm) hne
  cases x with
  | stack | tblptr | fsr0 | fsr1 | fsr2 => decide
  | ws | statuss | bsrs | hold | wdt | wdtPost | mode | program | params | inputs =>
    exact absurd (mem_holders q _ hq) (List.not_mem_nil)
  | _ => exact hsingle _ rfl

/-- A write to PCL alone moves PC. -/
theorem pokeSfr_pc {r : Sfr} (h : r ≠ .pcl) (s : State) (v : Byte) : (s.pokeSfr r v).pc = s.pc := by
  cases r with
  | pcl => exact absurd rfl h
  | tosu | tosh | tosl =>
    obtain ⟨l, -, hl⟩ := setTos_eq s _
    exact (congrArg State.pc hl).trans rfl
  | _ => rfl

/-! ### The bytes of a wide register -/

section
variable {m n : Nat}

/-- A range of the upper part of a concatenation whose upper part is a range. -/
theorem range_upper_range {w a : Nat} (p : BitVec w) (v : BitVec n) {b c : Nat} (h : c + b ≤ m) :
    (p.extractLsb' a m ++ v).extractLsb' (n + c) b = p.extractLsb' (a + c) b := by
  rw [BitVec.extractLsb'_append_eq_of_le (Nat.le_add_right n c), Nat.add_sub_cancel_left, extractLsb'_extractLsb'_of_le _ h]

/-- A range of the lower part of a concatenation whose lower part is a range. -/
theorem range_lower_range {w a : Nat} (p : BitVec w) (u : BitVec m) {b c : Nat} (h : c + b ≤ n) :
    (u ++ p.extractLsb' a n).extractLsb' c b = p.extractLsb' (a + c) b := by
  rw [BitVec.extractLsb'_append_eq_of_add_le h, extractLsb'_extractLsb'_of_le _ h]

end

/-- An address with its highest bits replaced. -/
theorem address_put_upper (p : PAddr) (v : Byte) :
    (v.extractLsb' 0 5 ++ p.extractLsb' 0 16).extractLsb' 16 5 = v.extractLsb' 0 5 ∧
    (v.extractLsb' 0 5 ++ p.extractLsb' 0 16).extractLsb' 8 8 = p.extractLsb' 8 8 ∧
    (v.extractLsb' 0 5 ++ p.extractLsb' 0 16).extractLsb' 0 8 = p.extractLsb' 0 8 :=
  ⟨BitVec.extractLsb'_append_eq_left, range_lower_range p _ (by decide), range_lower_range p _ (by decide)⟩

/-- An address with its middle byte replaced. -/
theorem address_put_middle (p : PAddr) (v : Byte) :
    (p.extractLsb' 16 5 ++ v ++ p.extractLsb' 0 8).extractLsb' 16 5 = p.extractLsb' 16 5 ∧
    (p.extractLsb' 16 5 ++ v ++ p.extractLsb' 0 8).extractLsb' 8 8 = v ∧
    (p.extractLsb' 16 5 ++ v ++ p.extractLsb' 0 8).extractLsb' 0 8 = p.extractLsb' 0 8 := by
  refine ⟨?_, ?_, BitVec.extractLsb'_append_eq_right⟩
  · rw [BitVec.extractLsb'_append_eq_of_le (by decide)]
    exact BitVec.extractLsb'_append_eq_left
  · rw [BitVec.extractLsb'_append_eq_of_le (by decide)]
    exact BitVec.extractLsb'_append_eq_right

/-- An address with its lowest byte replaced. -/
theorem address_put_lower (p : PAddr) (v : Byte) :
    (p.extractLsb' 8 13 ++ v).extractLsb' 16 5 = p.extractLsb' 16 5 ∧
    (p.extractLsb' 8 13 ++ v).extractLsb' 8 8 = p.extractLsb' 8 8 ∧ (p.extractLsb' 8 13 ++ v).extractLsb' 0 8 = v :=
  ⟨range_upper_range p v (c := 8) (by decide), range_upper_range p v (c := 0) (by decide),
    BitVec.extractLsb'_append_eq_right⟩

/-- A pointer with its highest bits replaced. -/
theorem pointer_put_upper (p : BitVec 12) (v : Byte) :
    (v.extractLsb' 0 4 ++ p.extractLsb' 0 8).extractLsb' 8 4 = v.extractLsb' 0 4 ∧
    (v.extractLsb' 0 4 ++ p.extractLsb' 0 8).extractLsb' 0 8 = p.extractLsb' 0 8 :=
  ⟨BitVec.extractLsb'_append_eq_left, BitVec.extractLsb'_append_eq_right⟩

/-- A pointer with its lowest byte replaced. -/
theorem pointer_put_lower (p : BitVec 12) (v : Byte) :
    (p.extractLsb' 8 4 ++ v).extractLsb' 8 4 = p.extractLsb' 8 4 ∧ (p.extractLsb' 8 4 ++ v).extractLsb' 0 8 = v :=
  ⟨BitVec.extractLsb'_append_eq_left, BitVec.extractLsb'_append_eq_right⟩

/-- TOS, once replaced. -/
theorem setTos_tos {s : State} (h : s.stack ≠ []) (v : PAddr) : (s.setTos v).tos = v := by
  obtain ⟨x, xs, hs⟩ := List.exists_cons_of_ne_nil h
  simp only [State.setTos, State.tos, hs]
  rfl

/-- With the stack empty there is no TOS to replace. -/
theorem setTos_empty {s : State} (h : s.stack = []) (v : PAddr) : s.setTos v = s := by
  simp only [State.setTos, h]

/-- A byte of TOS keeps its image when another is written. -/
theorem peekSfr_pokeSfr_tos {q r : Sfr} (hq : q ∈ holders .stack) (hr : r ∈ holders .stack) (hne : q ≠ r) (s : State)
    (v : Byte) : (s.pokeSfr r v).peekSfr q = s.peekSfr q := by
  obtain ⟨-, hum, hul⟩ := address_put_upper s.tos v
  obtain ⟨hmu, -, hml⟩ := address_put_middle s.tos v
  obtain ⟨hlu, hlm, -⟩ := address_put_lower s.tos v
  simp only [holders, List.mem_cons, List.not_mem_nil, or_false] at hq hr
  by_cases hs : s.stack = []
  · rcases hr with rfl | rfl | rfl <;> simp only [State.pokeSfr, setTos_empty hs]
  rcases hr with rfl | rfl | rfl
  · rcases hq with rfl | rfl | rfl
    · exact absurd rfl hne
    · simp only [State.pokeSfr, State.peekSfr, setTos_tos hs, hum]
    · simp only [State.pokeSfr, State.peekSfr, setTos_tos hs, hul]
  · rcases hq with rfl | rfl | rfl
    · simp only [State.pokeSfr, State.peekSfr, setTos_tos hs, hmu]
    · exact absurd rfl hne
    · simp only [State.pokeSfr, State.peekSfr, setTos_tos hs, hml]
  · rcases hq with rfl | rfl | rfl
    · simp only [State.pokeSfr, State.peekSfr, setTos_tos hs, hlu]
    · simp only [State.pokeSfr, State.peekSfr, setTos_tos hs, hlm]
    · exact absurd rfl hne

/-- So does a byte of TBLPTR. -/
theorem peekSfr_pokeSfr_tblptr {q r : Sfr} (hq : q ∈ holders .tblptr) (hr : r ∈ holders .tblptr) (hne : q ≠ r) (s : State)
    (v : Byte) : (s.pokeSfr r v).peekSfr q = s.peekSfr q := by
  obtain ⟨-, hum, hul⟩ := address_put_upper s.tblptr v
  obtain ⟨hmu, -, hml⟩ := address_put_middle s.tblptr v
  obtain ⟨hlu, hlm, -⟩ := address_put_lower s.tblptr v
  simp only [holders, List.mem_cons, List.not_mem_nil, or_false] at hq hr
  rcases hr with rfl | rfl | rfl
  · rcases hq with rfl | rfl | rfl
    · exact absurd rfl hne
    · simp only [State.pokeSfr, State.peekSfr, State.setTblptr_tblptr, hum]
    · simp only [State.pokeSfr, State.peekSfr, State.setTblptr_tblptr, hul]
  · rcases hq with rfl | rfl | rfl
    · simp only [State.pokeSfr, State.peekSfr, State.setTblptr_tblptr, hmu]
    · exact absurd rfl hne
    · simp only [State.pokeSfr, State.peekSfr, State.setTblptr_tblptr, hml]
  · rcases hq with rfl | rfl | rfl
    · simp only [State.pokeSfr, State.peekSfr, State.setTblptr_tblptr, hlu]
    · simp only [State.pokeSfr, State.peekSfr, State.setTblptr_tblptr, hlm]
    · exact absurd rfl hne

/-- So does a byte of a pointer register. -/
theorem peekSfr_pokeSfr_fsr {x : Reg} (hx : x ∈ [Reg.fsr0, Reg.fsr1, Reg.fsr2]) {q r : Sfr} (hq : q ∈ holders x)
    (hr : r ∈ holders x) (hne : q ≠ r) (s : State) (v : Byte) : (s.pokeSfr r v).peekSfr q = s.peekSfr q := by
  have hupper (p : BitVec 12) := (pointer_put_upper p v).2
  have hlower (p : BitVec 12) := (pointer_put_lower p v).1
  simp only [List.mem_cons, List.not_mem_nil, or_false] at hx
  rcases hx with rfl | rfl | rfl <;> simp only [holders, List.mem_cons, List.not_mem_nil, or_false] at hq hr
  · rcases hr with rfl | rfl
    · obtain rfl := hq.resolve_left hne
      simp only [State.pokeSfr, State.peekSfr, State.setFsr0_fsr0, hupper]
    · obtain rfl := hq.resolve_right hne
      simp only [State.pokeSfr, State.peekSfr, State.setFsr0_fsr0, hlower]
  · rcases hr with rfl | rfl
    · obtain rfl := hq.resolve_left hne
      simp only [State.pokeSfr, State.peekSfr, State.setFsr1_fsr1, hupper]
    · obtain rfl := hq.resolve_right hne
      simp only [State.pokeSfr, State.peekSfr, State.setFsr1_fsr1, hlower]
  · rcases hr with rfl | rfl
    · obtain rfl := hq.resolve_left hne
      simp only [State.pokeSfr, State.peekSfr, State.setFsr2_fsr2, hupper]
    · obtain rfl := hq.resolve_right hne
      simp only [State.pokeSfr, State.peekSfr, State.setFsr2_fsr2, hlower]

/-- A write to one register leaves the image of another: they share no register, or bytes of one. -/
theorem peekSfr_pokeSfr_other {q r : Sfr} (hne : q ≠ r) (s : State) (v : Byte) :
    (s.pokeSfr r v).peekSfr q = s.peekSfr q := by
  by_cases hshared : ∃ x ∈ sfrRegs q, x ∈ sfrRegs r
  · obtain ⟨x, hxq, hxr⟩ := hshared
    have hq := mem_holders q x hxq
    have hr := mem_holders r x hxr
    have hwide : x = .stack ∨ x = .tblptr ∨ x ∈ [Reg.fsr0, Reg.fsr1, Reg.fsr2] := by
      simpa [wide] using wide_of_shared hne hxq hxr
    rcases hwide with rfl | rfl | hfsr
    · exact peekSfr_pokeSfr_tos hq hr hne s v
    · exact peekSfr_pokeSfr_tblptr hq hr hne s v
    · exact peekSfr_pokeSfr_fsr hfsr hq hr hne s v
  · have hchanges : Changes (· ∈ sfrRegs r) none s (s.pokeSfr r v) := changes_pokeSfr r (fun _ => id) v
    refine peekSfr_congr (fun x hx => hchanges.regs x fun hxr => hshared ⟨x, hx, hxr⟩) (fun hpcl => ?_) hchanges.cfg
    exact pokeSfr_pc (fun hr => hne (hpcl.trans hr.symm)) s v

/-! ### What a write leaves of its own register -/

/-- A byte masked to its lowest bits is that range of it, widened. -/
theorem and_low_mask {l : Nat} (hl : l ≤ 8) (v : Byte) :
    v &&& BitVec.ofNat 8 (2 ^ l - 1) = (v.extractLsb' 0 l).setWidth 8 := by
  have hmask : 2 ^ l - 1 < 2 ^ 8 := Nat.sub_one_lt_of_le (Nat.two_pow_pos l) (Nat.pow_le_pow_right (by decide) hl)
  apply BitVec.eq_of_toNat_eq
  rw [BitVec.toNat_and, BitVec.toNat_ofNat, Nat.mod_eq_of_lt hmask, Nat.and_two_pow_sub_one_eq_mod, widen_toNat hl,
    low_range_toNat]

/-- The flags of a byte are its five lowest bits. -/
theorem toByte_ofByte (v : Byte) : (Flags.ofByte v).toByte = (v.extractLsb' 0 5).setWidth 8 := by
  have hbit (i : Nat) : (v.getLsbD i).toNat = v.toNat / 2 ^ i % 2 := Nat.toNat_testBit v.toNat i
  apply BitVec.eq_of_toNat_eq
  rw [toByte_toNat, widen_toNat (by decide), low_range_toNat]
  simp only [Flags.ofByte, hbit]
  omega

/-- An accessible register but PCL reads back what it holds of the byte written. -/
theorem peekSfr_pokeSfr_same {s : State} {r : Sfr} (hs : s.sfrStop .write .whole r = none) (hr : r ≠ .pcl) (v : Byte) :
    (s.pokeSfr r v).peekSfr r = v &&& heldBits r := by
  have hall : v &&& 0xFF = v := BitVec.and_allOnes
  have hfive : v &&& 0x1F = (v.extractLsb' 0 5).setWidth 8 := and_low_mask (l := 5) (by decide) v
  have hfour : v &&& 0x0F = (v.extractLsb' 0 4).setWidth 8 := and_low_mask (l := 4) (by decide) v
  have htos (h : r ∈ [Sfr.tosu, Sfr.tosh, Sfr.tosl]) : s.stack ≠ [] := by
    intro hempty
    simp only [List.mem_cons, List.not_mem_nil, or_false] at h
    rcases h with rfl | rfl | rfl <;> simp [State.sfrStop, hempty] at hs
  cases r with
  | pcl => exact absurd rfl hr
  | stkptr | indirect | intcon | rcon => exact absurd hs (Option.some_ne_none _)
  | tosu => simp only [State.pokeSfr, State.peekSfr, heldBits, setTos_tos (htos (by decide)), address_put_upper, hfive]
  | tosh => simp only [State.pokeSfr, State.peekSfr, heldBits, setTos_tos (htos (by decide)), address_put_middle, hall]
  | tosl => simp only [State.pokeSfr, State.peekSfr, heldBits, setTos_tos (htos (by decide)), address_put_lower, hall]
  | tblptru => simp only [State.pokeSfr, State.peekSfr, heldBits, State.setTblptr_tblptr, address_put_upper, hfive]
  | tblptrh => simp only [State.pokeSfr, State.peekSfr, heldBits, State.setTblptr_tblptr, address_put_middle, hall]
  | tblptrl => simp only [State.pokeSfr, State.peekSfr, heldBits, State.setTblptr_tblptr, address_put_lower, hall]
  | fsr0h => simp only [State.pokeSfr, State.peekSfr, heldBits, State.setFsr0_fsr0, pointer_put_upper, hfour]
  | fsr1h => simp only [State.pokeSfr, State.peekSfr, heldBits, State.setFsr1_fsr1, pointer_put_upper, hfour]
  | fsr2h => simp only [State.pokeSfr, State.peekSfr, heldBits, State.setFsr2_fsr2, pointer_put_upper, hfour]
  | fsr0l => simp only [State.pokeSfr, State.peekSfr, heldBits, State.setFsr0_fsr0, pointer_put_lower, hall]
  | fsr1l => simp only [State.pokeSfr, State.peekSfr, heldBits, State.setFsr1_fsr1, pointer_put_lower, hall]
  | fsr2l => simp only [State.pokeSfr, State.peekSfr, heldBits, State.setFsr2_fsr2, pointer_put_lower, hall]
  | status => exact (toByte_ofByte v).trans hfive.symm
  | pclatu => exact hfive.symm
  | bsr => exact hfour.symm
  | pclath | tablat | prodh | prodl | wreg => exact hall.symm

/-- Settles O15. -/
theorem registerWritesReadBack : Obligations.RegisterWritesReadBack := by
  refine ⟨fun s x r v hx hs hr => ?same, fun s x v hx => ?intcon, fun s x v hx => ?rcon, fun s x y r q v hx hy hne => ?other⟩
  case same =>
    rw [peek_sfr ((place_poke s x x v).trans hx), poke_sfr hx]
    exact peekSfr_pokeSfr_same ((accessStop_sfr hx _ _).symm.trans hs) hr v
  case intcon =>
    rw [poke_sfr hx]
    exact ⟨rfl, rfl⟩
  case rcon =>
    rw [poke_sfr hx]
    exact ⟨rfl, rfl⟩
  case other =>
    rw [peek_sfr ((place_poke s x y v).trans hy), peek_sfr hy, poke_sfr hx]
    exact peekSfr_pokeSfr_other hne s v

end Sys2Proof.Machine
end

section
/-! PROOFS of the family 43_control.md: branches, jumps, calls and returns, the decimal adjustment, and the pairs of call and
return and of interrupt entry and return. -/

namespace Sys2Proof.Machine

open Sys2Proof.Claims

/-! ### Targets -/

/-- The model's branch target is the integer one mod 2^21. -/
theorem relTarget_eq_branchTarget {w : Nat} (s : State) (n : BitVec w) : s.relTarget n = branchTarget s.pc n.toInt := by
  have hpc : BitVec.ofInt 21 (s.pc.toNat : Int) = s.pc := by rw [BitVec.ofInt_natCast, BitVec.ofNat_toNat, BitVec.setWidth_eq]
  have htwo : BitVec.ofInt 21 2 = 2 := rfl
  rw [branchTarget, BitVec.ofInt_add, BitVec.ofInt_add, BitVec.ofInt_mul, hpc, htwo]
  rfl

/-- The byte address of a word address. -/
theorem absTarget_eq_wordAddress (k : BitVec 20) : absTarget k = wordAddress k := by
  apply BitVec.eq_of_toNat_eq
  have hk := k.isLt
  rw [absTarget_toNat, wordAddress, BitVec.toNat_ofNat]
  omega

/-- Alignment, in integers. -/
theorem alignPc_eq_ofNat (x : PAddr) : alignPc x = BitVec.ofNat 21 (2 * (x.toNat / 2)) := by
  rw [← alignPc_toNat, BitVec.ofNat_toNat, BitVec.setWidth_eq]

/-! ### Branches -/

/-- A conditional branch moves PC alone. -/
theorem branchIf_eq_next (s : State) (cond : Bool) (n : Byte) :
    s.branchIf cond n = .next { s with pc := if cond = true then branchTarget s.pc n.toInt else s.pc + 2 } := by
  rw [State.branchIf, relTarget_eq_branchTarget]
  cases cond <;> rfl

/-- A branch on a flag's being 0. -/
theorem branchIf_not (s : State) (flag : Bool) (n : Byte) :
    s.branchIf (!flag) n = .next { s with pc := if flag = false then branchTarget s.pc n.toInt else s.pc + 2 } := by
  rw [branchIf_eq_next]
  cases flag <;> rfl

/-- Settles O31. -/
theorem conditionalBranches : Obligations.ConditionalBranches :=
  ⟨fun n => reads_encode (.bc n) rfl, fun n => reads_encode (.bn n) rfl, fun n => reads_encode (.bnc n) rfl,
    fun n => reads_encode (.bnn n) rfl, fun n => reads_encode (.bnov n) rfl, fun n => reads_encode (.bnz n) rfl,
    fun n => reads_encode (.bov n) rfl, fun n => reads_encode (.bz n) rfl, fun s n =>
    ⟨branchIf_eq_next s _ n, branchIf_eq_next s _ n, branchIf_not s _ n, branchIf_not s _ n, branchIf_not s _ n,
      branchIf_not s _ n, branchIf_eq_next s _ n, branchIf_eq_next s _ n⟩⟩

/-- Settles O32. -/
theorem branchAlwaysAndNop : Obligations.BranchAlwaysAndNop := by
  refine ⟨fun n => reads_encode (.bra n) rfl, reads_encode .nop rfl, fun x => reads_encode (.nopx x) rfl, fun s n => ?bra,
    fun s x => ⟨rfl, rfl⟩⟩
  rw [exec_bra, execBra, relTarget_eq_branchTarget]
  rfl

/-! ### Pushes and calls -/

/-- A push onto a full stack faults. -/
theorem push_full {s : State} (h : s.cfg.stackDepth ≤ s.stack.length) (v : PAddr) : s.push v = .fault .stackOverflow := by
  rw [State.push, if_neg (Nat.not_lt.mpr h)]

/-- A call with room on the stack. -/
theorem execCall_room {s : State} (h : s.stack.length < s.cfg.stackDepth) (k : BitVec 20) (fast : Bool) :
    exec (.call k fast) s = .next { withSave s fast with stack := (s.pc + 4) :: s.stack, pc := wordAddress k } := by
  rw [exec_call, execCall, push_room h, andThen_next_left, absTarget_eq_wordAddress]
  cases fast <;> rfl

/-- Settles O33. -/
theorem jumpCallsAndPush : Obligations.JumpCallsAndPush := by
  refine ⟨fun k => reads_encode (.goto k) rfl, fun lo lo2 hi2 rest hbad => ?gotoSecond,
    fun k fast => reads_encode (.call k fast) rfl, fun b lo lo2 hi2 rest hbad => ?callSecond,
    fun n => reads_encode (.rcall n) rfl, reads_encode .push rfl, fun s k => ?goto,
    fun s k fast n hroom => ⟨execCall_room hroom k fast, ?rcall, ?push⟩,
    fun s k fast n hfull => ⟨?callFull, ?rcallFull, ?pushFull⟩⟩
  case gotoSecond => rw [decode_half (decodeFirst_goto lo), decodeSecond_not_second _ hbad]
  case callSecond =>
    obtain ⟨fast, rfl⟩ : ∃ fast, b = BitVec.ofBool fast := by
      revert b
      decide
    rw [decode_half (decodeFirst_call fast lo), decodeSecond_not_second _ hbad]
  case goto =>
    rw [exec_goto, execGoto, absTarget_eq_wordAddress]
    rfl
  case rcall =>
    rw [exec_rcall, execRcall, push_room hroom, andThen_next_left, relTarget_eq_branchTarget]
    rfl
  case push =>
    rw [exec_push, execPush, push_room hroom]
    rfl
  case callFull => rw [exec_call, execCall, push_full hfull, andThen_fault_left]
  case rcallFull => rw [exec_rcall, execRcall, push_full hfull, andThen_fault_left]
  case pushFull => rw [exec_push, execPush, push_full hfull, andThen_fault_left]

/-! ### Pops and returns -/

/-- A pop of an empty stack faults. -/
theorem pop_nil {s : State} (h : s.stack = []) : s.pop = .fault .stackUnderflow := by
  simp only [State.pop, h]

/-- A return takes PC, aligned, from the top entry. -/
theorem execRet_cons {s : State} {x : PAddr} {xs : List PAddr} (h : s.stack = x :: xs) (fast : Bool) :
    exec (.ret fast) s = .next { withRestore s fast with stack := xs, pc := alignPc x } := by
  rw [exec_ret, execRet, State.returnTo, pop_cons h, andThen_next_left]
  cases fast <;> rfl

/-- So does a return with a literal in W. -/
theorem execRetlw_cons {s : State} {x : PAddr} {xs : List PAddr} (h : s.stack = x :: xs) (k : Byte) :
    exec (.retlw k) s = .next { s with w := k, stack := xs, pc := alignPc x } := by
  have hs : (s.setW k).stack = x :: xs := h
  rw [exec_retlw, execRetlw, State.returnTo, pop_cons hs]
  rfl

/-- So does a return from interrupt, which sets the enables as its policy has it. -/
theorem execRetfie_cons {s : State} {x : PAddr} {xs : List PAddr} (h : s.stack = x :: xs) {gieh giel : Bool}
    (henable : ((s.setStack xs).setPc x).reenable = ((s.setStack xs).setPc x).setGie gieh giel) (fast : Bool) :
    exec (.retfie fast) s = .next { withRestore s fast with
      stack := xs, pc := alignPc x, gieh := gieh, giel := giel } := by
  rw [exec_retfie, execRetfie, State.interruptReturn, pop_cons h, andThen_next_left]
  simp only [henable]
  cases fast <;> rfl

/-- The enables under each policy. -/
theorem reenable_restoreCleared {s : State} (h : s.cfg.retfiePolicy = .restoreCleared) :
    s.reenable = s.setGie true (if s.gieh = false then s.giel else true) := by
  simp only [State.reenable, h]
  cases hg : s.gieh <;> rfl

theorem reenable_setGieh {s : State} (h : s.cfg.retfiePolicy = .setGieh) : s.reenable = s.setGie true s.giel := by
  simp only [State.reenable, h]

theorem reenable_setGiel {s : State} (h : s.cfg.retfiePolicy = .setGiel) : s.reenable = s.setGie s.gieh true := by
  simp only [State.reenable, h]

/-- A return from interrupt under the default policy. -/
theorem execRetfie_restoreCleared {s : State} {x : PAddr} {xs : List PAddr} (h : s.stack = x :: xs)
    (hp : s.cfg.retfiePolicy = .restoreCleared) (fast : Bool) :
    exec (.retfie fast) s = .next { withRestore s fast with
      stack := xs, pc := alignPc x, gieh := true, giel := if s.gieh = false then s.giel else true } :=
  execRetfie_cons h (reenable_restoreCleared (s := (s.setStack xs).setPc x) hp) fast

/-- Settles O34. -/
theorem returnsAndPop : Obligations.ReturnsAndPop := by
  refine ⟨fun fast => reads_encode (.ret fast) rfl, fun k => reads_encode (.retlw k) rfl, reads_encode .pop rfl,
    fun s x xs fast k hs hx => ⟨?ret, ?retlw⟩, fun s x xs hs => ?pop,
    fun s fast k hs => ⟨?retEmpty, ?retlwEmpty, ?popEmpty⟩⟩
  case ret => rw [execRet_cons hs, alignPc_of_even hx]
  case retlw => rw [execRetlw_cons hs, alignPc_of_even hx]
  case pop =>
    rw [exec_pop, execPop, pop_cons hs]
    rfl
  case retEmpty => rw [exec_ret, execRet, State.returnTo, pop_nil hs, andThen_fault_left]
  case retlwEmpty => rw [exec_retlw, execRetlw, State.returnTo, pop_nil (s := s.setW k) hs, andThen_fault_left]
  case popEmpty => rw [exec_pop, execPop, pop_nil hs, andThen_fault_left]

/-- Settles O35. -/
theorem returnFromInterrupt : Obligations.ReturnFromInterrupt := by
  refine ⟨fun fast => reads_encode (.retfie fast) rfl, fun s x xs fast hp hs hx => ?entry, fun s fast hs => ?empty⟩
  case entry => rw [execRetfie_restoreCleared hs hp, alignPc_of_even hx]
  case empty => rw [exec_retfie, execRetfie, State.interruptReturn, pop_nil hs, andThen_fault_left]

/-- Settles O36. -/
theorem oddTargetsAreAligned : Obligations.OddTargetsAreAligned := by
  intro s x xs fast k hs
  rw [execRet_cons hs, execRetlw_cons hs, ← alignPc_eq_ofNat]
  refine ⟨rfl, rfl, fun hp => execRetfie_restoreCleared hs hp fast, fun hp => ?high, fun hp => ?low⟩
  case high =>
    rw [execRetfie_cons hs (reenable_setGieh (s := (s.setStack xs).setPc x) hp)]
    cases fast <;> rfl
  case low =>
    rw [execRetfie_cons hs (reenable_setGiel (s := (s.setStack xs).setPc x) hp)]
    cases fast <;> rfl

/-! ### Pairs -/

/-- Settles O56: the return pops what the call pushed and restores what it saved. -/
theorem returnUndoesCall : Obligations.ReturnUndoesCall := by
  intro s t u k hpc hcall hstack hws hstatuss hbsrs
  have hroom : s.stack.length < s.cfg.stackDepth := by
    rw [exec_call] at hcall
    obtain ⟨s1, hpush, -⟩ := andThen_next hcall
    exact (push_next hpush).1
  rw [execCall_room hroom] at hcall
  cases hcall
  refine ⟨_, execRet_cons hstack true, alignPc_of_even (even_add hpc (by decide)), hws, hstatuss, hbsrs, rfl⟩

/-- Settles O57: the return pops what the entry pushed, restores what it saved and sets the enable it cleared. -/
theorem retfieUndoesInterruptEntry : Obligations.RetfieUndoesInterruptEntry := by
  intro s t u level hpc hgate hentry hpolicy hstack hws hstatuss hbsrs hgieh hgiel
  obtain ⟨-, rfl⟩ := interruptEntry_next hentry
  cases level with
  | high =>
    have hcleared : u.gieh = false := hgieh
    have hset : s.gieh = true := hgate
    exact ⟨_, execRetfie_restoreCleared hstack hpolicy true, alignPc_of_even hpc, hws, hstatuss, hbsrs, rfl, hset.symm,
      (if_pos hcleared).trans hgiel⟩
  | low =>
    obtain ⟨hseth, hsetl⟩ : s.gieh = true ∧ s.giel = true := Bool.and_eq_true_iff.mp hgate
    have hkept : ¬ u.gieh = false := by
      rw [show u.gieh = s.gieh from hgieh, hseth]
      decide
    exact ⟨_, execRetfie_restoreCleared hstack hpolicy true, alignPc_of_even hpc, hws, hstatuss, hbsrs, rfl, hseth.symm,
      (if_neg hkept).trans hsetl.symm⟩

end Sys2Proof.Machine
end

section
/-! PROOFS about the decimal adjustment (43_control.md R192, R193), digit by digit in integers. -/

namespace Sys2Proof.Machine

open Sys2Proof.Claims

/-- The low digit with its correction, before it is cut to four bits. -/
def adjustedLow (w : Nat) (dc : Bool) : Nat := if 9 < w % 16 ∨ dc = true then w % 16 + 6 else w % 16

/-- The high digit with the carry out of the low one. -/
def adjustedHigh (w : Nat) (dc : Bool) : Nat := w / 16 + if 15 < adjustedLow w dc then 1 else 0

/-- A byte of two digits cut to four bits each. -/
theorem digits_append (high low : Nat) :
    (BitVec.ofNat 4 high ++ BitVec.ofNat 4 low : Byte) = BitVec.ofNat 8 (16 * (high % 16) + low % 16) := by
  apply BitVec.eq_of_toNat_eq
  rw [append_toNat, BitVec.toNat_ofNat, BitVec.toNat_ofNat, BitVec.toNat_ofNat]
  omega

/-- The decimal adjustment, in integers. -/
theorem decimalAdjust_eq (w : Byte) (c dc : Bool) {cn : Bool} (hcn : cn = true ↔ 9 < adjustedHigh w.toNat dc ∨ c = true) :
    Machine.decimalAdjust w c dc =
      (BitVec.ofNat 8 (16 * ((adjustedHigh w.toNat dc + if cn = true then 6 else 0) % 16) + adjustedLow w.toNat dc % 16), cn) := by
  have hlow : (if (w.extractLsb' 0 4).toNat > 9 ∨ dc = true then (w.extractLsb' 0 4).toNat + 6 else (w.extractLsb' 0 4).toNat) =
      adjustedLow w.toNat dc := by
    rw [low_nibble_toNat]
    rfl
  have hhigh : (w.extractLsb' 4 4).toNat + (if adjustedLow w.toNat dc > 15 then 1 else 0) = adjustedHigh w.toNat dc := by
    rw [high_nibble_toNat]
    rfl
  have hc : decide (adjustedHigh w.toNat dc > 9 ∨ c = true) = cn := by
    rw [← Bool.decide_coe cn]
    exact decide_eq_decide.mpr hcn.symm
  rw [Machine.decimalAdjust]
  simp only [hlow, hhigh, hc, digits_append]
  cases cn <;> rfl

/-- `daw`, in integers. -/
theorem exec_daw_eq (s : State) {cn : Bool} (hcn : cn = true ↔ 9 < adjustedHigh s.w.toNat s.flags.dc ∨ s.flags.c = true) :
    exec .daw s = .next { s with
      w := BitVec.ofNat 8 (16 * ((adjustedHigh s.w.toNat s.flags.dc + if cn = true then 6 else 0) % 16) +
        adjustedLow s.w.toNat s.flags.dc % 16),
      flags := { s.flags with c := cn }, pc := s.pc + 2 } := by
  rw [exec_daw, execDaw, decimalAdjust_eq _ _ _ hcn]
  rfl

end Sys2Proof.Machine

namespace Sys2Proof

open Machine Claims

/-- Settles O38. (Its name is taken in `Machine`, by the function it is about.) -/
theorem decimalAdjust : Obligations.DecimalAdjust :=
  ⟨reads_encode .daw rfl, fun s => ⟨adjustedLow s.w.toNat s.flags.dc, adjustedHigh s.w.toNat s.flags.dc,
    decide (9 < adjustedHigh s.w.toNat s.flags.dc ∨ s.flags.c = true), rfl, rfl, decide_eq_true_iff,
    exec_daw_eq s decide_eq_true_iff⟩⟩

/-- The low digits of a sum: the adjusted digit is that of the decimal sum, and the correction carries where the decimal sum
does and the binary sum did not. -/
theorem adjustedLow_of_sum {x y r : Nat} {dc : Bool} (hx : x ≤ 9) (hy : y ≤ 9) (hr : r % 16 = (x + y) % 16)
    (hdc : dc = true ↔ 16 ≤ x + y) :
    adjustedLow r dc % 16 = (x + y) % 10 ∧ (15 < adjustedLow r dc ↔ 10 ≤ x + y ∧ x + y < 16) := by
  rw [adjustedLow, hr]
  by_cases hcorrect : 9 < (x + y) % 16 ∨ dc = true
  · have hten : 10 ≤ x + y := hcorrect.elim (by omega) fun h => by have := hdc.mp h; omega
    rw [if_pos hcorrect]
    omega
  · obtain ⟨hlow, hnot⟩ := not_or.mp hcorrect
    have hbinary : ¬ 16 ≤ x + y := fun h => hnot (hdc.mpr h)
    rw [if_neg hcorrect]
    omega

/-- The high digits of a sum, with C from the binary sum: the corrected digit is that of the decimal sum, and so is the new C. -/
theorem high_digit_of_sum {sum high : Nat} {c cn : Bool} (hsum : sum ≤ 19) (hhigh : high + 16 * c.toNat = sum)
    (hcn : cn = true ↔ 9 < high ∨ c = true) :
    (high + if cn = true then 6 else 0) % 16 = sum % 10 ∧ cn.toNat = sum / 10 := by
  have hcarry : cn = true ↔ 10 ≤ sum := by
    rw [hcn]
    cases c <;> simp at hhigh ⊢ <;> omega
  have hc : c.toNat ≤ 1 := Bool.toNat_le c
  cases cn with
  | false =>
    have hsmall : ¬ 10 ≤ sum := fun h => Bool.false_ne_true (hcarry.mpr h)
    rw [if_neg Bool.false_ne_true, Bool.toNat_false]
    omega
  | true =>
    have hlarge : 10 ≤ sum := hcarry.mp rfl
    rw [if_pos rfl, Bool.toNat_true]
    omega

/-- A packed-BCD sum, adjusted digit by digit: the digits of the decimal sum, and its hundreds in C. -/
theorem bcd_sum {x y r : Nat} {c dc cn : Bool} (hx : x % 16 ≤ 9 ∧ x / 16 ≤ 9) (hy : y % 16 ≤ 9 ∧ y / 16 ≤ 9)
    (hr : r + (if c = true then 256 else 0) = x + y) (hdc : dc = true ↔ 16 ≤ x % 16 + y % 16)
    (hcn : cn = true ↔ 9 < adjustedHigh r dc ∨ c = true) :
    adjustedLow r dc % 16 = (x % 16 + y % 16) % 10 ∧
      (adjustedHigh r dc + if cn = true then 6 else 0) % 16 = (x / 16 + y / 16 + (x % 16 + y % 16) / 10) % 10 ∧
      cn.toNat = (x / 16 + y / 16 + (x % 16 + y % 16) / 10) / 10 := by
  obtain ⟨hxl, hxh⟩ := hx
  obtain ⟨hyl, hyh⟩ := hy
  have hcarry : (if c = true then 256 else 0) = 256 * c.toNat := by cases c <;> rfl
  obtain ⟨hlow, hover⟩ := adjustedLow_of_sum hxl hyl (by omega : r % 16 = _) hdc
  refine ⟨hlow, high_digit_of_sum (by omega) ?_ hcn⟩
  rw [adjustedHigh]
  split <;> omega

/-- `daw` in a state whose W and flags are a packed-BCD sum. -/
theorem daw_of_sum {t : State} {x y : Byte} (hx : isBcd x) (hy : isBcd y) (hsum : SumOf x y false t.w t.flags) :
    ∃ u, exec .daw t = .next u ∧ isBcd u.w ∧ bcdValue u.w + 100 * u.flags.c.toNat = bcdValue x + bcdValue y := by
  obtain ⟨hr, hdc, -⟩ := hsum
  obtain ⟨cn, hcn⟩ : ∃ cn : Bool, cn = true ↔ 9 < adjustedHigh t.w.toNat t.flags.dc ∨ t.flags.c = true :=
    ⟨_, decide_eq_true_iff⟩
  obtain ⟨hlow, hhigh, hcarry⟩ := bcd_sum hx hy hr hdc hcn
  refine ⟨_, exec_daw_eq t hcn, ?_⟩
  simp only [isBcd, bcdValue, BitVec.toNat_ofNat, hlow, hhigh, hcarry]
  generalize hl : x.toNat % 16 + y.toNat % 16 = low
  generalize hh : x.toNat / 16 + y.toNat / 16 + low / 10 = high
  rw [Nat.mod_eq_of_lt (by omega : 16 * (high % 10) + low % 10 < 2 ^ 8)]
  omega

/-- Settles O39: `addlw` leaves the sum, and `daw` adjusts it. -/
theorem decimalAdjustCorrectsBcdSums : Obligations.DecimalAdjustCorrectsBcdSums := by
  intro s k hw hk
  obtain ⟨u, hdaw, hbcd, hvalue⟩ :=
    daw_of_sum (t := { s with w := (add8 s.w k false).1, flags := (add8 s.w k false).2, pc := s.pc + 2 }) hw hk
      (sumOf_add8 s.w k false)
  exact ⟨_, u, literalOp_eq_next s _ _, hdaw, hbcd, hvalue⟩

end Sys2Proof
end

section
/-! PROOFS of the families 44_literal.md (`lfsr`, `movlb`) and 45_table.md. -/

namespace Sys2Proof.Machine

open Sys2Proof.Claims

/-! ### lfsr and movlb -/

/-- A first word of `lfsr`, from its bits. -/
theorem decodeFirst_lfsr_of_bits {lo : Byte} (h : lo.extractLsb' 6 2 = 0b00#2) :
    decodeFirst 0b11101110#8 lo = .half (.lfsr (lo.extractLsb' 4 2) (lo.extractLsb' 0 4)) := if_pos h

/-- Settles O42. -/
theorem loadPointerAndBank : Obligations.LoadPointerAndBank := by
  refine ⟨fun f k hf => reads_encode (.lfsr f k) (bne_iff_ne.mpr hf), fun lo lo2 hi2 rest hlo hhi => ?second,
    fun k => reads_encode (.movlb k) rfl, fun s k => ⟨rfl, rfl, rfl, rfl⟩, fun s k => rfl⟩
  case second => exact (decode_half (decodeFirst_lfsr_of_bits hlo) lo2 hi2 rest).trans (decodeSecond_lfsr_bad _ _ hhi lo2)

/-! ### Table reads -/

/-- A table read in implemented program memory. -/
theorem tableRead_inProgram {s : State} {m : TblMode} (h : inProgram s (m.accessed s.tblptr)) :
    s.tableRead m = .next { s with
      tablat := s.prog.read (m.accessed s.tblptr).toNat, tblptr := m.after s.tblptr, pc := s.pc + 2 } := by
  have hhas : s.progHas (m.accessed s.tblptr) = true := decide_eq_true h
  simp only [State.tableRead, hhas, if_true]
  rfl

/-- A table read elsewhere. -/
theorem tableRead_outside {s : State} {m : TblMode} (h : ¬ inProgram s (m.accessed s.tblptr)) :
    s.tableRead m = .fault .tableReadOutsideProgram := by
  have hhas : s.progHas (m.accessed s.tblptr) = false := decide_eq_false h
  simp only [State.tableRead, hhas]
  rfl

/-- Settles O43: each mode is the table read at the address it accesses. -/
theorem tableReads : Obligations.TableReads :=
  ⟨reads_encode .tblrd rfl, reads_encode .tblrdPostInc rfl, reads_encode .tblrdPostDec rfl, reads_encode .tblrdPreInc rfl,
    fun _ h => ⟨tableRead_inProgram (m := .same) h, tableRead_inProgram (m := .postInc) h,
      tableRead_inProgram (m := .postDec) h⟩,
    fun _ h => tableRead_inProgram (m := .preInc) h,
    fun _ h => ⟨tableRead_outside (m := .same) h, tableRead_outside (m := .postInc) h, tableRead_outside (m := .postDec) h⟩,
    fun _ h => tableRead_outside (m := .preInc) h⟩

/-! ### Table writes -/

/-- The holding registers with the one an address selects replaced. -/
def held (s : State) (p : PAddr) : Vector Byte 8 := s.hold.set (holdIx p).val s.tablat (holdIx p).isLt

/-- A table write replaces one holding register and moves the pointer. -/
theorem tableWrite_eq_next (s : State) (m : TblMode) :
    s.tableWrite m = .next { s with
      hold := held s (m.accessed s.tblptr), tblptr := m.after s.tblptr, pc := s.pc + 2 } := rfl

/-- An address selects its remainder mod 8. -/
theorem holdIx_val (p : PAddr) : (holdIx p).val = p.toNat % 8 := low_range_toNat p 3

/-- The holding register an address selects takes TABLAT, and the others are kept. -/
theorem held_getElem (s : State) (p : PAddr) (j : Nat) (hj : j < 8) :
    (held s p)[j] = if j = p.toNat % 8 then s.tablat else s.hold[j] := by
  simp only [held, Vector.getElem_set, holdIx_val, eq_comm]

/-- Settles O44: each mode is the table write at the address it accesses. -/
theorem tableWrites : Obligations.TableWrites :=
  ⟨reads_encode .tblwt rfl, reads_encode .tblwtPostInc rfl, reads_encode .tblwtPostDec rfl, reads_encode .tblwtPreInc rfl,
    fun s => ⟨⟨held s s.tblptr, held_getElem s s.tblptr, tableWrite_eq_next s .same, tableWrite_eq_next s .postInc,
      tableWrite_eq_next s .postDec⟩, held s (s.tblptr + 1), held_getElem s (s.tblptr + 1), tableWrite_eq_next s .preInc⟩⟩

end Sys2Proof.Machine
end
